-- ==== Sys2Proof/Word.lean ====
section
/-! DEFINITION. The words of the block: bytes, symbols, command words, registers, weights, bit strings and tree values. -/

namespace Sys2Proof

/-- One byte of a buffer (20_memory.md R42). -/
abbrev Byte := BitVec 8

/-- A symbol is a byte value, 0x00 to 0xFF (00_scope.md R7: SYMBOL_WIDTH, ALPHABET). -/
abbrev Symbol := BitVec 8

/-- A command word (00_scope.md R7: CMD_WIDTH; 30_encoding.md R65). -/
abbrev Word := BitVec 32

/-- A 64-bit register (00_scope.md R7). -/
abbrev Reg := BitVec 64

/-- The weight of a tree node during BLD (00_scope.md R7: WEIGHT_WIDTH; 41_tree_builder.md R80). -/
abbrev Weight := BitVec 72

/-- A bit string in stream order, its first bit at the head (00_scope.md R10). -/
abbrev BitString := List Bool

/-- A tree value: a leaf owns one symbol, an internal node owns exactly two children (10_state.md R35). -/
inductive HuffTree where
  | leaf (s : Symbol)
  | node (l r : HuffTree)
deriving DecidableEq, Repr

/-- A register file with one entry per symbol (10_state.md R34, R37). -/
abbrev RegFile (α : Type) := Vector α 256

end Sys2Proof
end

