-- ==== Sys2Proof/Syntax.lean ====
section
/-! DEFINITION. The HTB command set, version 1: one constructor per row of spec/opcode_table.json (30_encoding.md R67). -/

namespace Sys2Proof

/-- A command with its operands. `sym` is the SYM field and `w` the SEL field of the word (30_encoding.md R65, R66). -/
inductive Instr where
  /-- CLR: clear the session (40_control.md R76). -/
  | clr
  /-- LDF sym: load one frequency (40_control.md R77). -/
  | ldf (sym : Symbol)
  /-- BLD: build the tree from FREQ (41_tree_builder.md R83). -/
  | bld
  /-- MAP: derive the encode and decode maps (42_code_map.md R87). -/
  | map
  /-- SER: write the tree to the stream (43_tree_serializer.md R92). -/
  | ser
  /-- ENC: encode the input and finish the stream (44_encoder.md R98). -/
  | enc
  /-- DSR: read a tree from the stream (43_tree_serializer.md R94). -/
  | dsr
  /-- DEC: decode the payload (45_decoder.md R101). -/
  | dec
  /-- RDL sym: read a code length (40_control.md R78). -/
  | rdl (sym : Symbol)
  /-- RDC sym, w: read 64 bits of a code; the whole SEL field stands here, and only 0 to 3 are well formed
  (40_control.md R79; 30_encoding.md R66). -/
  | rdc (sym : Symbol) (w : BitVec 8)
deriving DecidableEq, Repr

end Sys2Proof
end

