-- ==== Sys2Proof/WellFormed.lean ====
section
/-! DEFINITION. Which terms of `Instr` are commands of the block: the operand ranges of 30_encoding.md R66. -/

namespace Sys2Proof

/-- RDC's word index is 0 to 3 (30_encoding.md R66, R68); every other operand is a whole byte field, so any value will do. -/
def Instr.wellFormed : Instr → Bool
  | .clr => true
  | .ldf _ => true
  | .bld => true
  | .map => true
  | .ser => true
  | .enc => true
  | .dsr => true
  | .dec => true
  | .rdl _ => true
  | .rdc _ w => decide (w ≤ 3)

end Sys2Proof
end

