-- ==== Sys2Proof/Decode.lean ====
section
/-! DEFINITION. The decoder, total on every 32-bit word and rejecting by name (30_encoding.md R65 to R68, R71), and
after it the encoder (R74). -/

namespace Sys2Proof

/-- Why a word is no command (30_encoding.md R68, R71). The block reports one code, ILLEGAL_COMMAND, for all of them. -/
inductive IllegalWord where
  /-- OPC is 0x00 or 0x0B to 0xFF. -/
  | reservedOpcode
  /-- RSV, bits 31:24, is not 0. -/
  | reservedField
  /-- SYM is not 0 in a command that has no symbol operand. -/
  | unusedSym
  /-- SEL is not 0 in a command that has no selector. -/
  | unusedSel
  /-- An RDC whose SEL is above 3. -/
  | selTooLarge
deriving DecidableEq, Repr

/-- What decoding answers: a command, or a word rejected by name. -/
inductive Decoded where
  | instr (i : Instr)
  | illegal (r : IllegalWord)
deriving DecidableEq, Repr

/-- OPC, bits 7:0 (30_encoding.md R65). -/
def opcField (w : Word) : BitVec 8 := w.extractLsb' 0 8

/-- SYM, bits 15:8 (30_encoding.md R65). -/
def symField (w : Word) : BitVec 8 := w.extractLsb' 8 8

/-- SEL, bits 23:16 (30_encoding.md R65). -/
def selField (w : Word) : BitVec 8 := w.extractLsb' 16 8

/-- RSV, bits 31:24 (30_encoding.md R65). -/
def rsvField (w : Word) : BitVec 8 := w.extractLsb' 24 8

/-- A command without operands: SYM and SEL must be 0 (30_encoding.md R65). -/
def decodePlain (w : Word) (i : Instr) : Decoded :=
  if symField w ≠ 0 then .illegal .unusedSym
  else if selField w ≠ 0 then .illegal .unusedSel
  else .instr i

/-- A command with a symbol operand: SEL must be 0 (30_encoding.md R65). -/
def decodeSym (w : Word) (f : Symbol → Instr) : Decoded :=
  if selField w ≠ 0 then .illegal .unusedSel else .instr (f (symField w))

/-- A command with a symbol and a selector: SEL must be at most 3 (30_encoding.md R66, R68). -/
def decodeSymSel (w : Word) (f : Symbol → BitVec 8 → Instr) : Decoded :=
  if selField w ≤ 3 then .instr (f (symField w) (selField w)) else .illegal .selTooLarge

/-- The decoder: the opcode map of 30_encoding.md R67 with the reserved encodings of R71. -/
def decode (w : Word) : Decoded :=
  if rsvField w ≠ 0 then .illegal .reservedField
  else match (opcField w).toNat with
    | 0x01 => decodePlain w .clr
    | 0x02 => decodeSym w .ldf
    | 0x03 => decodePlain w .bld
    | 0x04 => decodePlain w .map
    | 0x05 => decodePlain w .ser
    | 0x06 => decodePlain w .enc
    | 0x07 => decodePlain w .dsr
    | 0x08 => decodePlain w .dec
    | 0x09 => decodeSym w .rdl
    | 0x0A => decodeSymSel w .rdc
    | _ => .illegal .reservedOpcode

/-- The command word that a table row's bits stand for: bit 0 of `w` is bit 0 of the word, bits above `nbits` are 0;
a word wider than CMD is no word of this hardware (30_encoding.md R72). -/
def tableWord (nbits w : Nat) : Option Word :=
  if w % 2 ^ nbits < 2 ^ 32 then some (BitVec.ofNat 32 (w % 2 ^ nbits)) else none

/-- The command the decoder reads from a word numbered as spec/opcode_table.json numbers it. -/
def decodeTableWord (nbits w : Nat) : Option Instr :=
  match tableWord nbits w with
  | none => none
  | some v =>
    match decode v with
    | .instr i => some i
    | .illegal _ => none

/-- OPC | sym << 8 | w << 16, with RSV = 0 (30_encoding.md R65, R74). -/
def assemble (opc sym sel : BitVec 8) : Word := (0 : BitVec 8) ++ sel ++ sym ++ opc

/-- The encoder, from the opcode map of 30_encoding.md R67. -/
def encode : Instr → Word
  | .clr => assemble 0x01 0 0
  | .ldf sym => assemble 0x02 sym 0
  | .bld => assemble 0x03 0 0
  | .map => assemble 0x04 0 0
  | .ser => assemble 0x05 0 0
  | .enc => assemble 0x06 0 0
  | .dsr => assemble 0x07 0 0
  | .dec => assemble 0x08 0 0
  | .rdl sym => assemble 0x09 sym 0
  | .rdc sym w => assemble 0x0A sym w

end Sys2Proof
end

