-- ==== Sys2Proof/Config.lean ====
section
/-! DEFINITION. What an implementation fixes (the parameters of 00_scope.md R8) and the free values of the spec
(93_implementation_defined.md section 2). Every constant is opaque: no proof can see its value. -/

namespace Sys2Proof.Config

/-- The parameter IN_CAP less one, so that 1 <= IN_CAP <= 2^56 holds of every value (00_scope.md R8; log 2). -/
opaque inCapMinusOne : BitVec 56

/-- The parameter OUT_CAP less one, so that 1 <= OUT_CAP <= 2^56 holds of every value (00_scope.md R8; log 2). -/
opaque outCapMinusOne : BitVec 56

/-- IN_CAP, the capacity of IN_MEM in bytes (00_scope.md R8). -/
def inCap : Reg := inCapMinusOne.setWidth 64 + 1

/-- OUT_CAP, the capacity of OUT_MEM in bytes (00_scope.md R8). -/
def outCap : Reg := outCapMinusOne.setWidth 64 + 1

/-- The base addresses the platform chooses; no rule depends on them (20_memory.md R58; U7; log 9). -/
opaque regBase : Nat
@[inherit_doc regBase] opaque inBase : Nat
@[inherit_doc regBase] opaque outBase : Nat

/-- The byte of IN_MEM at an index that nothing has written since draw `d` (10_state.md R41; U1; log 3). -/
opaque freeInByte (d : Nat) (i : Nat) : Byte

/-- The byte of OUT_MEM at an index that nothing has stored to since draw `d` (10_state.md R41; 60_exceptions.md R110;
U2, U3; log 3). -/
opaque freeOutByte (d : Nat) (i : Nat) : Byte

/-- TREE after the error that made draw `d`: any value (60_exceptions.md R110; U4; log 4). -/
opaque freeTree (d : Nat) : Option HuffTree

/-- CODE_LEN after the error that made draw `d`: any value (60_exceptions.md R110; U4; log 4). -/
opaque freeCodeLen (d : Nat) : RegFile (BitVec 8)

/-- CODE after the error that made draw `d`: any value (60_exceptions.md R110; U4; log 4). -/
opaque freeCode (d : Nat) : RegFile BitString

/-- DMAP after the error that made draw `d`: any value (60_exceptions.md R110; U4; log 4). -/
opaque freeDmap (d : Nat) : List (BitString × Symbol)

/-- WBUF after the error that made draw `d`: any value (60_exceptions.md R110; U4; log 4). -/
opaque freeWbuf (d : Nat) : BitVec 8

/-- WCNT after the error that made draw `d`: any value (60_exceptions.md R110; U4; log 4). -/
opaque freeWcnt (d : Nat) : BitVec 3

end Sys2Proof.Config
end

