-- ==== Sys2Proof/Machine/State.lean ====
section
/-! DEFINITION. The block's state as plain data (10_state.md R16), the host's pending accesses, the reasons a step can
stop, and the state after reset (10_state.md R41). -/

namespace Sys2Proof.Machine

/-- PHASE, the sequencer state (10_state.md R19). The values 5 and 6 are never held, so they have no constructor. -/
inductive Phase where
  /-- 0: session open, FREQ loadable, no tree. -/
  | idle
  /-- 1: TREE holds a tree; no code map yet. -/
  | treeReady
  /-- 2: CODE_LEN, CODE and DMAP hold the code map of TREE. -/
  | mapReady
  /-- 3: compression only: the tree has been written to the stream. -/
  | treeWritten
  /-- 4: the operation is complete. -/
  | done
  /-- 7: an error ended the operation. -/
  | error
deriving DecidableEq, Repr

/-- DIR, the direction of the session (10_state.md R20). -/
inductive Direction where
  /-- 0: TREE was built by BLD. -/
  | compress
  /-- 1: TREE was read by DSR. -/
  | decompress
deriving DecidableEq, Repr

/-- ECODE, the error codes (60_exceptions.md R109). Codes 9 to 15 are never written, so they have no constructor. -/
inductive ErrorCode where
  | none
  | emptyInput
  | malformedStream
  | truncatedPayload
  | sequence
  | illegalCommand
  | unmappedSymbol
  | outputOverflow
  | lengthRange
deriving DecidableEq, Repr

/-- The width of a host access to REG, in bits (20_memory.md R57). -/
inductive Width where
  | w8
  | w16
  | w32
  | w64
deriving DecidableEq, Repr

/-- One action of the host (20_memory.md R42, R57; 70_reset_and_hazards.md R126). -/
inductive HostOp where
  /-- Read the register at a byte offset of REG. -/
  | regRead (off : BitVec 8) (width : Width)
  /-- Write a value to the register at a byte offset of REG; a 32-bit access drives the low half. -/
  | regWrite (off : BitVec 8) (width : Width) (v : Reg)
  /-- Read a byte of IN. -/
  | inRead (i : Nat)
  /-- Write a byte of IN. -/
  | inWrite (i : Nat) (b : Byte)
  /-- Read a byte of OUT. -/
  | outRead (i : Nat)
  /-- Write a byte of OUT. -/
  | outWrite (i : Nat) (b : Byte)
  /-- Assert the reset input. -/
  | reset
deriving DecidableEq, Repr

/-- Why the machine stops. The block itself takes no trap (60_exceptions.md R108). -/
inductive Fault where
  /-- MAP or SER met TREE = NONE in a PHASE in which the spec says TREE holds a tree; raised by `execMap` and `execSer`
  only. No run reaches it, so it is safe (log 6). -/
  | treeMissing
deriving DecidableEq, Repr

/-- Why the model gives a step no meaning. Every one but `notModelled` is a broken host duty, which the spec tells the
model to refuse (70_reset_and_hazards.md R125); all are safe (log 7). -/
inductive Refusal where
  /-- A command that has no meaning yet; raised by `exec` only. Safe. -/
  | notModelled (mnemonic : String)
  /-- Any access but a STATUS read while BUSY = 1 (R124, H1); raised by `hostStep`. Safe. -/
  | accessWhileBusy
  /-- A register access at an offset that is no multiple of 8 (10_state.md R24, H2); raised by `hostStep`. Safe. -/
  | registerMisaligned
  /-- A register access at another width than the register's (10_state.md R24, H2); raised by `hostStep`. Safe. -/
  | registerWidth
  /-- An IN access at an index >= IN_CAP (20_memory.md R44, H3); raised by `hostStep`. Safe. -/
  | inIndex
  /-- An OUT access at an index >= OUT_CAP (20_memory.md R45, H3); raised by `hostStep`. Safe. -/
  | outIndex
deriving DecidableEq, Repr

/-- The bytes of a buffer that something has written, addresses strictly rising (`Memory.wf`). An unlisted address has no
value of its own: a read of it answers the buffer's free value (log 3). -/
abbrev Memory := List Host.Cell

/-- The state of the block (10_state.md R16) and of the host that drives it (00_scope.md R13). -/
structure State where
  /-- ARG (R27). -/
  arg : Reg
  /-- RESULT (R28). -/
  result : Reg
  /-- IN_LEN (R29). -/
  inLen : Reg
  /-- OUT_LEN (R30). -/
  outLen : Reg
  /-- N_BITS (R31). -/
  nBits : Reg
  /-- RPOS (R32). -/
  rpos : Reg
  /-- IN_CAP, constant (R33). -/
  inCap : Reg
  /-- OUT_CAP, constant (R33). -/
  outCap : Reg
  /-- BUSY (R21). -/
  busy : Bool
  /-- ECODE (R22). -/
  ecode : ErrorCode
  /-- PHASE (R19). -/
  phase : Phase
  /-- DIR (R20). -/
  dir : Direction
  /-- FREQ[0..255] (R34). -/
  freq : RegFile Reg
  /-- TREE (R35). -/
  tree : Option HuffTree
  /-- CODE_LEN[0..255] (R37). -/
  codeLen : RegFile (BitVec 8)
  /-- CODE[0..255] (R37). -/
  code : RegFile BitString
  /-- DMAP (R38): its entries, one per key. -/
  dmap : List (BitString × Symbol)
  /-- WBUF (R39). -/
  wbuf : BitVec 8
  /-- WCNT (R39). -/
  wcnt : BitVec 3
  /-- IN_MEM (20_memory.md R44). -/
  inMem : Memory
  /-- OUT_MEM (20_memory.md R45). -/
  outMem : Memory
  /-- The model's own: the draw that IN_MEM's unwritten bytes belong to (log 3). -/
  inDraw : Nat
  /-- The model's own: the draw that OUT_MEM's unwritten bytes and the state after an error belong to (log 3, log 4). -/
  outDraw : Nat
  /-- The model's own: what the host still does, oldest first (log 1). -/
  host : List HostOp
  /-- The model's own: what the host's last read returned (log 1). -/
  hostData : Option Reg
deriving DecidableEq, Repr

/-- The outcome of running a command or a step. -/
abbrev Result := Host.Outcome State Fault Refusal

/-- The machine right after reset (10_state.md R41; 70_reset_and_hazards.md R122). -/
def State.reset : State where
  arg := 0
  result := 0
  inLen := 0
  outLen := 0
  nBits := 0
  rpos := 0
  inCap := Config.inCap
  outCap := Config.outCap
  busy := false
  ecode := .none
  phase := .idle
  dir := .compress
  freq := Vector.replicate 256 0
  tree := none
  codeLen := Vector.replicate 256 0
  code := Vector.replicate 256 []
  dmap := []
  wbuf := 0
  wcnt := 0
  inMem := []
  outMem := []
  inDraw := 0
  outDraw := 0
  host := []
  hostData := none

end Sys2Proof.Machine
end

