-- ==== Sys2Proof/Machine/Ops.lean ====
section
/-! DEFINITION. The named operations over register files, memory and bit streams (00_scope.md R11; 20_memory.md R49 to
R55), and the error entry with the return from it (60_exceptions.md R110, R113). -/

namespace Sys2Proof.Machine

/-- A running command: it ends with a state, or raises an error code in the state it had then (00_scope.md R11). -/
abbrev Cmd (α : Type) := EStateM ErrorCode State α

/-! ## Register files and the decode map -/

/-- Entry `s` of a register file. -/
def regGet {α : Type} (f : RegFile α) (s : Symbol) : α := f[s.toNat]'s.isLt

/-- A register file with entry `s` replaced. -/
def regSet {α : Type} (f : RegFile α) (s : Symbol) (a : α) : RegFile α := Vector.set f s.toNat a s.isLt

/-- `DMAP[k]`, if `k` is a key (10_state.md R38). -/
def dmapFind : List (BitString × Symbol) → BitString → Option Symbol
  | [], _ => none
  | (k, v) :: m, c => if k = c then some v else dmapFind m c

/-- `DMAP[k] <- v`: the key's entry is replaced, or a new one added, so that keys stay distinct (10_state.md R38). -/
def dmapSet : List (BitString × Symbol) → BitString → Symbol → List (BitString × Symbol)
  | [], c, s => [(c, s)]
  | (k, v) :: m, c, s => if k = c then (k, s) :: m else (k, v) :: dmapSet m c s

/-! ## Memory -/

/-- The canonical form of a buffer: addresses strictly rising. An unlisted address reads as `none`, so no entry equals
what an unlisted address reads as (log 3). -/
abbrev Memory.wf (m : Memory) : Prop := m.Pairwise (fun x y => x.1 < y.1)

/-- The byte written at an address, if any. -/
def memRead : Memory → Nat → Option Byte
  | [], _ => none
  | (k, v) :: m, a => if k = a then some v else memRead m a

/-- Write a byte, keeping the addresses rising. -/
def memWrite : Memory → Nat → Byte → Memory
  | [], a, b => [(a, b)]
  | (k, v) :: m, a, b =>
    if a < k then (a, b) :: (k, v) :: m
    else if a = k then (a, b) :: m
    else (k, v) :: memWrite m a b

/-- `InByte(i)` (20_memory.md R49): the byte last written at IN_MEM[i], or the free value of an unwritten one (R44). -/
def inByte (s : State) (i : Nat) : Byte := (memRead s.inMem i).getD (Config.freeInByte s.inDraw i)

/-- OUT_MEM[i]: the byte stored there, or the free value of an undefined one (20_memory.md R45). -/
def outByte (s : State) (i : Nat) : Byte := (memRead s.outMem i).getD (Config.freeOutByte s.outDraw i)

/-- The state in which StoreByte has stored `v` (20_memory.md R50). -/
def State.putOut (s : State) (v : Byte) : State :=
  { s with outMem := memWrite s.outMem s.outLen.toNat v, outLen := s.outLen + 1 }

/-- `StoreByte(v)` (20_memory.md R50). -/
def storeByte (v : Byte) : Cmd Unit := fun s =>
  if s.outLen = s.outCap then .error .outputOverflow s else .ok () (s.putOut v)

/-! ## The bit writer -/

/-- The state with the accumulator at `buf` and `cnt` (10_state.md R39). -/
def State.withWriter (s : State) (buf : BitVec 8) (cnt : BitVec 3) : State := { s with wbuf := buf, wcnt := cnt }

/-- WBUF with one more bit shifted in at its low end (20_memory.md R51). -/
def shiftIn (buf : BitVec 8) (b : Bool) : BitVec 8 := (buf <<< 1) ||| (BitVec.ofBool b).setWidth 8

/-- `WriteBit(b)` (20_memory.md R51); WCNT + 1 is computed wide enough to reach 8. -/
def writeBit (b : Bool) : Cmd Unit := fun s =>
  if s.wcnt.toNat + 1 = 8 then storeByte (shiftIn s.wbuf b) (s.withWriter 0 0)
  else .ok () (s.withWriter (shiftIn s.wbuf b) (s.wcnt + 1))

/-- Writes a bit string, its first bit first (20_memory.md R47). -/
def writeString : BitString → Cmd Unit
  | [] => pure ()
  | b :: bs => do
    writeBit b
    writeString bs

/-- The bits of an n-bit value, most significant first (20_memory.md R47). -/
def msbFirst {n : Nat} (v : BitVec n) : BitString := (List.range n).map fun k => v.getLsbD (n - 1 - k)

/-- `WriteBits(n, v)` (20_memory.md R52). -/
def writeBits {n : Nat} (v : BitVec n) : Cmd Unit := writeString (msbFirst v)

/-- `Flush()` (20_memory.md R53). -/
def flush : Cmd Unit := fun s =>
  if 0 < s.wcnt.toNat then storeByte (s.wbuf <<< (8 - s.wcnt.toNat)) (s.withWriter 0 0) else .ok () s

/-! ## The bit reader -/

/-- Stream bit `p` of IN_MEM: bit 7 - p mod 8 of byte p / 8 (20_memory.md R46). -/
def inBit (s : State) (p : Nat) : Bool := (inByte s (p / 8)).getLsbD (7 - p % 8)

/-- The state with the bit reader one bit further on (20_memory.md R54). -/
def State.stepReader (s : State) : State := { s with rpos := s.rpos + 1 }

/-- `ReadBit(e)` (20_memory.md R54). -/
def readBit (e : ErrorCode) : Cmd Bool := fun s =>
  if 8 * s.inLen.toNat ≤ s.rpos.toNat then .error e s else .ok (inBit s s.rpos.toNat) s.stepReader

/-- Reads `n` more bits into `v`, most significant first (the loop of 20_memory.md R55). -/
def readBitsInto : Nat → ErrorCode → Nat → Cmd Nat
  | 0, _, v => pure v
  | n + 1, e, v => do
    let b ← readBit e
    readBitsInto n e (2 * v + b.toNat)

/-- `ReadBits(n, e)` (20_memory.md R55). -/
def readBits (n : Nat) (e : ErrorCode) : Cmd (BitVec n) := do
  let v ← readBitsInto n e 0
  pure (BitVec.ofNat n v)

/-! ## Errors: the entry and the return -/

/-- `ErrorEntry(E)` (60_exceptions.md R110): ECODE, PHASE and OUT_LEN are written, every byte of OUT_MEM becomes
undefined, and so does the state the host cannot see until CLR clears it (log 4). -/
def errorEntry (e : ErrorCode) (s : State) : State :=
  { s with
    ecode := e
    phase := .error
    outLen := 0
    outMem := []
    outDraw := s.outDraw + 1
    tree := Config.freeTree (s.outDraw + 1)
    codeLen := Config.freeCodeLen (s.outDraw + 1)
    code := Config.freeCode (s.outDraw + 1)
    dmap := Config.freeDmap (s.outDraw + 1)
    wbuf := Config.freeWbuf (s.outDraw + 1)
    wcnt := Config.freeWcnt (s.outDraw + 1) }

/-- `Clr()` (40_control.md R76), which is also the return from an error (60_exceptions.md R113). -/
def clearSession (s : State) : State :=
  { s with
    ecode := .none
    phase := .idle
    dir := .compress
    result := 0
    outLen := 0
    nBits := 0
    rpos := 0
    freq := Vector.replicate 256 0
    codeLen := Vector.replicate 256 0
    code := Vector.replicate 256 []
    tree := none
    dmap := []
    wbuf := 0
    wcnt := 0 }

/-- Runs a command: what it leaves, or the error entry of what it raises (60_exceptions.md R110). -/
def runCmd (c : Cmd Unit) (s : State) : Result :=
  match c s with
  | .ok _ t => .next t
  | .error e t => .next (errorEntry e t)

/-- What Dispatch does with a decoded command other than CLR (30_encoding.md R70): in ERROR it is ignored, outside its
legal states it raises SEQUENCE, else it runs. -/
def dispatch (legal : State → Bool) (run : State → Result) (s : State) : Result :=
  if s.phase = .error then .next s
  else if legal s then run s
  else .next (errorEntry .sequence s)

end Sys2Proof.Machine
end

