-- ==== Sys2Proof/Machine/Flags.lean ====
section
/-! DEFINITION. STATUS and the fields it shows (10_state.md R19 to R22, R26), and the states in which each command is legal
(30_encoding.md R69). -/

namespace Sys2Proof.Machine

/-- The value of PHASE (10_state.md R19). -/
def phaseBits : Phase → BitVec 3
  | .idle => 0
  | .treeReady => 1
  | .mapReady => 2
  | .treeWritten => 3
  | .done => 4
  | .error => 7

/-- The value of DIR (10_state.md R20). -/
def dirBit : Direction → BitVec 1
  | .compress => 0
  | .decompress => 1

/-- The value of ECODE (60_exceptions.md R109). -/
def ecodeBits : ErrorCode → BitVec 4
  | .none => 0
  | .emptyInput => 1
  | .malformedStream => 2
  | .truncatedPayload => 3
  | .sequence => 4
  | .illegalCommand => 5
  | .unmappedSymbol => 6
  | .outputOverflow => 7
  | .lengthRange => 8

/-- STATUS.ERR: 1 if and only if PHASE = 7 (10_state.md R26). -/
def errFlag (s : State) : Bool := decide (s.phase = .error)

/-- STATUS (10_state.md R26): every bit not named there reads 0. -/
def statusWord (s : State) : BitVec 32 :=
  (BitVec.ofBool s.busy).setWidth 32
    ||| ((BitVec.ofBool (errFlag s)).setWidth 32 <<< 1)
    ||| ((ecodeBits s.ecode).setWidth 32 <<< 4)
    ||| ((phaseBits s.phase).setWidth 32 <<< 8)
    ||| ((dirBit s.dir).setWidth 32 <<< 12)

/-- LDF, BLD and DSR: PHASE = IDLE (30_encoding.md R69). -/
def legalIdle (s : State) : Bool := decide (s.phase = .idle)

/-- MAP: PHASE = TREE_READY, either DIR (30_encoding.md R69). -/
def legalMap (s : State) : Bool := decide (s.phase = .treeReady)

/-- SER: PHASE = MAP_READY and DIR = 0 (30_encoding.md R69). -/
def legalSer (s : State) : Bool := decide (s.phase = .mapReady ∧ s.dir = .compress)

/-- ENC: PHASE = TREE_WRITTEN (30_encoding.md R69). -/
def legalEnc (s : State) : Bool := decide (s.phase = .treeWritten)

/-- DEC: PHASE = MAP_READY and DIR = 1 (30_encoding.md R69). -/
def legalDec (s : State) : Bool := decide (s.phase = .mapReady ∧ s.dir = .decompress)

/-- RDL and RDC: PHASE in MAP_READY, TREE_WRITTEN, DONE (30_encoding.md R69). -/
def legalReadBack (s : State) : Bool := decide (s.phase = .mapReady ∨ s.phase = .treeWritten ∨ s.phase = .done)

end Sys2Proof.Machine
end

