-- ==== Sys2Proof/Machine/Operands.lean ====
section
/-! DEFINITION. The operand forms (30_encoding.md R66): the symbol operand's entry of each register file, the ARG operand,
RDC's 64-bit window of a code, and ENC's input bytes. -/

namespace Sys2Proof.Machine

/-- `FREQ[sym]` (10_state.md R34). -/
def freqOf (s : State) (sym : Symbol) : Reg := regGet s.freq sym

/-- `CODE_LEN[sym]` (10_state.md R37). -/
def codeLenOf (s : State) (sym : Symbol) : BitVec 8 := regGet s.codeLen sym

/-- `CODE[sym]` (10_state.md R37). -/
def codeOf (s : State) (sym : Symbol) : BitString := regGet s.code sym

/-- The state with `FREQ[sym] <- v` (40_control.md R77). -/
def State.setFreq (s : State) (sym : Symbol) (v : Reg) : State := { s with freq := regSet s.freq sym v }

/-- The state with `RESULT <- v` (40_control.md R78, R79). -/
def State.setResult (s : State) (v : Reg) : State := { s with result := v }

/-- The state in which a leaf of symbol `sym` has received the code `c` (42_code_map.md R87). -/
def State.setCode (s : State) (sym : Symbol) (c : BitString) : State :=
  { s with
    code := regSet s.code sym c
    codeLen := regSet s.codeLen sym (BitVec.ofNat 8 c.length)
    dmap := dmapSet s.dmap c sym }

/-- The first `n` bits of a code, placed left-aligned in 256 bits: code bit j at bit 255 - j (40_control.md R79). -/
def leftAligned (c : BitString) : Nat → BitVec 256
  | 0 => 0
  | n + 1 => leftAligned c n ||| (if c.getD n false then BitVec.twoPow 256 (255 - n) else 0)

/-- Word `w` of a 256-bit value, counted from the top: bits 255 - 64 w down to 192 - 64 w (40_control.md R79). -/
def wordFromTop (v : BitVec 256) (w : BitVec 8) : Reg := v.extractLsb' (192 - 64 * w.toNat) 64

/-- What RDC returns for `sym` and `w` (40_control.md R79). -/
def codeWindow (s : State) (sym : Symbol) (w : BitVec 8) : Reg :=
  wordFromTop (leftAligned (codeOf s sym) (codeLenOf s sym).toNat) w

/-- IN_MEM[0..IN_LEN-1], the operand of ENC (20_memory.md R44; 44_encoder.md R98). -/
def inputBytes (s : State) : List Byte := (List.range s.inLen.toNat).map (inByte s)

end Sys2Proof.Machine
end

