-- ==== Sys2Proof/Machine/CodeMap.lean ====
section
/-! DEFINITION. The code map generator: MAP (42_code_map.md). -/

namespace Sys2Proof.Machine

/-- The code of a leaf reached by path `p`: the path, or "1" when the tree is a single leaf (42_code_map.md R87, R88). -/
def leafCode (p : BitString) : BitString := if p = [] then [true] else p

/-- `Walk(t, p)` (42_code_map.md R87): left first, left = 0, right = 1. -/
def walk : HuffTree → BitString → State → State
  | .leaf sym, p, s => s.setCode sym (leafCode p)
  | .node l r, p, s => walk r (p ++ [true]) (walk l (p ++ [false]) s)

/-- The state with no symbol having a code (42_code_map.md R87). -/
def State.clearCodes (s : State) : State :=
  { s with codeLen := Vector.replicate 256 0, code := Vector.replicate 256 [], dmap := [] }

/-- The body of MAP on the tree `t` (42_code_map.md R87). -/
def deriveMaps (t : HuffTree) (s : State) : State :=
  { walk t [] s.clearCodes with phase := .mapReady }

/-- MAP (42_code_map.md R87). TREE = NONE cannot be met in TREE_READY (log 6). -/
def execMap (s : State) : Result :=
  dispatch legalMap (fun s =>
    match s.tree with
    | none => .fault .treeMissing
    | some t => .next (deriveMaps t s)) s

end Sys2Proof.Machine
end

