-- ==== Sys2Proof/Machine/Control.lean ====
section
/-! DEFINITION. Session control and read-back: CLR, LDF, RDL, RDC (40_control.md). -/

namespace Sys2Proof.Machine

/-- CLR (40_control.md R76): legal in every PHASE, ERROR included (30_encoding.md R70). -/
def execClr (s : State) : Result := .next (clearSession s)

/-- LDF sym (40_control.md R77). -/
def execLdf (sym : Symbol) (s : State) : Result :=
  dispatch legalIdle (fun s => .next (s.setFreq sym s.arg)) s

/-- RDL sym (40_control.md R78). -/
def execRdl (sym : Symbol) (s : State) : Result :=
  dispatch legalReadBack (fun s => .next (s.setResult ((codeLenOf s sym).setWidth 64))) s

/-- RDC sym, w (40_control.md R79). A selector above 3 makes the word illegal, and Dispatch reports that before SEQUENCE
(30_encoding.md R68, R70). -/
def execRdc (sym : Symbol) (w : BitVec 8) (s : State) : Result :=
  if w ≤ 3 then dispatch legalReadBack (fun s => .next (s.setResult (codeWindow s sym w))) s
  else dispatch (fun _ => true) (fun s => .next (errorEntry .illegalCommand s)) s

end Sys2Proof.Machine
end

