-- ==== Sys2Proof/Machine/Encoder.lean ====
section
/-! DEFINITION. The bit stream encoder: ENC (44_encoder.md). -/

namespace Sys2Proof.Machine

/-- N: the sum of the code lengths of the input bytes, exact (44_encoder.md R98, R99). -/
def payloadCount (s : State) : Nat := ((inputBytes s).map fun b => (codeLenOf s b).toNat).sum

/-- Some input byte has no code (44_encoder.md R98). -/
def hasUnmapped (s : State) : Bool := (inputBytes s).any fun b => codeLenOf s b = 0

/-- The codes of the input bytes in input order (44_encoder.md R98). -/
def payloadBits (s : State) : BitString := (inputBytes s).flatMap (codeOf s)

/-- The state with the count in N_BITS (44_encoder.md R98). -/
def State.setNBits (s : State) (n : Reg) : State := { s with nBits := n }

/-- The state at the end of ENC and of DEC (44_encoder.md R98; 45_decoder.md R101). -/
def State.finished (s : State) : State := { s with phase := .done }

/-- The writes of ENC: the count, the payload, the flush (44_encoder.md R98). -/
def encWrite (n : Reg) (payload : BitString) : Cmd Unit := do
  writeBits n
  writeString payload
  flush
  modify State.finished

/-- The body of ENC, its checks in the order R98 makes them (44_encoder.md R98). -/
def enc : Cmd Unit := fun s =>
  if s.inCap < s.inLen then .error .lengthRange s
  else if s.inLen = 0 then .error .emptyInput s
  else if hasUnmapped s then .error .unmappedSymbol s
  else encWrite (BitVec.ofNat 64 (payloadCount s)) (payloadBits s) (s.setNBits (BitVec.ofNat 64 (payloadCount s)))

/-- ENC (44_encoder.md R98). -/
def execEnc (s : State) : Result := dispatch legalEnc (runCmd enc) s

end Sys2Proof.Machine
end

