-- ==== Sys2Proof/Machine/Decoder.lean ====
section
/-! DEFINITION. The bit stream decoder: DEC (45_decoder.md). -/

namespace Sys2Proof.Machine

/-- The loop of DEC with `n` bits of the budget left and the candidate `cand`, and the check after it
(45_decoder.md R101, R102). -/
def decLoop : Nat → BitString → Cmd Unit
  | 0, cand => if cand = [] then pure () else throw .malformedStream
  | n + 1, cand => do
    let b ← readBit .truncatedPayload
    let s ← get
    match dmapFind s.dmap (cand ++ [b]) with
    | some sym => do
      storeByte sym
      decLoop n []
    | none => decLoop n (cand ++ [b])

/-- The body of DEC after its length check (45_decoder.md R101). -/
def decStream : Cmd Unit := do
  let n ← readBits 64 .malformedStream
  modify (fun s => s.setNBits n)
  decLoop n.toNat []
  modify State.finished

/-- The body of DEC (45_decoder.md R101). -/
def dec : Cmd Unit := fun s =>
  if s.inCap < s.inLen then .error .lengthRange s else decStream s

/-- DEC (45_decoder.md R101). -/
def execDec (s : State) : Result := dispatch legalDec (runCmd dec) s

end Sys2Proof.Machine
end

