-- ==== Sys2Proof/Machine/Serializer.lean ====
section
/-! DEFINITION. The tree serializer: SER and DSR (43_tree_serializer.md). -/

namespace Sys2Proof.Machine

/-- `SerNode(t)` (43_tree_serializer.md R92). -/
def serNode : HuffTree → Cmd Unit
  | .leaf s => do
    writeBit true
    writeBits s
  | .node l r => do
    writeBit false
    serNode l
    serNode r

/-- The state at the end of SER (43_tree_serializer.md R92). -/
def State.treeWritten (s : State) : State := { s with phase := .treeWritten }

/-- The body of SER on the tree `t` (43_tree_serializer.md R92). -/
def ser (t : HuffTree) : Cmd Unit := do
  serNode t
  modify State.treeWritten

/-- SER (43_tree_serializer.md R92). TREE = NONE cannot be met in MAP_READY (log 6). -/
def execSer (s : State) : Result :=
  dispatch legalSer (fun s =>
    match s.tree with
    | none => .fault .treeMissing
    | some t => runCmd (ser t) s) s

/-- The most internal nodes DSR accepts (43_tree_serializer.md R95). -/
def maxInternal : Nat := 255

/-- `DsrNode()` (43_tree_serializer.md R94): the tree read and the internal nodes read so far. The first argument bounds
the depth of the recursion and the second is the counter I; called with 256 and 0 the bound is never reached, since I
counts at least one node per level (R95; log 8). -/
def dsrNode : Nat → Nat → Cmd (HuffTree × Nat)
  | 0, _ => throw .malformedStream
  | d + 1, i => do
    let b ← readBit .malformedStream
    if b then do
      let s ← readBits 8 .malformedStream
      pure (.leaf s, i)
    else if i = maxInternal then throw .malformedStream
    else do
      let (l, i) ← dsrNode d (i + 1)
      let (r, i) ← dsrNode d i
      pure (.node l r, i)

/-- The state at the end of DSR (43_tree_serializer.md R94). -/
def State.treeRead (s : State) (t : HuffTree) : State :=
  { s with tree := some t, dir := .decompress, phase := .treeReady }

/-- The body of DSR after its length check (43_tree_serializer.md R94). -/
def dsrTree : Cmd Unit := do
  let (t, _) ← dsrNode 256 0
  modify (fun s => s.treeRead t)

/-- The body of DSR (43_tree_serializer.md R94). -/
def dsr : Cmd Unit := fun s =>
  if s.inCap < s.inLen then .error .lengthRange s else dsrTree s

/-- DSR (43_tree_serializer.md R94). -/
def execDsr (s : State) : Result := dispatch legalIdle (runCmd dsr) s

end Sys2Proof.Machine
end

