-- ==== Sys2Proof/Machine/TreeBuilder.lean ====
section
/-! DEFINITION. The tree builder: BLD (41_tree_builder.md). -/

namespace Sys2Proof.Machine

/-- A candidate node of BLD: a tree and its weight (41_tree_builder.md R80). -/
structure Candidate where
  weight : Weight
  tree : HuffTree
deriving DecidableEq, Repr

/-- The lead symbol: the symbol of the leftmost leaf (41_tree_builder.md R81). -/
def leadSymbol : HuffTree → Symbol
  | .leaf s => s
  | .node l _ => leadSymbol l

/-- The key order (weight, lead), lexicographic (41_tree_builder.md R82). -/
def keyLt (a b : Candidate) : Bool :=
  decide (a.weight < b.weight ∨ (a.weight = b.weight ∧ leadSymbol a.tree < leadSymbol b.tree))

/-- Every symbol, ascending (00_scope.md R7). -/
def alphabet : List Symbol := (List.range 256).map (BitVec.ofNat 8)

/-- The symbols present in the table (41_tree_builder.md R83: S). -/
def presentSymbols (s : State) : List Symbol := alphabet.filter fun sym => freqOf s sym ≠ 0

/-- The first candidate set: one leaf per present symbol, with its frequency as weight (41_tree_builder.md R83). -/
def leafCandidates (s : State) : List Candidate :=
  (presentSymbols s).map fun sym => { weight := (freqOf s sym).setWidth 72, tree := .leaf sym }

/-- Removes the candidate of least key from a non-empty set (41_tree_builder.md R83): it, and the rest. -/
def extractLeast (c : Candidate) : List Candidate → Candidate × List Candidate
  | [] => (c, [])
  | d :: ds =>
    if keyLt d c then ((extractLeast d ds).1, c :: (extractLeast d ds).2)
    else ((extractLeast c ds).1, d :: (extractLeast c ds).2)

/-- The merge of two removed candidates: the first is the left child (41_tree_builder.md R83). -/
def mergePair (a b : Candidate) : Candidate := { weight := a.weight + b.weight, tree := .node a.tree b.tree }

/-- The loop of BLD over the non-empty candidate set `c :: cs`: each round takes the two least and puts back their merge.
The first argument counts the rounds left, one less than the candidates (41_tree_builder.md R83). -/
def mergeRounds : Nat → Candidate → List Candidate → Candidate
  | 0, c, _ => c
  | n + 1, c, cs =>
    match extractLeast c cs with
    | (a, []) => a
    | (a, d :: ds) =>
      match extractLeast d ds with
      | (b, rest) => mergeRounds n (mergePair a b) rest

/-- The state at the end of BLD (41_tree_builder.md R83). -/
def State.treeBuilt (s : State) (t : HuffTree) : State :=
  { s with tree := some t, dir := .compress, phase := .treeReady }

/-- The body of BLD (41_tree_builder.md R83). -/
def bld : Cmd Unit := fun s =>
  match leafCandidates s with
  | [] => .error .emptyInput s
  | c :: cs => .ok () (s.treeBuilt (mergeRounds cs.length c cs).tree)

/-- BLD (41_tree_builder.md R83). -/
def execBld (s : State) : Result := dispatch legalIdle (runCmd bld) s

end Sys2Proof.Machine
end

