-- ==== Sys2Proof/Machine/Dispatch.lean ====
section
/-! DEFINITION. The meaning of each command, one arm per constructor of Instr (30_encoding.md R67). -/

namespace Sys2Proof.Machine

/-- What the block does with a decoded command (30_encoding.md R70). -/
def exec (i : Instr) (s : State) : Host.Outcome State Fault Refusal :=
  match i with
  | .clr => Sys2Proof.Machine.execClr s
  | .ldf sym => Sys2Proof.Machine.execLdf sym s
  | .bld => Sys2Proof.Machine.execBld s
  | .map => Sys2Proof.Machine.execMap s
  | .ser => Sys2Proof.Machine.execSer s
  | .enc => Sys2Proof.Machine.execEnc s
  | .dsr => Sys2Proof.Machine.execDsr s
  | .dec => Sys2Proof.Machine.execDec s
  | .rdl sym => Sys2Proof.Machine.execRdl sym s
  | .rdc sym w => Sys2Proof.Machine.execRdc sym w s

end Sys2Proof.Machine
end

