-- ==== Sys2Proof/Machine/HostAccess.lean ====
section
/-! DEFINITION. The host interface: the registers of REG (10_state.md R23 to R33), the buffers IN and OUT (20_memory.md
R42 to R45, R57), the reset input (70_reset_and_hazards.md R122) and the host's duties (R124, R125). -/

namespace Sys2Proof.Machine

/-- The registers the host reaches (10_state.md R23). -/
inductive Register where
  | cmd
  | status
  | arg
  | result
  | inLen
  | outLen
  | nBits
  | rpos
  | inCap
  | outCap
deriving DecidableEq, Repr

/-- The register at a byte offset of REG, if there is one (10_state.md R23). -/
def registerAt (off : BitVec 8) : Option Register :=
  match off.toNat with
  | 0x00 => some .cmd
  | 0x08 => some .status
  | 0x10 => some .arg
  | 0x18 => some .result
  | 0x20 => some .inLen
  | 0x28 => some .outLen
  | 0x30 => some .nBits
  | 0x38 => some .rpos
  | 0x40 => some .inCap
  | 0x48 => some .outCap
  | _ => none

/-- CMD and STATUS are 32 bits wide, every other register 64 (10_state.md R23). -/
def registerWidth : Register → Width
  | .cmd => .w32
  | .status => .w32
  | _ => .w64

/-- What a read of a register returns (10_state.md R23 to R33); CMD reads 0. -/
def registerValue (s : State) : Register → Reg
  | .cmd => 0
  | .status => (statusWord s).setWidth 64
  | .arg => s.arg
  | .result => s.result
  | .inLen => s.inLen
  | .outLen => s.outLen
  | .nBits => s.nBits
  | .rpos => s.rpos
  | .inCap => s.inCap
  | .outCap => s.outCap

/-- A register access at an offset that is no multiple of 8, or at another width than the register's, breaks a host duty;
where no register is, 32 and 64 bits will do (10_state.md R24). -/
def registerDuty (off : BitVec 8) (width : Width) : Option Refusal :=
  if off.toNat % 8 ≠ 0 then some .registerMisaligned
  else match registerAt off with
    | some r => if width = registerWidth r then none else some .registerWidth
    | none => if width = .w32 ∨ width = .w64 then none else some .registerWidth

/-- The write of a command word to CMD: Dispatch (30_encoding.md R70). A word that is no command is ignored in ERROR and
raises ILLEGAL_COMMAND elsewhere. -/
def issue (w : Word) (s : State) : Result :=
  match decode w with
  | .instr i => exec i s
  | .illegal _ => dispatch (fun _ => true) (fun s => .next (errorEntry .illegalCommand s)) s

/-- The host's read answers `v` and changes nothing else (20_memory.md R57). -/
def hostRead (v : Reg) (s : State) : Result := .next { s with hostData := some v }

/-- A write to a register (10_state.md R24, R57): CMD runs a command, ARG and IN_LEN store the value, the read-only
registers ignore it. -/
def registerWrite (r : Register) (v : Reg) (s : State) : Result :=
  match r with
  | .cmd => issue (v.setWidth 32) s
  | .arg => .next { s with arg := v }
  | .inLen => .next { s with inLen := v }
  | .status => .next s
  | .result => .next s
  | .outLen => .next s
  | .nBits => .next s
  | .rpos => .next s
  | .inCap => .next s
  | .outCap => .next s

/-- The reset input (70_reset_and_hazards.md R122): every state takes its reset value, the buffers are drawn afresh, the
constants stay, and the host goes on. -/
def hostReset (s : State) : State :=
  { State.reset with
    inCap := s.inCap
    outCap := s.outCap
    inDraw := s.inDraw + 1
    outDraw := s.outDraw + 1
    host := s.host
    hostData := s.hostData }

/-- What the host may do while BUSY = 1: read STATUS, or assert the reset input (70_reset_and_hazards.md R122, R124). -/
def allowedWhileBusy : HostOp → Bool
  | .regRead off width => decide (off = 0x08 ∧ width = .w32)
  | .reset => true
  | _ => false

/-- The host duty an action breaks, if any (70_reset_and_hazards.md R125). -/
def brokenDuty (op : HostOp) (s : State) : Option Refusal :=
  if s.busy = true ∧ allowedWhileBusy op = false then some .accessWhileBusy
  else match op with
    | .regRead off width => registerDuty off width
    | .regWrite off width _ => registerDuty off width
    | .inRead i => if i < s.inCap.toNat then none else some .inIndex
    | .inWrite i _ => if i < s.inCap.toNat then none else some .inIndex
    | .outRead i => if i < s.outCap.toNat then none else some .outIndex
    | .outWrite i _ => if i < s.outCap.toNat then none else some .outIndex
    | .reset => none

/-- What a host action that breaks no duty does (20_memory.md R57; 70_reset_and_hazards.md R126). -/
def hostAct (op : HostOp) (s : State) : Result :=
  match op with
  | .regRead off _ =>
    match registerAt off with
    | some r => hostRead (registerValue s r) s
    | none => hostRead 0 s
  | .regWrite off _ v =>
    match registerAt off with
    | some r => registerWrite r v s
    | none => .next s
  | .inRead i => hostRead ((inByte s i).setWidth 64) s
  | .inWrite i b => .next { s with inMem := memWrite s.inMem i b }
  | .outRead i => hostRead ((outByte s i).setWidth 64) s
  | .outWrite _ _ => .next s
  | .reset => .next (hostReset s)

/-- One host action: refused if it breaks a duty (70_reset_and_hazards.md R125). -/
def hostStep (op : HostOp) (s : State) : Result :=
  match brokenDuty op s with
  | some r => .refused r
  | none => hostAct op s

/-- The host access that issues the command word `w` (10_state.md R25). -/
def cmdWrite (w : Word) : HostOp := .regWrite 0x00 .w32 (w.setWidth 64)

end Sys2Proof.Machine
end

