-- ==== Sys2Proof/Machine/Step.lean ====
section
/-! DEFINITION. One step of the machine: the host's next action, and the block's whole reaction to it (00_scope.md R14). -/

namespace Sys2Proof.Machine

/-- One step: the host's oldest pending action is served. With none pending the block is idle and holds every state
(60_exceptions.md R121; log 1). -/
def step (s : State) : Host.Outcome State Fault Refusal :=
  match s.host with
  | [] => .next s
  | op :: rest => hostStep op { s with host := rest }

/-- The state in which the host's next action is the write to CMD of the word whose low `nbits` bits are `w`'s; BUSY is 0,
as the host has waited for it (70_reset_and_hazards.md R124; log 1). -/
def State.withFetchWord (s : State) (nbits w : Nat) : State :=
  { s with busy := false, host := cmdWrite (BitVec.ofNat 32 (w % 2 ^ nbits)) :: s.host }

end Sys2Proof.Machine
end

