-- ==== Sys2Proof/Safety.lean ====
section
/-! DEFINITION. The terms in which claims are made: the measures of a tree, the bit streams of IN_MEM and OUT_MEM, what an
error leaves, the invariant of a session, and a run that breaks no host duty. -/

namespace Sys2Proof.Machine

/-! ## Trees -/

/-- L, the leaves of a tree (43_tree_serializer.md R93). -/
def leafCount : HuffTree → Nat
  | .leaf _ => 1
  | .node l r => leafCount l + leafCount r

/-- The internal nodes of a tree (43_tree_serializer.md R95). -/
def internalCount : HuffTree → Nat
  | .leaf _ => 0
  | .node l r => internalCount l + internalCount r + 1

/-- T, the bits a tree serializes to: 10 L - 1 (43_tree_serializer.md R93). -/
def treeBits (t : HuffTree) : Nat := 10 * leafCount t - 1

/-- The leaf symbols from left to right (41_tree_builder.md R81: `str`). -/
def leafSymbols : HuffTree → List Symbol
  | .leaf s => [s]
  | .node l r => leafSymbols l ++ leafSymbols r

/-- Every leaf from left to right with its path from the root, below the path `p` (42_code_map.md R87). -/
def leafPaths : HuffTree → BitString → List (BitString × Symbol)
  | .leaf s, p => [(p, s)]
  | .node l r, p => leafPaths l (p ++ [false]) ++ leafPaths r (p ++ [true])

/-- The code of every leaf from left to right: its path, or "1" in a tree that is a single leaf (42_code_map.md R87, R88). -/
def leafCodes : HuffTree → List (BitString × Symbol)
  | .leaf s => [([true], s)]
  | .node l r => leafPaths (.node l r) []

/-- The code the encode map ends with for a symbol: that of its last leaf in left-to-right order, or none
(42_code_map.md R87, R89). -/
def lastCode (t : HuffTree) (sym : Symbol) : BitString :=
  (((leafCodes t).filter fun c => c.2 = sym).getLast?.map Prod.fst).getD []

/-- The node reached from the root along a path: 0 left, 1 right (42_code_map.md R87). -/
def subtreeAt : HuffTree → BitString → Option HuffTree
  | t, [] => some t
  | .leaf _, _ :: _ => none
  | .node l r, b :: p => subtreeAt (if b then r else l) p

/-- The preorder serialization of a tree (43_tree_serializer.md R92). -/
def serBits : HuffTree → BitString
  | .leaf s => true :: msbFirst s
  | .node l r => false :: (serBits l ++ serBits r)

/-- Some tree that, with `i` internal nodes read before it, stays within DSR's limit has a serialization that begins with
these bits (43_tree_serializer.md R94, R95). -/
def BeginsTree (i : Nat) (bits : BitString) : Prop :=
  ∃ t, i + internalCount t ≤ maxInternal ∧ bits <+: serBits t

/-! ## The merges of BLD, with exact weights -/

/-- The key order on nodes with their exact weights (41_tree_builder.md R80, R82). -/
def nodeLt (a b : Nat × HuffTree) : Prop :=
  a.1 < b.1 ∨ (a.1 = b.1 ∧ (leadSymbol a.2).toNat < (leadSymbol b.2).toNat)

/-- `Merges cs t`: merging the two nodes of least key, the first as left child, until one is left, turns the set of nodes
`cs` into the tree `t`, whatever holds the set (41_tree_builder.md R83, R86). -/
inductive Merges : List (Nat × HuffTree) → HuffTree → Prop where
  | one (c : Nat × HuffTree) : Merges [c] c.2
  | merge {cs rest : List (Nat × HuffTree)} {a b : Nat × HuffTree} {t : HuffTree} (hcs : cs.Perm (a :: b :: rest))
      (ha : ∀ x ∈ b :: rest, nodeLt a x) (hb : ∀ x ∈ rest, nodeLt b x)
      (ht : Merges ((a.1 + b.1, .node a.2 b.2) :: rest) t) : Merges cs t

/-- The leaves BLD starts from, one per present symbol with its frequency (41_tree_builder.md R83). -/
def weightedLeaves (s : State) : List (Nat × HuffTree) :=
  (presentSymbols s).map fun sym => ((freqOf s sym).toNat, .leaf sym)

/-! ## Streams -/

/-- The bits written so far: floor(p / 8) bytes stored and p mod 8 bits held (20_memory.md R51). -/
def streamLen (s : State) : Nat := 8 * s.outLen.toNat + s.wcnt.toNat

/-- Bit `p` of the stream written so far: in OUT_MEM (20_memory.md R46), or among the low WCNT bits of WBUF, oldest highest
(R51). -/
def outBit (s : State) (p : Nat) : Bool :=
  if p / 8 < s.outLen.toNat then (outByte s (p / 8)).getLsbD (7 - p % 8)
  else s.wbuf.getLsbD (s.wcnt.toNat - 1 - p % 8)

/-- The stream written so far, the bits still held in WBUF included (20_memory.md R51). -/
def outStream (s : State) : BitString := (List.range (streamLen s)).map (outBit s)

/-- The `n` stream bits of IN_MEM from position `p` (20_memory.md R46). -/
def inStream (s : State) (p n : Nat) : BitString := (List.range n).map fun k => inBit s (p + k)

/-- The pad of a stream of `n` bits: zeros up to a byte boundary (30_encoding.md R73). -/
def padBits (n : Nat) : BitString := List.replicate ((8 - n % 8) % 8) false

/-! ## The decoder as a tree walk -/

/-- DEC's loop as a walk of the tree `root`, the current node being `u` (45_decoder.md R105, two or more leaves): a bit
moves to a child, a leaf stores its symbol and goes back to the root, and the budget must end at the root. -/
def decWalk (root : HuffTree) : Nat → HuffTree → Cmd Unit
  | 0, u => if u = root then pure () else throw .malformedStream
  | n + 1, u => do
    let b ← readBit .truncatedPayload
    match u with
    | .leaf _ => decWalk root n u
    | .node l r =>
      match (if b then r else l) with
      | .leaf v => do
        storeByte v
        decWalk root n root
      | .node l' r' => decWalk root n (.node l' r')

/-- DEC's loop for a tree that is a single leaf of symbol `v`, with the flag "dead" (45_decoder.md R105). -/
def decSingle (v : Symbol) : Nat → Bool → Cmd Unit
  | 0, dead => if dead then throw .malformedStream else pure ()
  | n + 1, dead => do
    let b ← readBit .truncatedPayload
    if dead || !b then decSingle v n true
    else do
      storeByte v
      decSingle v n false

/-- DEC with its loop as the tree walk (45_decoder.md R101, R105). -/
def decByWalk (t : HuffTree) : Cmd Unit := fun s =>
  if s.inCap < s.inLen then .error .lengthRange s
  else (do
    let n ← readBits 64 .malformedStream
    modify (fun s : State => s.setNBits n)
    match t with
    | .leaf v => decSingle v n.toNat false
    | .node l r => decWalk (.node l r) n.toNat (.node l r)
    modify State.finished) s

/-! ## Errors -/

/-- What the error entry leaves of the state `s` in which the error was raised (60_exceptions.md R110): the values the host
can see, and all it cannot change. OUT_MEM and the state that only CLR can bring back to light are left out, as the spec
leaves them undefined. -/
structure EntersError (e : ErrorCode) (s t : State) : Prop where
  ecode : t.ecode = e
  phase : t.phase = .error
  outLen : t.outLen = 0
  rpos : t.rpos = s.rpos
  nBits : t.nBits = s.nBits
  dir : t.dir = s.dir
  arg : t.arg = s.arg
  inLen : t.inLen = s.inLen
  inMem : t.inMem = s.inMem
  inDraw : t.inDraw = s.inDraw
  result : t.result = s.result
  freq : t.freq = s.freq
  inCap : t.inCap = s.inCap
  outCap : t.outCap = s.outCap
  busy : t.busy = s.busy
  host : t.host = s.host
  hostData : t.hostData = s.hostData

/-! ## The legality table -/

/-- The PHASE and DIR in which a command is legal (30_encoding.md R69). -/
def legalTable (i : Instr) (p : Phase) (d : Direction) : Bool :=
  match i with
  | .clr => true
  | .ldf _ => decide (p = .idle)
  | .bld => decide (p = .idle)
  | .dsr => decide (p = .idle)
  | .map => decide (p = .treeReady)
  | .ser => decide (p = .mapReady ∧ d = .compress)
  | .enc => decide (p = .treeWritten)
  | .dec => decide (p = .mapReady ∧ d = .decompress)
  | .rdl _ => decide (p ∈ [.mapReady, .treeWritten, .done])
  | .rdc _ _ => decide (p ∈ [.mapReady, .treeWritten, .done])

/-- The PHASE after a command that succeeds, given the one before it (30_encoding.md R69). -/
def phaseAfter : Instr → Phase → Phase
  | .clr, _ => .idle
  | .ldf _, _ => .idle
  | .bld, _ => .treeReady
  | .dsr, _ => .treeReady
  | .map, _ => .mapReady
  | .ser, _ => .treeWritten
  | .enc, _ => .done
  | .dec, _ => .done
  | .rdl _, p => p
  | .rdc _ _, p => p

/-- The error codes a command's own rule lets it raise (60_exceptions.md R109, R112). -/
def ownErrors : Instr → List ErrorCode
  | .bld => [.emptyInput]
  | .ser => [.outputOverflow]
  | .enc => [.lengthRange, .emptyInput, .unmappedSymbol, .outputOverflow]
  | .dsr => [.lengthRange, .malformedStream]
  | .dec => [.lengthRange, .malformedStream, .truncatedPayload, .outputOverflow]
  | .clr => []
  | .ldf _ => []
  | .map => []
  | .rdl _ => []
  | .rdc _ _ => []

/-! ## The invariant of a session -/

/-- Nothing has been written to the stream (40_control.md R76). -/
def WriterEmpty (s : State) : Prop := s.outLen = 0 ∧ s.wbuf = 0 ∧ s.wcnt = 0

/-- No symbol has a code (10_state.md R37, R38). -/
def NoCodes (s : State) : Prop :=
  s.dmap = [] ∧ ∀ sym, codeOf s sym = [] ∧ codeLenOf s sym = 0

/-- CODE, CODE_LEN and DMAP are the code map of `t` (42_code_map.md R87, R89). -/
def CodesOf (t : HuffTree) (s : State) : Prop :=
  s.dmap = leafCodes t ∧ ∀ sym, codeOf s sym = lastCode t sym ∧ (codeLenOf s sym).toNat = (lastCode t sym).length

/-- TREE holds `t`, its leaves being exactly the symbols present in FREQ, each once (41_tree_builder.md R85). -/
def BuiltTree (t : HuffTree) (s : State) : Prop :=
  s.tree = some t ∧ (leafSymbols t).Nodup ∧ ∀ sym, sym ∈ leafSymbols t ↔ freqOf s sym ≠ 0

/-- TREE holds `t`, of at most 255 internal nodes, and the reader stands `n` bits after its end (43_tree_serializer.md R94,
R95). -/
def ReadTree (t : HuffTree) (n : Nat) (s : State) : Prop :=
  s.tree = some t ∧ internalCount t ≤ 255 ∧ s.rpos.toNat = treeBits t + n

/-- OUT_MEM holds the whole stream of a compression whose tree is `t` (30_encoding.md R73; 44_encoder.md R98). -/
def WholeStream (t : HuffTree) (s : State) : Prop :=
  s.wcnt = 0 ∧ ∃ payload : BitString, payload.length = s.nBits.toNat ∧
    outStream s = serBits t ++ msbFirst s.nBits ++ payload ++ padBits (treeBits t + 64 + s.nBits.toNat)

/-- What each PHASE and DIR says of the rest of the state (10_state.md R19, R20). -/
def SessionInv (s : State) : Prop :=
  match s.phase, s.dir with
  | .idle, .compress => s.tree = none ∧ NoCodes s ∧ WriterEmpty s ∧ s.rpos = 0 ∧ s.nBits = 0
  | .idle, .decompress => False
  | .treeReady, .compress => (∃ t, BuiltTree t s) ∧ NoCodes s ∧ WriterEmpty s ∧ s.rpos = 0 ∧ s.nBits = 0
  | .treeReady, .decompress => (∃ t, ReadTree t 0 s) ∧ NoCodes s ∧ WriterEmpty s ∧ s.nBits = 0
  | .mapReady, .compress => (∃ t, BuiltTree t s ∧ CodesOf t s) ∧ WriterEmpty s ∧ s.rpos = 0 ∧ s.nBits = 0
  | .mapReady, .decompress => (∃ t, ReadTree t 0 s ∧ CodesOf t s) ∧ WriterEmpty s ∧ s.nBits = 0
  | .treeWritten, .compress => (∃ t, BuiltTree t s ∧ CodesOf t s ∧ outStream s = serBits t) ∧ s.rpos = 0 ∧ s.nBits = 0
  | .treeWritten, .decompress => False
  | .done, .compress => (∃ t, BuiltTree t s ∧ CodesOf t s ∧ WholeStream t s) ∧ s.rpos = 0
  | .done, .decompress => (∃ t, ReadTree t (64 + s.nBits.toNat) s ∧ CodesOf t s) ∧ s.wbuf = 0 ∧ s.wcnt = 0
  | .error, _ => True

/-- The invariant every step keeps: BUSY is not shown (10_state.md R21), the capacities are in range (00_scope.md R8), the
buffers are in canonical form and inside their capacities, OUT_LEN is at most OUT_CAP (R30), ECODE is NONE outside ERROR
and only there (R22), and the session's state is what its PHASE says. -/
structure Inv (s : State) : Prop where
  busy : s.busy = false
  inCap : 1 ≤ s.inCap.toNat ∧ s.inCap.toNat ≤ 2 ^ 56
  outCap : 1 ≤ s.outCap.toNat ∧ s.outCap.toNat ≤ 2 ^ 56
  inMem : Memory.wf s.inMem ∧ ∀ c ∈ s.inMem, c.1 < s.inCap.toNat
  outMem : Memory.wf s.outMem ∧ ∀ c ∈ s.outMem, c.1 < s.outCap.toNat
  outLen : s.outLen.toNat ≤ s.outCap.toNat
  ecode : s.ecode = .none ↔ s.phase ≠ .error
  session : SessionInv s

/-! ## Runs -/

/-- A run that never stops: every prefix of it ends in a state. A machine whose host keeps its duties runs safely. -/
def Safe (s : State) : Prop := ∀ k, ∃ t, Sys2Proof.core.run k s = .next t

end Sys2Proof.Machine
end

