-- ==== Sys2Proof/Certificates/Slice0/Obligations.lean ====
section
/-! DEFINITION. What is claimed of the machine: one statement per definition, each citing the rules of spec/ it follows. -/

open Sys2Proof Sys2Proof.Machine

/-! ## Encoding and dispatch -/

/-- Decoding the encoding of a well-formed command gives it back, every operand at every value (30_encoding.md R65 to R68,
R74). -/
def Obligations.DecodeEncodeRoundTrip : Prop :=
  ∀ i : Instr, i.wellFormed = true → decode (encode i) = .instr i

/-- A word that decodes to a command is the encoding of it: no two words mean the same, and no bit is dropped
(30_encoding.md R68). -/
def Obligations.EncodeDecodeRoundTrip : Prop :=
  ∀ (w : Word) (i : Instr), decode w = .instr i → i.wellFormed = true ∧ encode i = w

/-- The match and mask rows of 30_encoding.md R68, row by row, with the free bits as the operands, and ILLEGAL_COMMAND for a
word no row matches. -/
def Obligations.DecodeFollowsMatchAndMask : Prop :=
  (∀ w : Word,
    (decode w = .instr .clr ↔ w &&& 0xFFFFFFFF#32 = 0x00000001#32) ∧
    (∀ sym, decode w = .instr (.ldf sym) ↔ w &&& 0xFFFF00FF#32 = 0x00000002#32 ∧ sym = w.extractLsb' 8 8) ∧
    (decode w = .instr .bld ↔ w &&& 0xFFFFFFFF#32 = 0x00000003#32) ∧
    (decode w = .instr .map ↔ w &&& 0xFFFFFFFF#32 = 0x00000004#32) ∧
    (decode w = .instr .ser ↔ w &&& 0xFFFFFFFF#32 = 0x00000005#32) ∧
    (decode w = .instr .enc ↔ w &&& 0xFFFFFFFF#32 = 0x00000006#32) ∧
    (decode w = .instr .dsr ↔ w &&& 0xFFFFFFFF#32 = 0x00000007#32) ∧
    (decode w = .instr .dec ↔ w &&& 0xFFFFFFFF#32 = 0x00000008#32) ∧
    (∀ sym, decode w = .instr (.rdl sym) ↔ w &&& 0xFFFF00FF#32 = 0x00000009#32 ∧ sym = w.extractLsb' 8 8) ∧
    (∀ sym k, decode w = .instr (.rdc sym k) ↔
      w &&& 0xFFFC00FF#32 = 0x0000000A#32 ∧ sym = w.extractLsb' 8 8 ∧ k = (w.extractLsb' 16 2).setWidth 8)) ∧
  (∀ (w : Word) (s : State) (rest : List HostOp), s.busy = false → s.phase ≠ .error → s.host = cmdWrite w :: rest →
    w ∉ [0x00000001#32, 0x00000003#32, 0x00000004#32, 0x00000005#32, 0x00000006#32, 0x00000007#32, 0x00000008#32] →
    w &&& 0xFFFF00FF#32 ≠ 0x00000002#32 → w &&& 0xFFFF00FF#32 ≠ 0x00000009#32 → w &&& 0xFFFC00FF#32 ≠ 0x0000000A#32 →
    ∃ t, step s = .next t ∧ EntersError .illegalCommand { s with host := rest } t)

/-- A few words written out from 30_encoding.md R67, R74 and 95_test_vectors.md section 2.2 (a sanity statement). -/
def Obligations.CommandWordsOfTheSpec : Prop :=
  decode 0x00000001#32 = .instr .clr ∧ decode 0x00006102#32 = .instr (.ldf 0x61) ∧
  decode 0x00000003#32 = .instr .bld ∧ decode 0x00000006#32 = .instr .enc ∧
  decode 0x00006109#32 = .instr (.rdl 0x61) ∧ decode 0x0001620A#32 = .instr (.rdc 0x62 1) ∧
  decode 0x00000000#32 = .illegal .reservedOpcode ∧ decode 0x0000000B#32 = .illegal .reservedOpcode ∧
  decode 0x01000003#32 = .illegal .reservedField ∧ decode 0x00000103#32 = .illegal .unusedSym ∧
  decode 0x0004610A#32 = .illegal .selTooLarge

/-- A word with a reserved OPC, a nonzero RSV, or a nonzero field the command does not use raises ILLEGAL_COMMAND, and in
ERROR it is ignored (30_encoding.md R71). -/
def Obligations.ReservedWordsAreIllegal : Prop :=
  ∀ (w : Word) (s : State) (rest : List HostOp), s.busy = false → s.host = cmdWrite w :: rest →
    (w.extractLsb' 0 8 = 0#8 ∨ 0x0A#8 < w.extractLsb' 0 8 ∨ w.extractLsb' 24 8 ≠ 0#8 ∨
      (w.extractLsb' 0 8 ∉ [0x02#8, 0x09#8, 0x0A#8] ∧ (w.extractLsb' 8 8 ≠ 0#8 ∨ w.extractLsb' 16 8 ≠ 0#8)) ∨
      (w.extractLsb' 0 8 ∈ [0x02#8, 0x09#8] ∧ w.extractLsb' 16 8 ≠ 0#8) ∨
      (w.extractLsb' 0 8 = 0x0A#8 ∧ 3#8 < w.extractLsb' 16 8)) →
    (s.phase ≠ .error → ∃ t, step s = .next t ∧ EntersError .illegalCommand { s with host := rest } t) ∧
    (s.phase = .error → step s = .next { s with host := rest })

/-- A step whose host action writes to CMD a word that decodes to `i` is `exec i` after that action is taken from the list,
and `withFetchWord` makes the very next step run a word (10_state.md R25; 00_scope.md R14). The list of host actions is the
model's own (log 1). -/
def Obligations.StepRunsDecodedCommand : Prop :=
  (∀ (w : Word) (i : Instr) (s : State) (rest : List HostOp), s.busy = false → s.host = cmdWrite w :: rest →
    decode w = .instr i → step s = exec i { s with host := rest }) ∧
  (∀ (w : Word) (i : Instr) (s : State), decode w = .instr i →
    step (s.withFetchWord 32 w.toNat) = exec i { s with busy := false })

/-- Dispatch (30_encoding.md R70): CLR; in ERROR every other word is ignored; ILLEGAL_COMMAND; SEQUENCE; execute. -/
def Obligations.DispatchOrder : Prop :=
  ∀ (w : Word) (s : State) (rest : List HostOp), s.busy = false → s.host = cmdWrite w :: rest →
    (w = 0x00000001#32 → step s = exec .clr { s with host := rest }) ∧
    (w ≠ 0x00000001#32 → s.phase = .error → step s = .next { s with host := rest }) ∧
    (∀ r, s.phase ≠ .error → decode w = .illegal r →
      ∃ t, step s = .next t ∧ EntersError .illegalCommand { s with host := rest } t) ∧
    (∀ i, s.phase ≠ .error → decode w = .instr i → legalTable i s.phase s.dir = false →
      ∃ t, step s = .next t ∧ EntersError .sequence { s with host := rest } t) ∧
    (∀ i, s.phase ≠ .error → decode w = .instr i → legalTable i s.phase s.dir = true →
      step s = exec i { s with host := rest })

/-- The legality table (30_encoding.md R69): outside its states a command raises SEQUENCE, and inside them it never does and
its success leaves the PHASE, and for BLD and DSR the DIR, of the table; in IDLE and TREE_WRITTEN DIR is 0. -/
def Obligations.LegalityTable : Prop :=
  (∀ (i : Instr) (s : State), i.wellFormed = true → s.phase ≠ .error → legalTable i s.phase s.dir = false →
    ∃ t, exec i s = .next t ∧ EntersError .sequence s t) ∧
  (∀ (i : Instr) (s t : State), Inv s → s.phase ≠ .error → legalTable i s.phase s.dir = true → exec i s = .next t →
    t.ecode ≠ .sequence ∧
    (t.phase ≠ .error → t.phase = phaseAfter i s.phase ∧ (i = .bld → t.dir = .compress) ∧
      (i = .dsr → t.dir = .decompress))) ∧
  (∀ s : State, ∃ t, exec .clr s = .next t ∧ t.phase = .idle) ∧
  (∀ s : State, Inv s → s.phase = .idle ∨ s.phase = .treeWritten → s.dir = .compress)

/-- Return from an error is CLR (60_exceptions.md R113): it restores PHASE, ECODE and DIR, nothing else but reset leaves
ERROR, and no error can occur in it. -/
def Obligations.OnlyClrAndResetLeaveError : Prop :=
  (∀ s : State, s.phase = .error →
    ∃ t, exec .clr s = .next t ∧ t.phase = .idle ∧ t.ecode = .none ∧ t.dir = .compress) ∧
  (∀ s t : State, s.phase = .error → step s = .next t → (t.phase ≠ .error ∨ t.ecode ≠ s.ecode) →
    ∃ rest, s.host = .reset :: rest ∨ ∃ v : Reg, s.host = .regWrite 0x00 .w32 v :: rest ∧ v.setWidth 32 = 1#32)

/-- Between the host's actions the block is idle, with every state held (60_exceptions.md R121). That a machine with
nothing pending still steps is the model's choice (DESIGN CHOICE, log 1). -/
def Obligations.IdleMachineHoldsItsState : Prop :=
  ∀ s : State, s.host = [] → step s = .next s

/-! ## Session control and read-back -/

/-- CLR (40_control.md R76): its word, every field it writes, every field it leaves, STATUS after it, that no other command
leaves ERROR, and that in a fresh session it changes only RESULT. -/
def Obligations.ClrClearsTheSession : Prop :=
  (∀ w : Word, decode w = .instr .clr ↔ w = 0x00000001#32) ∧
  (∀ s : State, ∃ t, exec .clr s = .next t ∧
    t.ecode = .none ∧ t.phase = .idle ∧ t.dir = .compress ∧ t.result = 0 ∧ t.outLen = 0 ∧ t.nBits = 0 ∧ t.rpos = 0 ∧
    (∀ sym, freqOf t sym = 0 ∧ codeLenOf t sym = 0 ∧ codeOf t sym = []) ∧
    t.tree = none ∧ t.dmap = [] ∧ t.wbuf = 0 ∧ t.wcnt = 0 ∧
    t.arg = s.arg ∧ t.inLen = s.inLen ∧ t.inMem = s.inMem ∧ t.inDraw = s.inDraw ∧ t.outMem = s.outMem ∧
    t.outDraw = s.outDraw ∧ t.inCap = s.inCap ∧ t.outCap = s.outCap ∧ t.busy = s.busy ∧ t.host = s.host ∧
    t.hostData = s.hostData ∧ (s.busy = false → statusWord t = 0)) ∧
  (∀ (i : Instr) (s t : State), s.phase = .error → exec i s = .next t → t.phase ≠ .error → i = .clr) ∧
  (∀ s : State, Inv s → s.phase = .idle → (∀ sym, freqOf s sym = 0) → exec .clr s = .next { s with result := 0 })

/-- LDF (40_control.md R77): in IDLE it stores ARG in its entry of FREQ and changes nothing else; elsewhere it raises
SEQUENCE. -/
def Obligations.LdfLoadsArg : Prop :=
  ∀ (sym : Symbol),
    (∀ w : Word, decode w = .instr (.ldf sym) ↔ w &&& 0xFFFF00FF#32 = 0x00000002#32 ∧ w.extractLsb' 8 8 = sym) ∧
    (∀ s : State, s.phase = .idle → ∃ t, exec (.ldf sym) s = .next t ∧ freqOf t sym = s.arg ∧
      (∀ other, other ≠ sym → freqOf t other = freqOf s other) ∧ t = { s with freq := t.freq }) ∧
    (∀ s : State, s.phase ≠ .idle → s.phase ≠ .error →
      ∃ t, exec (.ldf sym) s = .next t ∧ EntersError .sequence s t)

/-- RDL (40_control.md R78): in MAP_READY, TREE_WRITTEN and DONE it returns the code length in RESULT and changes nothing
else; of a code map of a tree that is the length of the symbol's last code, and 0 for a symbol without one. Elsewhere it
raises SEQUENCE. -/
def Obligations.RdlReadsTheLength : Prop :=
  ∀ (sym : Symbol),
    (∀ w : Word, decode w = .instr (.rdl sym) ↔ w &&& 0xFFFF00FF#32 = 0x00000009#32 ∧ w.extractLsb' 8 8 = sym) ∧
    (∀ s : State, s.phase = .mapReady ∨ s.phase = .treeWritten ∨ s.phase = .done →
      exec (.rdl sym) s = .next { s with result := (codeLenOf s sym).setWidth 64 } ∧
      (∀ tr, CodesOf tr s → ((codeLenOf s sym).setWidth 64).toNat = (lastCode tr sym).length)) ∧
    (∀ s : State, s.phase ∉ [.mapReady, .treeWritten, .done, .error] →
      ∃ t, exec (.rdl sym) s = .next t ∧ EntersError .sequence s t)

/-- RDC (40_control.md R79): bit k of RESULT is code bit 64 w + 63 - k, or 0 past the end of the code; nothing else
changes. Outside its states the command raises SEQUENCE. What `exec` gives the ill-formed term with a selector above 3, which
the decoder never answers, is the model's choice (DEDUCED, log 10): ILLEGAL_COMMAND, as its word raises. -/
def Obligations.RdcReadsTheWindow : Prop :=
  ∀ (sym : Symbol) (w : BitVec 8) (s : State),
    (∀ v : Word, decode v = .instr (.rdc sym w) ↔
      v &&& 0xFFFC00FF#32 = 0x0000000A#32 ∧ v.extractLsb' 8 8 = sym ∧ (v.extractLsb' 16 2).setWidth 8 = w) ∧
    (w ≤ 3 → s.phase = .mapReady ∨ s.phase = .treeWritten ∨ s.phase = .done →
      ∃ t, exec (.rdc sym w) s = .next t ∧ t = { s with result := t.result } ∧
        ∀ k, k < 64 → t.result.getLsbD k =
          (decide (64 * w.toNat + (63 - k) < (codeLenOf s sym).toNat) &&
            (codeOf s sym).getD (64 * w.toNat + (63 - k)) false)) ∧
    (w ≤ 3 → s.phase ∉ [.mapReady, .treeWritten, .done, .error] →
      ∃ t, exec (.rdc sym w) s = .next t ∧ EntersError .sequence s t) ∧
    (¬ w ≤ 3 → s.phase ≠ .error → ∃ t, exec (.rdc sym w) s = .next t ∧ EntersError .illegalCommand s t)

/-! ## The tree builder -/

/-- BLD (41_tree_builder.md R83): with an empty table EMPTY_INPUT; else the tree that merging the two least nodes gives from
one leaf per present symbol, with exact weights (R80) and however the set of candidates is held (R86); no other tree comes of
those merges. Nothing but TREE, DIR and PHASE changes. Outside IDLE it raises SEQUENCE. -/
def Obligations.BldBuildsTheMergeTree : Prop :=
  (∀ w : Word, decode w = .instr .bld ↔ w = 0x00000003#32) ∧
  (∀ s : State, s.phase ≠ .idle → s.phase ≠ .error → ∃ t, exec .bld s = .next t ∧ EntersError .sequence s t) ∧
  (∀ s : State, s.phase = .idle → (∀ sym, freqOf s sym = 0) →
    ∃ t, exec .bld s = .next t ∧ EntersError .emptyInput s t) ∧
  (∀ s : State, s.phase = .idle → (∃ sym, freqOf s sym ≠ 0) →
    ∃ tr, exec .bld s = .next { s with tree := some tr, dir := .compress, phase := .treeReady } ∧
      ∀ syms : List Symbol, syms.Nodup → (∀ sym, sym ∈ syms ↔ freqOf s sym ≠ 0) →
        Merges (syms.map fun sym => ((freqOf s sym).toNat, .leaf sym)) tr ∧
        ∀ tr', Merges (syms.map fun sym => ((freqOf s sym).toNat, .leaf sym)) tr' → tr' = tr)

/-- The tree BLD builds (41_tree_builder.md R85, items 1 to 3): its leaf symbols are exactly the present symbols, each once,
it has one internal node less than leaves, and no leaf is deeper than that, nor than 255. -/
def Obligations.BuiltTreeShape : Prop :=
  ∀ (s t : State), s.phase = .idle → exec .bld s = .next t → t.phase = .treeReady →
    ∃ tr, t.tree = some tr ∧ (leafSymbols tr).Nodup ∧ (∀ sym, sym ∈ leafSymbols tr ↔ freqOf s sym ≠ 0) ∧
      leafCount tr = (leafSymbols tr).length ∧ internalCount tr + 1 = leafCount tr ∧ internalCount tr ≤ 255 ∧
      ∀ p v, subtreeAt tr p = some (.leaf v) → p.length ≤ internalCount tr

/-- The result of BLD depends on FREQ alone (41_tree_builder.md R85, item 4). -/
def Obligations.BldDependsOnFreqOnly : Prop :=
  ∀ (s s' t t' : State), s.phase = .idle → s'.phase = .idle → s.freq = s'.freq → exec .bld s = .next t →
    exec .bld s' = .next t' → t.phase = t'.phase ∧ (t.phase = .treeReady → t.tree = t'.tree)

/-- One symbol only (41_tree_builder.md R84): BLD gives its leaf, MAP gives it the code "1", SER writes 9 bits. -/
def Obligations.SingleSymbolSession : Prop :=
  ∀ (s : State) (sym : Symbol), Inv s → s.phase = .idle → freqOf s sym ≠ 0 →
    (∀ other, other ≠ sym → freqOf s other = 0) →
    ∃ t u v, exec .bld s = .next t ∧ t.tree = some (.leaf sym) ∧ exec .map t = .next u ∧ codeOf u sym = [true] ∧
      exec .ser u = .next v ∧ v.phase = .treeWritten ∧ outStream v = true :: msbFirst sym ∧ streamLen v = 9

/-! ## The code map -/

/-- MAP (42_code_map.md R87): DMAP has one entry per leaf, CODE and CODE_LEN hold each symbol's code, a symbol that is no leaf
has none, and nothing else but PHASE changes. Outside TREE_READY it raises SEQUENCE. -/
def Obligations.MapDerivesTheMaps : Prop :=
  (∀ w : Word, decode w = .instr .map ↔ w = 0x00000004#32) ∧
  (∀ s : State, s.phase ≠ .treeReady → s.phase ≠ .error → ∃ t, exec .map s = .next t ∧ EntersError .sequence s t) ∧
  (∀ (s : State) (tr : HuffTree), s.phase = .treeReady → s.tree = some tr → internalCount tr ≤ 255 →
    ∃ t, exec .map s = .next t ∧
      t = { s with code := t.code, codeLen := t.codeLen, dmap := t.dmap, phase := .mapReady } ∧
      (∀ p v, dmapFind t.dmap p = some v ↔ (p, v) ∈ leafCodes tr) ∧
      (∀ sym, codeOf t sym = lastCode tr sym ∧ (codeLenOf t sym).toNat = (codeOf t sym).length) ∧
      (∀ sym, sym ∉ leafSymbols tr → codeOf t sym = [] ∧ codeLenOf t sym = 0))

/-- A single leaf gets the code "1" (42_code_map.md R88). -/
def Obligations.SingleLeafCode : Prop :=
  ∀ (s : State) (sym : Symbol), s.phase = .treeReady → s.tree = some (.leaf sym) →
    ∃ t, exec .map s = .next t ∧ codeOf t sym = [true] ∧ codeLenOf t sym = 1 ∧ t.dmap = [([true], sym)]

/-- A symbol that is the symbol of several leaves has the code of the last of them, and every leaf has its entry of DMAP
(42_code_map.md R89). -/
def Obligations.RepeatedSymbolCodes : Prop :=
  ∀ (s t : State) (tr : HuffTree), s.phase = .treeReady → s.tree = some tr → internalCount tr ≤ 255 →
    exec .map s = .next t →
    t.dmap.length = leafCount tr ∧ (∀ c ∈ leafCodes tr, dmapFind t.dmap c.1 = some c.2) ∧
    ∀ before p sym after, leafCodes tr = before ++ (p, sym) :: after → sym ∉ after.map Prod.snd →
      codeOf t sym = p ∧ (codeLenOf t sym).toNat = p.length

/-- After MAP no key of DMAP begins another, keys are complete for a tree with two or more leaves, and for a tree of BLD the
codes of the present symbols are exactly the keys (42_code_map.md R90). That the entries stand in the order of the leaves is
the model's choice: DMAP is a finite map, held as a list (DESIGN CHOICE, log 12). -/
def Obligations.CodesArePrefixFree : Prop :=
  ∀ (s t : State) (tr : HuffTree), Inv s → s.phase = .treeReady → s.tree = some tr → exec .map s = .next t →
    (t.dmap.map Prod.snd = leafSymbols tr) ∧ (t.dmap.map Prod.fst).Nodup ∧
    (∀ a b v w, dmapFind t.dmap a = some v → dmapFind t.dmap b = some w → a <+: b → a = b) ∧
    (2 ≤ leafCount tr → ∀ bits : BitString, 255 ≤ bits.length →
      ∃ a v, dmapFind t.dmap a = some v ∧ a <+: bits ∧
        ∀ b w, dmapFind t.dmap b = some w → b <+: bits → b = a) ∧
    (leafCount tr = 1 → ∀ bits : BitString, (∃ a v, dmapFind t.dmap a = some v ∧ a <+: bits) ↔ bits.head? = some true) ∧
    (s.dir = .compress → ∀ sym a,
      (freqOf s sym ≠ 0 ∧ codeOf t sym = a ↔ dmapFind t.dmap a = some sym) ∧ (freqOf s sym = 0 → codeOf t sym = []))

/-- MAP and SER with TREE = NONE, which no run reaches, stop by name: the model's own choice (log 6). -/
def Obligations.MissingTreeStops : Prop :=
  (∀ s : State, s.phase = .treeReady → s.tree = none → exec .map s = .fault .treeMissing) ∧
  (∀ s : State, s.phase = .mapReady → s.dir = .compress → s.tree = none → exec .ser s = .fault .treeMissing)

/-! ## The tree serializer -/

/-- SER (43_tree_serializer.md R92): the stream is the preorder serialization, OUT_LEN and WCNT count it, only the writer's
state, OUT_MEM below OUT_LEN and PHASE change; OUTPUT_OVERFLOW exactly when OUT_CAP < floor(T / 8). Outside MAP_READY with
DIR 0 it raises SEQUENCE. -/
def Obligations.SerWritesTheTree : Prop :=
  (∀ w : Word, decode w = .instr .ser ↔ w = 0x00000005#32) ∧
  (∀ s : State, ¬ (s.phase = .mapReady ∧ s.dir = .compress) → s.phase ≠ .error →
    ∃ t, exec .ser s = .next t ∧ EntersError .sequence s t) ∧
  (∀ (s : State) (tr : HuffTree), Inv s → s.phase = .mapReady → s.dir = .compress → s.tree = some tr →
    (treeBits tr / 8 ≤ s.outCap.toNat →
      ∃ t, exec .ser s = .next t ∧ outStream t = serBits tr ∧ t.outLen.toNat = treeBits tr / 8 ∧
        t.wcnt.toNat = treeBits tr % 8 ∧
        t = { s with outMem := t.outMem, outLen := t.outLen, wbuf := t.wbuf, wcnt := t.wcnt, phase := .treeWritten } ∧
        ∀ a, t.outLen.toNat ≤ a → outByte t a = outByte s a) ∧
    (s.outCap.toNat < treeBits tr / 8 → ∃ t, exec .ser s = .next t ∧ EntersError .outputOverflow s t))

/-- A tree of L leaves serializes to 10 L - 1 bits (43_tree_serializer.md R93). -/
def Obligations.TreeSize : Prop :=
  ∀ (tr : HuffTree) (s : State), s.outLen.toNat ≤ s.outCap.toNat →
    (streamLen s + (10 * leafCount tr - 1)) / 8 ≤ s.outCap.toNat →
    internalCount tr + 1 = leafCount tr ∧ (serBits tr).length = 10 * leafCount tr - 1 ∧
    ∃ t, serNode tr s = .ok () t ∧ streamLen t = streamLen s + (10 * leafCount tr - 1)

/-- DSR (43_tree_serializer.md R94): LENGTH_RANGE first; a serialized tree of at most 255 internal nodes at the head of the
input is read, whatever its symbols and whatever follows; any other input raises MALFORMED_STREAM, at its end or at the first
bit with which the bits read begin no such tree. Outside IDLE it raises SEQUENCE. -/
def Obligations.DsrReadsTheTree : Prop :=
  (∀ w : Word, decode w = .instr .dsr ↔ w = 0x00000007#32) ∧
  (∀ s : State, s.phase ≠ .idle → s.phase ≠ .error → ∃ t, exec .dsr s = .next t ∧ EntersError .sequence s t) ∧
  (∀ s : State, Inv s → s.phase = .idle →
    (s.inCap < s.inLen → ∃ t, exec .dsr s = .next t ∧ EntersError .lengthRange s t) ∧
    (∀ tr, s.inLen ≤ s.inCap → internalCount tr ≤ 255 → treeBits tr ≤ 8 * s.inLen.toNat →
      inStream s 0 (treeBits tr) = serBits tr →
      exec .dsr s = .next { s with
        tree := some tr, dir := .decompress, phase := .treeReady, rpos := BitVec.ofNat 64 (treeBits tr) }) ∧
    (s.inLen ≤ s.inCap → (∀ tr, internalCount tr ≤ 255 → treeBits tr ≤ 8 * s.inLen.toNat →
        inStream s 0 (treeBits tr) ≠ serBits tr) →
      ∃ p t, exec .dsr s = .next t ∧ p ≤ 8 * s.inLen.toNat ∧
        (∀ q, q < p → BeginsTree 0 (inStream s 0 q)) ∧ (p = 8 * s.inLen.toNat ∨ ¬ BeginsTree 0 (inStream s 0 p)) ∧
        EntersError .malformedStream { s with rpos := BitVec.ofNat 64 p } t))

/-- DSR's limit (43_tree_serializer.md R95): a tree read has at most 255 internal nodes and 256 leaves, and a stream of zeros
is refused when its 256th bit has been read, or at its end if that comes first. -/
def Obligations.DsrLimitsInternalNodes : Prop :=
  (∀ s t : State, Inv s → s.phase = .idle → exec .dsr s = .next t → t.phase = .treeReady →
    ∃ tr, t.tree = some tr ∧ internalCount tr ≤ 255 ∧ leafCount tr ≤ 256 ∧ t.rpos.toNat = treeBits tr) ∧
  (∀ s : State, Inv s → s.phase = .idle → s.inLen ≤ s.inCap →
    (∀ i, i < 32 → i < s.inLen.toNat → inByte s i = 0) →
    ∃ t, exec .dsr s = .next t ∧
      EntersError .malformedStream { s with rpos := BitVec.ofNat 64 (min 256 (8 * s.inLen.toNat)) } t)

/-- Round trip of the tree segment (43_tree_serializer.md R97). -/
def Obligations.TreeSegmentRoundTrip : Prop :=
  ∀ (c c' d : State) (tr : HuffTree), Inv c → c.phase = .mapReady → c.tree = some tr → exec .ser c = .next c' →
    c'.phase = .treeWritten → Inv d → d.phase = .idle → d.inLen ≤ d.inCap → treeBits tr ≤ 8 * d.inLen.toNat →
    (∀ p, p < treeBits tr → inBit d p = outBit c' p) →
    ∃ d', exec .dsr d = .next d' ∧ d'.phase = .treeReady ∧ d'.tree = some tr ∧ d'.rpos.toNat = treeBits tr

/-! ## The encoder -/

/-- ENC's checks, in order, before anything is written (44_encoder.md R98). -/
def Obligations.EncChecksInOrder : Prop :=
  ∀ s : State, s.phase = .treeWritten →
    (s.inCap < s.inLen → ∃ t, exec .enc s = .next t ∧ EntersError .lengthRange s t) ∧
    (s.inLen ≤ s.inCap → s.inLen = 0 → ∃ t, exec .enc s = .next t ∧ EntersError .emptyInput s t) ∧
    (s.inLen ≤ s.inCap → s.inLen ≠ 0 → (∃ i, i < s.inLen.toNat ∧ codeLenOf s (inByte s i) = 0) →
      ∃ t, exec .enc s = .next t ∧ EntersError .unmappedSymbol s t)

/-- ENC (44_encoder.md R98; 30_encoding.md R73): with room for the whole stream it leaves the tree, the count, the codes of
the input bytes and the pad, N_BITS is the payload's length, and only N_BITS, the writer's state, OUT_MEM from the old to the
new OUT_LEN and PHASE change; without room it raises OUTPUT_OVERFLOW with N_BITS written. -/
def Obligations.EncWritesTheStream : Prop :=
  ∀ (s : State) (tr : HuffTree) (payload : BitString), Inv s → s.phase = .treeWritten → s.tree = some tr →
    s.inLen ≤ s.inCap → s.inLen ≠ 0 → (∀ i, i < s.inLen.toNat → codeLenOf s (inByte s i) ≠ 0) →
    payload = (List.range s.inLen.toNat).flatMap (fun i => codeOf s (inByte s i)) →
    ((treeBits tr + 64 + payload.length + 7) / 8 ≤ s.outCap.toNat →
      ∃ t, exec .enc s = .next t ∧ t.phase = .done ∧ t.nBits.toNat = payload.length ∧ t.wcnt = 0 ∧
        t.outLen.toNat = (treeBits tr + 64 + payload.length + 7) / 8 ∧
        outStream t = serBits tr ++ msbFirst t.nBits ++ payload ++ padBits (treeBits tr + 64 + payload.length) ∧
        t = { s with
          nBits := t.nBits, outMem := t.outMem, outLen := t.outLen, wbuf := t.wbuf, wcnt := t.wcnt, phase := .done } ∧
        ∀ a, a < s.outLen.toNat ∨ t.outLen.toNat ≤ a → outByte t a = outByte s a) ∧
    (s.outCap.toNat < (treeBits tr + 64 + payload.length + 7) / 8 →
      ∃ t, exec .enc s = .next t ∧
        EntersError .outputOverflow { s with nBits := BitVec.ofNat 64 payload.length } t)

/-- The payload bit count is exact (44_encoder.md R99): it fits in 64 bits, it is the payload's length, and with the true
counts in FREQ it is the sum of FREQ[s] * CODE_LEN[s]. -/
def Obligations.PayloadCountIsExact : Prop :=
  ∀ s : State, Inv s → s.phase = .treeWritten → s.inLen ≤ s.inCap →
    payloadCount s ≤ 255 * 2 ^ 56 ∧ payloadCount s < 2 ^ 64 ∧ payloadCount s = (payloadBits s).length ∧
    ((∀ sym, (freqOf s sym).toNat = (inputBytes s).count sym) →
      payloadCount s = (alphabet.map fun sym => (freqOf s sym).toNat * (codeLenOf s sym).toNat).sum)

/-! ## The decoder -/

/-- DEC (45_decoder.md R101): a payload of N bits that is a sequence of codes, with room for its symbols, decodes to them;
only RPOS, N_BITS, OUT_LEN, OUT_MEM below it and PHASE change. -/
def Obligations.DecDecodesThePayload : Prop :=
  ∀ (s : State) (tr : HuffTree) (n : Reg) (codes : List (BitString × Symbol)), Inv s → s.phase = .mapReady →
    s.dir = .decompress → s.tree = some tr → s.inLen ≤ s.inCap →
    s.rpos.toNat + 64 + n.toNat ≤ 8 * s.inLen.toNat → inStream s s.rpos.toNat 64 = msbFirst n →
    (∀ c ∈ codes, c ∈ leafCodes tr) → inStream s (s.rpos.toNat + 64) n.toNat = codes.flatMap Prod.fst →
    codes.length ≤ s.outCap.toNat →
    ∃ t, exec .dec s = .next t ∧ t.nBits = n ∧ t.rpos.toNat = s.rpos.toNat + 64 + n.toNat ∧
      t.outLen.toNat = codes.length ∧ (∀ k (h : k < codes.length), outByte t k = codes[k].2) ∧
      t = { s with rpos := t.rpos, nBits := t.nBits, outMem := t.outMem, outLen := t.outLen, phase := .done } ∧
      ∀ a, codes.length ≤ a → outByte t a = outByte s a

/-- DEC's errors before its loop (45_decoder.md R101): LENGTH_RANGE, and MALFORMED_STREAM when the input ends inside the 64
count bits, N_BITS not written. -/
def Obligations.DecEarlyErrors : Prop :=
  ∀ s : State, Inv s → s.phase = .mapReady → s.dir = .decompress →
    (s.inCap < s.inLen → ∃ t, exec .dec s = .next t ∧ EntersError .lengthRange s t) ∧
    (s.inLen ≤ s.inCap → 8 * s.inLen.toNat < s.rpos.toNat + 64 →
      ∃ t, exec .dec s = .next t ∧
        EntersError .malformedStream { s with rpos := BitVec.ofNat 64 (max s.rpos.toNat (8 * s.inLen.toNat)) } t)

/-- DEC's errors in its loop (45_decoder.md R101, R102): after a sequence of codes that fits, a rest that no code begins is
TRUNCATED_PAYLOAD if the input ends there and MALFORMED_STREAM if the budget does; a symbol that does not fit is
OUTPUT_OVERFLOW at its last bit. -/
def Obligations.DecLoopErrors : Prop :=
  ∀ (s : State) (tr : HuffTree) (n : Reg) (codes : List (BitString × Symbol)) (rest : BitString), Inv s →
    s.phase = .mapReady → s.dir = .decompress → s.tree = some tr → s.inLen ≤ s.inCap →
    s.rpos.toNat + 64 + (codes.flatMap Prod.fst).length + rest.length ≤ 8 * s.inLen.toNat →
    inStream s s.rpos.toNat 64 = msbFirst n → (∀ c ∈ codes, c ∈ leafCodes tr) →
    inStream s (s.rpos.toNat + 64) ((codes.flatMap Prod.fst).length + rest.length) = codes.flatMap Prod.fst ++ rest →
    (codes.length ≤ s.outCap.toNat → (∀ c ∈ leafCodes tr, ¬ c.1 <+: rest) →
      s.rpos.toNat + 64 + (codes.flatMap Prod.fst).length + rest.length = 8 * s.inLen.toNat →
      (codes.flatMap Prod.fst).length + rest.length < n.toNat →
      ∃ t, exec .dec s = .next t ∧
        EntersError .truncatedPayload { s with nBits := n, rpos := BitVec.ofNat 64 (8 * s.inLen.toNat) } t) ∧
    (codes.length ≤ s.outCap.toNat → (∀ c ∈ leafCodes tr, ¬ c.1 <+: rest) → rest ≠ [] →
      (codes.flatMap Prod.fst).length + rest.length = n.toNat →
      ∃ t, exec .dec s = .next t ∧
        EntersError .malformedStream
          { s with nBits := n, rpos := BitVec.ofNat 64 (s.rpos.toNat + 64 + n.toNat) } t) ∧
    (codes.length = s.outCap.toNat + 1 → (codes.flatMap Prod.fst).length ≤ n.toNat →
      ∃ t, exec .dec s = .next t ∧
        EntersError .outputOverflow
          { s with nBits := n, rpos := BitVec.ofNat 64 (s.rpos.toNat + 64 + (codes.flatMap Prod.fst).length) } t)

/-- DEC does not read past its budget (45_decoder.md R102): other bits of IN_MEM after the payload change nothing. Where DEC
ends in an error, that the two runs agree also on OUT_MEM, TREE, CODE_LEN, CODE, DMAP, WBUF and WCNT is no rule of the spec,
which leaves these at any value (60_exceptions.md R110; 70_reset_and_hazards.md R133): it rests on the model's choice of free
values that depend on the draw's number alone (DESIGN CHOICE, log 3 and log 4). -/
def Obligations.DecReadsOnlyItsBudget : Prop :=
  ∀ (s t : State) (m : Memory) (n : Reg), Inv s → s.phase = .mapReady → s.dir = .decompress → s.inLen ≤ s.inCap →
    s.rpos.toNat + 64 + n.toNat ≤ 8 * s.inLen.toNat → inStream s s.rpos.toNat 64 = msbFirst n →
    (∀ p, p < s.rpos.toNat + 64 + n.toNat → inBit { s with inMem := m } p = inBit s p) →
    exec .dec s = .next t → exec .dec { s with inMem := m } = .next { t with inMem := m }

/-- A count of 0 is accepted, and no compression produces it (45_decoder.md R104). -/
def Obligations.EmptyPayloadAccepted : Prop :=
  (∀ s : State, Inv s → s.phase = .mapReady → s.dir = .decompress → s.inLen ≤ s.inCap →
    s.rpos.toNat + 64 ≤ 8 * s.inLen.toNat → inStream s s.rpos.toNat 64 = msbFirst (0 : Reg) →
    exec .dec s = .next { s with rpos := s.rpos + 64, nBits := 0, phase := .done } ∧ s.outLen = 0) ∧
  (∀ s t : State, Inv s → s.phase = .treeWritten → exec .enc s = .next t → t.phase = .done → 1 ≤ t.nBits.toNat)

/-- DEC and the walk of the tree are the same (45_decoder.md R105): they store the same symbols, consume the same bits and
raise the same errors at the same bit. That after an error they agree also on OUT_MEM, TREE, CODE_LEN, CODE, DMAP, WBUF and
WCNT is no rule of the spec, which leaves these at any value (60_exceptions.md R110): it rests on the model's choice of free
values that depend on the draw's number alone (DESIGN CHOICE, log 3 and log 4). -/
def Obligations.DecIsATreeWalk : Prop :=
  ∀ (s : State) (tr : HuffTree), Inv s → s.phase = .mapReady → s.dir = .decompress → s.tree = some tr →
    exec .dec s = runCmd (decByWalk tr) s

/-- Round trip (45_decoder.md R106): what a compression of x has left in OUT_MEM decompresses to x. -/
def Obligations.CompressDecompressRoundTrip : Prop :=
  ∀ (c0 c1 c2 c3 c4 d0 : State),
    Inv c0 → c0.phase = .idle → exec .bld c0 = .next c1 → exec .map c1 = .next c2 → exec .ser c2 = .next c3 →
    exec .enc c3 = .next c4 → c4.phase = .done →
    Inv d0 → d0.phase = .idle → d0.inLen = c4.outLen → d0.inLen ≤ d0.inCap →
    (∀ i, i < c4.outLen.toNat → inByte d0 i = outByte c4 i) → c0.inLen ≤ d0.outCap →
    ∃ d1 d2 d3, exec .dsr d0 = .next d1 ∧ exec .map d1 = .next d2 ∧ exec .dec d2 = .next d3 ∧ d3.phase = .done ∧
      d3.outLen = c0.inLen ∧ ∀ i, i < c0.inLen.toNat → outByte d3 i = inByte c0 i

/-! ## The bit writer and the bit reader -/

/-- WriteBit, WriteBits and Flush (20_memory.md R51 to R53): a bit is appended to the stream, a value most significant bit
first, and the flush pads with zeros to a byte; in each of the three a store that does not fit raises OUTPUT_OVERFLOW (R50),
and whether it fits or not nothing but OUT_MEM, OUT_LEN, WBUF and WCNT changes. -/
def Obligations.WriterAppendsToTheStream : Prop :=
  ∀ s : State, s.outLen.toNat ≤ s.outCap.toNat →
    (∀ b, (streamLen s + 1) / 8 ≤ s.outCap.toNat →
      ∃ t, writeBit b s = .ok () t ∧ outStream t = outStream s ++ [b] ∧
        t = { s with outMem := t.outMem, outLen := t.outLen, wbuf := t.wbuf, wcnt := t.wcnt }) ∧
    (∀ b, s.outCap.toNat < (streamLen s + 1) / 8 →
      ∃ t, writeBit b s = .error .outputOverflow t ∧
        t = { s with outMem := t.outMem, outLen := t.outLen, wbuf := t.wbuf, wcnt := t.wcnt }) ∧
    (∀ n (v : BitVec n), (streamLen s + n) / 8 ≤ s.outCap.toNat →
      ∃ t, writeBits v s = .ok () t ∧ outStream t = outStream s ++ msbFirst v ∧
        t = { s with outMem := t.outMem, outLen := t.outLen, wbuf := t.wbuf, wcnt := t.wcnt }) ∧
    (∀ n (v : BitVec n), s.outCap.toNat < (streamLen s + n) / 8 →
      ∃ t, writeBits v s = .error .outputOverflow t ∧
        t = { s with outMem := t.outMem, outLen := t.outLen, wbuf := t.wbuf, wcnt := t.wcnt }) ∧
    ((streamLen s + (padBits (streamLen s)).length) / 8 ≤ s.outCap.toNat →
      ∃ t, flush s = .ok () t ∧ outStream t = outStream s ++ padBits (streamLen s) ∧ t.wcnt = 0 ∧
        t = { s with outMem := t.outMem, outLen := t.outLen, wbuf := t.wbuf, wcnt := t.wcnt }) ∧
    (s.outCap.toNat < (streamLen s + (padBits (streamLen s)).length) / 8 →
      ∃ t, flush s = .error .outputOverflow t ∧
        t = { s with outMem := t.outMem, outLen := t.outLen, wbuf := t.wbuf, wcnt := t.wcnt })

/-- ReadBit and ReadBits (20_memory.md R54, R55): at the end of the input the error the caller names, RPOS unchanged; else the
bit at RPOS, RPOS one further; a value is read most significant bit first, and if the input ends inside it all that is left
is consumed. -/
def Obligations.ReaderReadsTheStream : Prop :=
  ∀ (s : State) (e : ErrorCode),
    (8 * s.inLen.toNat ≤ s.rpos.toNat → readBit e s = .error e s) ∧
    (s.rpos.toNat < 8 * s.inLen.toNat →
      readBit e s = .ok ((inByte s (s.rpos.toNat / 8)).getLsbD (7 - s.rpos.toNat % 8)) { s with rpos := s.rpos + 1 }) ∧
    (∀ n (v : BitVec n), 8 * s.inLen.toNat < 2 ^ 64 → s.rpos.toNat + n ≤ 8 * s.inLen.toNat →
      inStream s s.rpos.toNat n = msbFirst v →
      readBits n e s = .ok v { s with rpos := BitVec.ofNat 64 (s.rpos.toNat + n) }) ∧
    (∀ n, 8 * s.inLen.toNat < 2 ^ 64 → s.rpos.toNat ≤ 8 * s.inLen.toNat → 8 * s.inLen.toNat < s.rpos.toNat + n →
      readBits n e s = .error e { s with rpos := BitVec.ofNat 64 (8 * s.inLen.toNat) })

/-! ## Errors and frames of all commands -/

/-- The error entry (60_exceptions.md R110): a command that ends in ERROR leaves the host-visible values as they were, but for
STATUS, OUT_LEN = 0, and RPOS and N_BITS, which keep what the command wrote; an error code is recorded. -/
def Obligations.ErrorEntryLeaves : Prop :=
  ∀ (i : Instr) (s t : State), Inv s → s.phase ≠ .error → exec i s = .next t → t.phase = .error →
    t.ecode ≠ .none ∧ EntersError t.ecode { s with rpos := t.rpos, nBits := t.nBits } t ∧
    (i ≠ .dsr → i ≠ .dec → t.rpos = s.rpos) ∧ (i ≠ .enc → i ≠ .dec → t.nBits = s.nBits)

/-- Every error a command reports is one its rule names, or one of Dispatch (60_exceptions.md R109, R112). -/
def Obligations.ErrorsAreTheCommandsOwn : Prop :=
  ∀ (i : Instr) (s t : State), Inv s → s.phase ≠ .error → exec i s = .next t → t.phase = .error →
    (legalTable i s.phase s.dir = false ∧ t.ecode = .sequence) ∨
    (i.wellFormed = false ∧ t.ecode = .illegalCommand) ∨
    (legalTable i s.phase s.dir = true ∧ t.ecode ∈ ownErrors i)

/-- No command writes ARG, IN_LEN, IN_MEM, the capacities or BUSY, or the host's own state (10_state.md R27, R29, R33;
20_memory.md R44). -/
def Obligations.CommandsKeepTheHostsInputs : Prop :=
  ∀ (i : Instr) (s t : State), exec i s = .next t →
    t.arg = s.arg ∧ t.inLen = s.inLen ∧ t.inMem = s.inMem ∧ t.inDraw = s.inDraw ∧ t.inCap = s.inCap ∧
    t.outCap = s.outCap ∧ t.busy = s.busy ∧ t.host = s.host ∧ t.hostData = s.hostData

/-- Each register is written by its own commands only (10_state.md R20, R28, R31, R32, R34, R35, R37 to R39); what an error
makes undefined is left out. -/
def Obligations.EachRegisterHasItsWriters : Prop :=
  ∀ (i : Instr) (s t : State), exec i s = .next t → i ≠ .clr →
    ((∀ sym, i ≠ .ldf sym) → t.freq = s.freq) ∧
    ((∀ sym, i ≠ .rdl sym) → (∀ sym w, i ≠ .rdc sym w) → t.result = s.result) ∧
    (i ≠ .enc → i ≠ .dec → t.nBits = s.nBits) ∧
    (i ≠ .dsr → i ≠ .dec → t.rpos = s.rpos) ∧
    (i ≠ .bld → i ≠ .dsr → t.dir = s.dir) ∧
    (t.phase ≠ .error →
      (i ≠ .bld → i ≠ .dsr → t.tree = s.tree) ∧
      (i ≠ .map → t.code = s.code ∧ t.codeLen = s.codeLen ∧ t.dmap = s.dmap) ∧
      (i ≠ .ser → i ≠ .enc → t.wbuf = s.wbuf ∧ t.wcnt = s.wcnt) ∧
      (i ≠ .ser → i ≠ .enc → i ≠ .dec → t.outLen = s.outLen ∧ t.outMem = s.outMem ∧ t.outDraw = s.outDraw))

/-- Only StoreByte writes OUT_MEM (20_memory.md R45, R50): a command that does not end in ERROR changes no byte outside those
from the OUT_LEN before it to the OUT_LEN after it, and one that stores nothing, CLR included, changes none. -/
def Obligations.StoresStayInTheStream : Prop :=
  ∀ (i : Instr) (s t : State), Inv s → exec i s = .next t → t.phase ≠ .error →
    (∀ a, i ≠ .ser → i ≠ .enc → i ≠ .dec → outByte t a = outByte s a) ∧
    (∀ a, i ≠ .clr → a < s.outLen.toNat ∨ t.outLen.toNat ≤ a → outByte t a = outByte s a)

/-- Every command completes: in a state of the invariant it answers a next state, an error being one (60_exceptions.md
R108). -/
def Obligations.CommandsAlwaysComplete : Prop :=
  ∀ (i : Instr) (s : State), Inv s → ∃ t, exec i s = .next t

/-! ## The invariant -/

/-- The reset state meets the invariant (10_state.md R41). -/
def Obligations.ResetMeetsTheInvariant : Prop := Inv State.reset

/-- Every step keeps the invariant (10_state.md R19, R20, R22, R30; 20_memory.md R51; 30_encoding.md R73). -/
def Obligations.StepKeepsTheInvariant : Prop :=
  ∀ s t : State, Inv s → step s = .next t → Inv t

/-- A machine whose host keeps its duties runs for ever: no step of it faults or is refused (60_exceptions.md R108;
70_reset_and_hazards.md R125). That it still steps once the host's list is empty, changing nothing, is the model's choice
(DESIGN CHOICE, log 1). -/
def Obligations.KeptDutiesRunForever : Prop :=
  ∀ s : State, Inv s → (∀ op ∈ s.host, brokenDuty op s = none) → Safe s

/-! ## The host interface -/

/-- STATUS bit by bit (10_state.md R26), with the number of every PHASE (10_state.md R19), of every ECODE
(60_exceptions.md R109) and of each DIR (10_state.md R20) in its field, and the examples of the rule. -/
def Obligations.StatusShowsItsFields : Prop :=
  (∀ (s : State) (k : Nat), (statusWord s).getLsbD k =
    (if k = 0 then s.busy
     else if k = 1 then decide (s.phase = .error)
     else if 4 ≤ k ∧ k < 8 then (ecodeBits s.ecode).getLsbD (k - 4)
     else if 8 ≤ k ∧ k < 11 then (phaseBits s.phase).getLsbD (k - 8)
     else if k = 12 then decide (s.dir = .decompress)
     else false)) ∧
  (∀ (s : State) (v : BitVec 3), (s.phase, v) ∈
    [(.idle, 0), (.treeReady, 1), (.mapReady, 2), (.treeWritten, 3), (.done, 4), (.error, 7)] →
    (statusWord s).extractLsb' 8 3 = v) ∧
  (∀ (s : State) (v : BitVec 4), (s.ecode, v) ∈
    [(.none, 0), (.emptyInput, 1), (.malformedStream, 2), (.truncatedPayload, 3), (.sequence, 4), (.illegalCommand, 5),
      (.unmappedSymbol, 6), (.outputOverflow, 7), (.lengthRange, 8)] →
    (statusWord s).extractLsb' 4 4 = v) ∧
  (∀ (s : State) (v : BitVec 1), (s.dir, v) ∈ [(.compress, 0), (.decompress, 1)] → (statusWord s).extractLsb' 12 1 = v) ∧
  (∀ s : State, s.busy = false → s.ecode = .none → s.phase = .idle → s.dir = .compress → statusWord s = 0x00000000#32) ∧
  (∀ s : State, s.busy = false → s.ecode = .none → s.phase = .done → s.dir = .compress → statusWord s = 0x00000400#32) ∧
  (∀ s : State, s.busy = false → s.ecode = .none → s.phase = .done → s.dir = .decompress →
    statusWord s = 0x00001400#32) ∧
  (∀ s : State, s.busy = false → s.ecode = .truncatedPayload → s.phase = .error → s.dir = .decompress →
    statusWord s = 0x00001732#32)

/-- A register read at its offset and width returns the register, CMD 0, an offset without a register 0, and changes nothing
(10_state.md R23, R24; 20_memory.md R57); the STATUS read is served while BUSY = 1 too (70_reset_and_hazards.md R124).
Where the value read is kept is the model's own (log 1). -/
def Obligations.RegisterReads : Prop :=
  (∀ (s : State) (rest : List HostOp) (off : BitVec 8) (width : Width) (v : Reg), s.busy = false →
    s.host = .regRead off width :: rest →
    ((off, width, v) ∈ [(0x00#8, Width.w32, 0), (0x08#8, .w32, (statusWord s).setWidth 64), (0x10#8, .w64, s.arg),
        (0x18#8, .w64, s.result), (0x20#8, .w64, s.inLen), (0x28#8, .w64, s.outLen), (0x30#8, .w64, s.nBits),
        (0x38#8, .w64, s.rpos), (0x40#8, .w64, s.inCap), (0x48#8, .w64, s.outCap)] ∨
      (0x50 ≤ off.toNat ∧ off.toNat % 8 = 0 ∧ (width = .w32 ∨ width = .w64) ∧ v = 0)) →
    step s = .next { s with host := rest, hostData := some v }) ∧
  (∀ (s : State) (rest : List HostOp), s.host = .regRead 0x08 .w32 :: rest →
    step s = .next { s with host := rest, hostData := some ((statusWord s).setWidth 64) })

/-- A write to ARG or IN_LEN stores the value, and a write to a read-only register or to an offset without one is ignored
(10_state.md R24, R27, R29). -/
def Obligations.RegisterWrites : Prop :=
  ∀ (s : State) (rest : List HostOp) (v : Reg), s.busy = false →
    (s.host = .regWrite 0x10 .w64 v :: rest → step s = .next { s with host := rest, arg := v }) ∧
    (s.host = .regWrite 0x20 .w64 v :: rest → step s = .next { s with host := rest, inLen := v }) ∧
    (s.host = .regWrite 0x08 .w32 v :: rest → step s = .next { s with host := rest }) ∧
    (∀ off, off ∈ [0x18#8, 0x28#8, 0x30#8, 0x38#8, 0x40#8, 0x48#8] → s.host = .regWrite off .w64 v :: rest →
      step s = .next { s with host := rest }) ∧
    (∀ off width, 0x50 ≤ off.toNat → off.toNat % 8 = 0 → width = .w32 ∨ width = .w64 →
      s.host = .regWrite off width v :: rest → step s = .next { s with host := rest })

/-- A byte written to IN is read back and no other byte changes; a write to OUT is ignored; a read of OUT returns its byte
(20_memory.md R44, R45). -/
def Obligations.BufferAccess : Prop :=
  ∀ (s : State) (rest : List HostOp) (a : Nat) (b : Byte), s.busy = false →
    (s.host = .inWrite a b :: rest → a < s.inCap.toNat →
      ∃ t, step s = .next t ∧ t = { s with host := rest, inMem := t.inMem } ∧
        ∀ j, inByte t j = if j = a then b else inByte s j) ∧
    (s.host = .inRead a :: rest → a < s.inCap.toNat →
      step s = .next { s with host := rest, hostData := some ((inByte s a).setWidth 64) }) ∧
    (s.host = .outWrite a b :: rest → a < s.outCap.toNat → step s = .next { s with host := rest }) ∧
    (s.host = .outRead a :: rest → a < s.outCap.toNat →
      step s = .next { s with host := rest, hostData := some ((outByte s a).setWidth 64) })

/-- The reset values (10_state.md R41; 70_reset_and_hazards.md R122), in the reset state and after the reset input, which
works in every state; at power-on the capacities are the parameters. -/
def Obligations.ResetGivesTheResetState : Prop :=
  (State.reset.inCap = Config.inCap ∧ State.reset.outCap = Config.outCap) ∧
  ∀ t : State, (t = State.reset ∨ ∃ (s : State) (rest : List HostOp), s.host = .reset :: rest ∧ step s = .next t) →
    t.busy = false ∧ t.ecode = .none ∧ t.phase = .idle ∧ t.dir = .compress ∧ statusWord t = 0 ∧ t.arg = 0 ∧ t.result = 0 ∧
    t.inLen = 0 ∧ t.outLen = 0 ∧ t.nBits = 0 ∧ t.rpos = 0 ∧ (∀ sym, freqOf t sym = 0) ∧ t.tree = none ∧
    (∀ sym, codeLenOf t sym = 0 ∧ codeOf t sym = []) ∧ t.dmap = [] ∧ t.wbuf = 0 ∧ t.wcnt = 0

/-- The reset input is served in every state and leaves the capacities as they are (70_reset_and_hazards.md R122; 10_state.md
R33). -/
def Obligations.ResetIsAlwaysServed : Prop :=
  ∀ (s : State) (rest : List HostOp), s.host = .reset :: rest →
    ∃ t, step s = .next t ∧ t.inCap = s.inCap ∧ t.outCap = s.outCap ∧ t.host = rest

/-- A broken host duty is refused (70_reset_and_hazards.md R125; 10_state.md R24; 20_memory.md R44, R45): anything but a
STATUS read while BUSY = 1, a register access at another offset or width, a buffer access outside the capacity. Two clauses
are the model's choice (DEDUCED, log 7): a write to OUT at or above OUT_CAP is refused as the read is, and an access at an
offset that is no multiple of 8 is refused under that name whatever its width. -/
def Obligations.BrokenDutiesAreRefused : Prop :=
  ∀ (s : State) (rest : List HostOp) (op : HostOp), s.host = op :: rest →
    (s.busy = true → op ≠ .reset → op ≠ .regRead 0x08 .w32 → step s = .refused .accessWhileBusy) ∧
    (s.busy = false →
      (∀ off width, op = .regRead off width ∨ (∃ v, op = .regWrite off width v) →
        (off.toNat % 8 ≠ 0 → step s = .refused .registerMisaligned) ∧
        (off = 0x00 ∨ off = 0x08 → width ≠ .w32 → step s = .refused .registerWidth) ∧
        (off.toNat % 8 = 0 → 0x10 ≤ off.toNat → off.toNat ≤ 0x48 → width ≠ .w64 → step s = .refused .registerWidth) ∧
        (off.toNat % 8 = 0 → 0x50 ≤ off.toNat → width = .w8 ∨ width = .w16 → step s = .refused .registerWidth)) ∧
      (∀ a, op = .inRead a ∨ (∃ b, op = .inWrite a b) → s.inCap.toNat ≤ a → step s = .refused .inIndex) ∧
      (∀ a, op = .outRead a ∨ (∃ b, op = .outWrite a b) → s.outCap.toNat ≤ a → step s = .refused .outIndex))

/-- Nothing the host does changes the block's own state, except a command or the reset input (70_reset_and_hazards.md
R126). -/
def Obligations.HostKeepsInternalState : Prop :=
  ∀ (s t : State) (op : HostOp) (rest : List HostOp), s.host = op :: rest → op ≠ .reset →
    (∀ v, op ≠ .regWrite 0x00 .w32 v) → step s = .next t →
    t = { s with host := rest, arg := t.arg, inLen := t.inLen, inMem := t.inMem, hostData := t.hostData }
end

