-- ==== Sys2Proof/Laws/State.lean ====
section
/-! SUPPORT. One lemma per field of State per named update: what the field holds after it. -/

namespace Sys2Proof.Machine

variable (s : State)

/-! ### State.putOut -/

@[simp] theorem State.putOut_arg (v : Byte) : (s.putOut v).arg = s.arg := rfl
@[simp] theorem State.putOut_result (v : Byte) : (s.putOut v).result = s.result := rfl
@[simp] theorem State.putOut_inLen (v : Byte) : (s.putOut v).inLen = s.inLen := rfl
@[simp] theorem State.putOut_outLen (v : Byte) : (s.putOut v).outLen = s.outLen + 1 := rfl
@[simp] theorem State.putOut_nBits (v : Byte) : (s.putOut v).nBits = s.nBits := rfl
@[simp] theorem State.putOut_rpos (v : Byte) : (s.putOut v).rpos = s.rpos := rfl
@[simp] theorem State.putOut_inCap (v : Byte) : (s.putOut v).inCap = s.inCap := rfl
@[simp] theorem State.putOut_outCap (v : Byte) : (s.putOut v).outCap = s.outCap := rfl
@[simp] theorem State.putOut_busy (v : Byte) : (s.putOut v).busy = s.busy := rfl
@[simp] theorem State.putOut_ecode (v : Byte) : (s.putOut v).ecode = s.ecode := rfl
@[simp] theorem State.putOut_phase (v : Byte) : (s.putOut v).phase = s.phase := rfl
@[simp] theorem State.putOut_dir (v : Byte) : (s.putOut v).dir = s.dir := rfl
@[simp] theorem State.putOut_freq (v : Byte) : (s.putOut v).freq = s.freq := rfl
@[simp] theorem State.putOut_tree (v : Byte) : (s.putOut v).tree = s.tree := rfl
@[simp] theorem State.putOut_codeLen (v : Byte) : (s.putOut v).codeLen = s.codeLen := rfl
@[simp] theorem State.putOut_code (v : Byte) : (s.putOut v).code = s.code := rfl
@[simp] theorem State.putOut_dmap (v : Byte) : (s.putOut v).dmap = s.dmap := rfl
@[simp] theorem State.putOut_wbuf (v : Byte) : (s.putOut v).wbuf = s.wbuf := rfl
@[simp] theorem State.putOut_wcnt (v : Byte) : (s.putOut v).wcnt = s.wcnt := rfl
@[simp] theorem State.putOut_inMem (v : Byte) : (s.putOut v).inMem = s.inMem := rfl
@[simp] theorem State.putOut_outMem (v : Byte) : (s.putOut v).outMem = memWrite s.outMem s.outLen.toNat v := rfl
@[simp] theorem State.putOut_inDraw (v : Byte) : (s.putOut v).inDraw = s.inDraw := rfl
@[simp] theorem State.putOut_outDraw (v : Byte) : (s.putOut v).outDraw = s.outDraw := rfl
@[simp] theorem State.putOut_host (v : Byte) : (s.putOut v).host = s.host := rfl
@[simp] theorem State.putOut_hostData (v : Byte) : (s.putOut v).hostData = s.hostData := rfl

/-! ### State.withWriter -/

@[simp] theorem State.withWriter_arg (buf : BitVec 8) (cnt : BitVec 3) : (s.withWriter buf cnt).arg = s.arg := rfl
@[simp] theorem State.withWriter_result (buf : BitVec 8) (cnt : BitVec 3) : (s.withWriter buf cnt).result = s.result := rfl
@[simp] theorem State.withWriter_inLen (buf : BitVec 8) (cnt : BitVec 3) : (s.withWriter buf cnt).inLen = s.inLen := rfl
@[simp] theorem State.withWriter_outLen (buf : BitVec 8) (cnt : BitVec 3) : (s.withWriter buf cnt).outLen = s.outLen := rfl
@[simp] theorem State.withWriter_nBits (buf : BitVec 8) (cnt : BitVec 3) : (s.withWriter buf cnt).nBits = s.nBits := rfl
@[simp] theorem State.withWriter_rpos (buf : BitVec 8) (cnt : BitVec 3) : (s.withWriter buf cnt).rpos = s.rpos := rfl
@[simp] theorem State.withWriter_inCap (buf : BitVec 8) (cnt : BitVec 3) : (s.withWriter buf cnt).inCap = s.inCap := rfl
@[simp] theorem State.withWriter_outCap (buf : BitVec 8) (cnt : BitVec 3) : (s.withWriter buf cnt).outCap = s.outCap := rfl
@[simp] theorem State.withWriter_busy (buf : BitVec 8) (cnt : BitVec 3) : (s.withWriter buf cnt).busy = s.busy := rfl
@[simp] theorem State.withWriter_ecode (buf : BitVec 8) (cnt : BitVec 3) : (s.withWriter buf cnt).ecode = s.ecode := rfl
@[simp] theorem State.withWriter_phase (buf : BitVec 8) (cnt : BitVec 3) : (s.withWriter buf cnt).phase = s.phase := rfl
@[simp] theorem State.withWriter_dir (buf : BitVec 8) (cnt : BitVec 3) : (s.withWriter buf cnt).dir = s.dir := rfl
@[simp] theorem State.withWriter_freq (buf : BitVec 8) (cnt : BitVec 3) : (s.withWriter buf cnt).freq = s.freq := rfl
@[simp] theorem State.withWriter_tree (buf : BitVec 8) (cnt : BitVec 3) : (s.withWriter buf cnt).tree = s.tree := rfl
@[simp] theorem State.withWriter_codeLen (buf : BitVec 8) (cnt : BitVec 3) : (s.withWriter buf cnt).codeLen = s.codeLen := rfl
@[simp] theorem State.withWriter_code (buf : BitVec 8) (cnt : BitVec 3) : (s.withWriter buf cnt).code = s.code := rfl
@[simp] theorem State.withWriter_dmap (buf : BitVec 8) (cnt : BitVec 3) : (s.withWriter buf cnt).dmap = s.dmap := rfl
@[simp] theorem State.withWriter_wbuf (buf : BitVec 8) (cnt : BitVec 3) : (s.withWriter buf cnt).wbuf = buf := rfl
@[simp] theorem State.withWriter_wcnt (buf : BitVec 8) (cnt : BitVec 3) : (s.withWriter buf cnt).wcnt = cnt := rfl
@[simp] theorem State.withWriter_inMem (buf : BitVec 8) (cnt : BitVec 3) : (s.withWriter buf cnt).inMem = s.inMem := rfl
@[simp] theorem State.withWriter_outMem (buf : BitVec 8) (cnt : BitVec 3) : (s.withWriter buf cnt).outMem = s.outMem := rfl
@[simp] theorem State.withWriter_inDraw (buf : BitVec 8) (cnt : BitVec 3) : (s.withWriter buf cnt).inDraw = s.inDraw := rfl
@[simp] theorem State.withWriter_outDraw (buf : BitVec 8) (cnt : BitVec 3) : (s.withWriter buf cnt).outDraw = s.outDraw := rfl
@[simp] theorem State.withWriter_host (buf : BitVec 8) (cnt : BitVec 3) : (s.withWriter buf cnt).host = s.host := rfl
@[simp] theorem State.withWriter_hostData (buf : BitVec 8) (cnt : BitVec 3) : (s.withWriter buf cnt).hostData = s.hostData := rfl

/-! ### State.stepReader -/

@[simp] theorem State.stepReader_arg : s.stepReader.arg = s.arg := rfl
@[simp] theorem State.stepReader_result : s.stepReader.result = s.result := rfl
@[simp] theorem State.stepReader_inLen : s.stepReader.inLen = s.inLen := rfl
@[simp] theorem State.stepReader_outLen : s.stepReader.outLen = s.outLen := rfl
@[simp] theorem State.stepReader_nBits : s.stepReader.nBits = s.nBits := rfl
@[simp] theorem State.stepReader_rpos : s.stepReader.rpos = s.rpos + 1 := rfl
@[simp] theorem State.stepReader_inCap : s.stepReader.inCap = s.inCap := rfl
@[simp] theorem State.stepReader_outCap : s.stepReader.outCap = s.outCap := rfl
@[simp] theorem State.stepReader_busy : s.stepReader.busy = s.busy := rfl
@[simp] theorem State.stepReader_ecode : s.stepReader.ecode = s.ecode := rfl
@[simp] theorem State.stepReader_phase : s.stepReader.phase = s.phase := rfl
@[simp] theorem State.stepReader_dir : s.stepReader.dir = s.dir := rfl
@[simp] theorem State.stepReader_freq : s.stepReader.freq = s.freq := rfl
@[simp] theorem State.stepReader_tree : s.stepReader.tree = s.tree := rfl
@[simp] theorem State.stepReader_codeLen : s.stepReader.codeLen = s.codeLen := rfl
@[simp] theorem State.stepReader_code : s.stepReader.code = s.code := rfl
@[simp] theorem State.stepReader_dmap : s.stepReader.dmap = s.dmap := rfl
@[simp] theorem State.stepReader_wbuf : s.stepReader.wbuf = s.wbuf := rfl
@[simp] theorem State.stepReader_wcnt : s.stepReader.wcnt = s.wcnt := rfl
@[simp] theorem State.stepReader_inMem : s.stepReader.inMem = s.inMem := rfl
@[simp] theorem State.stepReader_outMem : s.stepReader.outMem = s.outMem := rfl
@[simp] theorem State.stepReader_inDraw : s.stepReader.inDraw = s.inDraw := rfl
@[simp] theorem State.stepReader_outDraw : s.stepReader.outDraw = s.outDraw := rfl
@[simp] theorem State.stepReader_host : s.stepReader.host = s.host := rfl
@[simp] theorem State.stepReader_hostData : s.stepReader.hostData = s.hostData := rfl

/-! ### State.setFreq -/

@[simp] theorem State.setFreq_arg (sym : Symbol) (v : Reg) : (s.setFreq sym v).arg = s.arg := rfl
@[simp] theorem State.setFreq_result (sym : Symbol) (v : Reg) : (s.setFreq sym v).result = s.result := rfl
@[simp] theorem State.setFreq_inLen (sym : Symbol) (v : Reg) : (s.setFreq sym v).inLen = s.inLen := rfl
@[simp] theorem State.setFreq_outLen (sym : Symbol) (v : Reg) : (s.setFreq sym v).outLen = s.outLen := rfl
@[simp] theorem State.setFreq_nBits (sym : Symbol) (v : Reg) : (s.setFreq sym v).nBits = s.nBits := rfl
@[simp] theorem State.setFreq_rpos (sym : Symbol) (v : Reg) : (s.setFreq sym v).rpos = s.rpos := rfl
@[simp] theorem State.setFreq_inCap (sym : Symbol) (v : Reg) : (s.setFreq sym v).inCap = s.inCap := rfl
@[simp] theorem State.setFreq_outCap (sym : Symbol) (v : Reg) : (s.setFreq sym v).outCap = s.outCap := rfl
@[simp] theorem State.setFreq_busy (sym : Symbol) (v : Reg) : (s.setFreq sym v).busy = s.busy := rfl
@[simp] theorem State.setFreq_ecode (sym : Symbol) (v : Reg) : (s.setFreq sym v).ecode = s.ecode := rfl
@[simp] theorem State.setFreq_phase (sym : Symbol) (v : Reg) : (s.setFreq sym v).phase = s.phase := rfl
@[simp] theorem State.setFreq_dir (sym : Symbol) (v : Reg) : (s.setFreq sym v).dir = s.dir := rfl
@[simp] theorem State.setFreq_freq (sym : Symbol) (v : Reg) : (s.setFreq sym v).freq = regSet s.freq sym v := rfl
@[simp] theorem State.setFreq_tree (sym : Symbol) (v : Reg) : (s.setFreq sym v).tree = s.tree := rfl
@[simp] theorem State.setFreq_codeLen (sym : Symbol) (v : Reg) : (s.setFreq sym v).codeLen = s.codeLen := rfl
@[simp] theorem State.setFreq_code (sym : Symbol) (v : Reg) : (s.setFreq sym v).code = s.code := rfl
@[simp] theorem State.setFreq_dmap (sym : Symbol) (v : Reg) : (s.setFreq sym v).dmap = s.dmap := rfl
@[simp] theorem State.setFreq_wbuf (sym : Symbol) (v : Reg) : (s.setFreq sym v).wbuf = s.wbuf := rfl
@[simp] theorem State.setFreq_wcnt (sym : Symbol) (v : Reg) : (s.setFreq sym v).wcnt = s.wcnt := rfl
@[simp] theorem State.setFreq_inMem (sym : Symbol) (v : Reg) : (s.setFreq sym v).inMem = s.inMem := rfl
@[simp] theorem State.setFreq_outMem (sym : Symbol) (v : Reg) : (s.setFreq sym v).outMem = s.outMem := rfl
@[simp] theorem State.setFreq_inDraw (sym : Symbol) (v : Reg) : (s.setFreq sym v).inDraw = s.inDraw := rfl
@[simp] theorem State.setFreq_outDraw (sym : Symbol) (v : Reg) : (s.setFreq sym v).outDraw = s.outDraw := rfl
@[simp] theorem State.setFreq_host (sym : Symbol) (v : Reg) : (s.setFreq sym v).host = s.host := rfl
@[simp] theorem State.setFreq_hostData (sym : Symbol) (v : Reg) : (s.setFreq sym v).hostData = s.hostData := rfl

/-! ### State.setResult -/

@[simp] theorem State.setResult_arg (v : Reg) : (s.setResult v).arg = s.arg := rfl
@[simp] theorem State.setResult_result (v : Reg) : (s.setResult v).result = v := rfl
@[simp] theorem State.setResult_inLen (v : Reg) : (s.setResult v).inLen = s.inLen := rfl
@[simp] theorem State.setResult_outLen (v : Reg) : (s.setResult v).outLen = s.outLen := rfl
@[simp] theorem State.setResult_nBits (v : Reg) : (s.setResult v).nBits = s.nBits := rfl
@[simp] theorem State.setResult_rpos (v : Reg) : (s.setResult v).rpos = s.rpos := rfl
@[simp] theorem State.setResult_inCap (v : Reg) : (s.setResult v).inCap = s.inCap := rfl
@[simp] theorem State.setResult_outCap (v : Reg) : (s.setResult v).outCap = s.outCap := rfl
@[simp] theorem State.setResult_busy (v : Reg) : (s.setResult v).busy = s.busy := rfl
@[simp] theorem State.setResult_ecode (v : Reg) : (s.setResult v).ecode = s.ecode := rfl
@[simp] theorem State.setResult_phase (v : Reg) : (s.setResult v).phase = s.phase := rfl
@[simp] theorem State.setResult_dir (v : Reg) : (s.setResult v).dir = s.dir := rfl
@[simp] theorem State.setResult_freq (v : Reg) : (s.setResult v).freq = s.freq := rfl
@[simp] theorem State.setResult_tree (v : Reg) : (s.setResult v).tree = s.tree := rfl
@[simp] theorem State.setResult_codeLen (v : Reg) : (s.setResult v).codeLen = s.codeLen := rfl
@[simp] theorem State.setResult_code (v : Reg) : (s.setResult v).code = s.code := rfl
@[simp] theorem State.setResult_dmap (v : Reg) : (s.setResult v).dmap = s.dmap := rfl
@[simp] theorem State.setResult_wbuf (v : Reg) : (s.setResult v).wbuf = s.wbuf := rfl
@[simp] theorem State.setResult_wcnt (v : Reg) : (s.setResult v).wcnt = s.wcnt := rfl
@[simp] theorem State.setResult_inMem (v : Reg) : (s.setResult v).inMem = s.inMem := rfl
@[simp] theorem State.setResult_outMem (v : Reg) : (s.setResult v).outMem = s.outMem := rfl
@[simp] theorem State.setResult_inDraw (v : Reg) : (s.setResult v).inDraw = s.inDraw := rfl
@[simp] theorem State.setResult_outDraw (v : Reg) : (s.setResult v).outDraw = s.outDraw := rfl
@[simp] theorem State.setResult_host (v : Reg) : (s.setResult v).host = s.host := rfl
@[simp] theorem State.setResult_hostData (v : Reg) : (s.setResult v).hostData = s.hostData := rfl

/-! ### State.setCode -/

@[simp] theorem State.setCode_arg (sym : Symbol) (c : BitString) : (s.setCode sym c).arg = s.arg := rfl
@[simp] theorem State.setCode_result (sym : Symbol) (c : BitString) : (s.setCode sym c).result = s.result := rfl
@[simp] theorem State.setCode_inLen (sym : Symbol) (c : BitString) : (s.setCode sym c).inLen = s.inLen := rfl
@[simp] theorem State.setCode_outLen (sym : Symbol) (c : BitString) : (s.setCode sym c).outLen = s.outLen := rfl
@[simp] theorem State.setCode_nBits (sym : Symbol) (c : BitString) : (s.setCode sym c).nBits = s.nBits := rfl
@[simp] theorem State.setCode_rpos (sym : Symbol) (c : BitString) : (s.setCode sym c).rpos = s.rpos := rfl
@[simp] theorem State.setCode_inCap (sym : Symbol) (c : BitString) : (s.setCode sym c).inCap = s.inCap := rfl
@[simp] theorem State.setCode_outCap (sym : Symbol) (c : BitString) : (s.setCode sym c).outCap = s.outCap := rfl
@[simp] theorem State.setCode_busy (sym : Symbol) (c : BitString) : (s.setCode sym c).busy = s.busy := rfl
@[simp] theorem State.setCode_ecode (sym : Symbol) (c : BitString) : (s.setCode sym c).ecode = s.ecode := rfl
@[simp] theorem State.setCode_phase (sym : Symbol) (c : BitString) : (s.setCode sym c).phase = s.phase := rfl
@[simp] theorem State.setCode_dir (sym : Symbol) (c : BitString) : (s.setCode sym c).dir = s.dir := rfl
@[simp] theorem State.setCode_freq (sym : Symbol) (c : BitString) : (s.setCode sym c).freq = s.freq := rfl
@[simp] theorem State.setCode_tree (sym : Symbol) (c : BitString) : (s.setCode sym c).tree = s.tree := rfl
@[simp] theorem State.setCode_codeLen (sym : Symbol) (c : BitString) : (s.setCode sym c).codeLen = regSet s.codeLen sym (BitVec.ofNat 8 c.length) := rfl
@[simp] theorem State.setCode_code (sym : Symbol) (c : BitString) : (s.setCode sym c).code = regSet s.code sym c := rfl
@[simp] theorem State.setCode_dmap (sym : Symbol) (c : BitString) : (s.setCode sym c).dmap = dmapSet s.dmap c sym := rfl
@[simp] theorem State.setCode_wbuf (sym : Symbol) (c : BitString) : (s.setCode sym c).wbuf = s.wbuf := rfl
@[simp] theorem State.setCode_wcnt (sym : Symbol) (c : BitString) : (s.setCode sym c).wcnt = s.wcnt := rfl
@[simp] theorem State.setCode_inMem (sym : Symbol) (c : BitString) : (s.setCode sym c).inMem = s.inMem := rfl
@[simp] theorem State.setCode_outMem (sym : Symbol) (c : BitString) : (s.setCode sym c).outMem = s.outMem := rfl
@[simp] theorem State.setCode_inDraw (sym : Symbol) (c : BitString) : (s.setCode sym c).inDraw = s.inDraw := rfl
@[simp] theorem State.setCode_outDraw (sym : Symbol) (c : BitString) : (s.setCode sym c).outDraw = s.outDraw := rfl
@[simp] theorem State.setCode_host (sym : Symbol) (c : BitString) : (s.setCode sym c).host = s.host := rfl
@[simp] theorem State.setCode_hostData (sym : Symbol) (c : BitString) : (s.setCode sym c).hostData = s.hostData := rfl

/-! ### State.clearCodes -/

@[simp] theorem State.clearCodes_arg : s.clearCodes.arg = s.arg := rfl
@[simp] theorem State.clearCodes_result : s.clearCodes.result = s.result := rfl
@[simp] theorem State.clearCodes_inLen : s.clearCodes.inLen = s.inLen := rfl
@[simp] theorem State.clearCodes_outLen : s.clearCodes.outLen = s.outLen := rfl
@[simp] theorem State.clearCodes_nBits : s.clearCodes.nBits = s.nBits := rfl
@[simp] theorem State.clearCodes_rpos : s.clearCodes.rpos = s.rpos := rfl
@[simp] theorem State.clearCodes_inCap : s.clearCodes.inCap = s.inCap := rfl
@[simp] theorem State.clearCodes_outCap : s.clearCodes.outCap = s.outCap := rfl
@[simp] theorem State.clearCodes_busy : s.clearCodes.busy = s.busy := rfl
@[simp] theorem State.clearCodes_ecode : s.clearCodes.ecode = s.ecode := rfl
@[simp] theorem State.clearCodes_phase : s.clearCodes.phase = s.phase := rfl
@[simp] theorem State.clearCodes_dir : s.clearCodes.dir = s.dir := rfl
@[simp] theorem State.clearCodes_freq : s.clearCodes.freq = s.freq := rfl
@[simp] theorem State.clearCodes_tree : s.clearCodes.tree = s.tree := rfl
@[simp] theorem State.clearCodes_codeLen : s.clearCodes.codeLen = Vector.replicate 256 0 := rfl
@[simp] theorem State.clearCodes_code : s.clearCodes.code = Vector.replicate 256 [] := rfl
@[simp] theorem State.clearCodes_dmap : s.clearCodes.dmap = [] := rfl
@[simp] theorem State.clearCodes_wbuf : s.clearCodes.wbuf = s.wbuf := rfl
@[simp] theorem State.clearCodes_wcnt : s.clearCodes.wcnt = s.wcnt := rfl
@[simp] theorem State.clearCodes_inMem : s.clearCodes.inMem = s.inMem := rfl
@[simp] theorem State.clearCodes_outMem : s.clearCodes.outMem = s.outMem := rfl
@[simp] theorem State.clearCodes_inDraw : s.clearCodes.inDraw = s.inDraw := rfl
@[simp] theorem State.clearCodes_outDraw : s.clearCodes.outDraw = s.outDraw := rfl
@[simp] theorem State.clearCodes_host : s.clearCodes.host = s.host := rfl
@[simp] theorem State.clearCodes_hostData : s.clearCodes.hostData = s.hostData := rfl

/-! ### State.treeWritten -/

@[simp] theorem State.treeWritten_arg : s.treeWritten.arg = s.arg := rfl
@[simp] theorem State.treeWritten_result : s.treeWritten.result = s.result := rfl
@[simp] theorem State.treeWritten_inLen : s.treeWritten.inLen = s.inLen := rfl
@[simp] theorem State.treeWritten_outLen : s.treeWritten.outLen = s.outLen := rfl
@[simp] theorem State.treeWritten_nBits : s.treeWritten.nBits = s.nBits := rfl
@[simp] theorem State.treeWritten_rpos : s.treeWritten.rpos = s.rpos := rfl
@[simp] theorem State.treeWritten_inCap : s.treeWritten.inCap = s.inCap := rfl
@[simp] theorem State.treeWritten_outCap : s.treeWritten.outCap = s.outCap := rfl
@[simp] theorem State.treeWritten_busy : s.treeWritten.busy = s.busy := rfl
@[simp] theorem State.treeWritten_ecode : s.treeWritten.ecode = s.ecode := rfl
@[simp] theorem State.treeWritten_phase : s.treeWritten.phase = .treeWritten := rfl
@[simp] theorem State.treeWritten_dir : s.treeWritten.dir = s.dir := rfl
@[simp] theorem State.treeWritten_freq : s.treeWritten.freq = s.freq := rfl
@[simp] theorem State.treeWritten_tree : s.treeWritten.tree = s.tree := rfl
@[simp] theorem State.treeWritten_codeLen : s.treeWritten.codeLen = s.codeLen := rfl
@[simp] theorem State.treeWritten_code : s.treeWritten.code = s.code := rfl
@[simp] theorem State.treeWritten_dmap : s.treeWritten.dmap = s.dmap := rfl
@[simp] theorem State.treeWritten_wbuf : s.treeWritten.wbuf = s.wbuf := rfl
@[simp] theorem State.treeWritten_wcnt : s.treeWritten.wcnt = s.wcnt := rfl
@[simp] theorem State.treeWritten_inMem : s.treeWritten.inMem = s.inMem := rfl
@[simp] theorem State.treeWritten_outMem : s.treeWritten.outMem = s.outMem := rfl
@[simp] theorem State.treeWritten_inDraw : s.treeWritten.inDraw = s.inDraw := rfl
@[simp] theorem State.treeWritten_outDraw : s.treeWritten.outDraw = s.outDraw := rfl
@[simp] theorem State.treeWritten_host : s.treeWritten.host = s.host := rfl
@[simp] theorem State.treeWritten_hostData : s.treeWritten.hostData = s.hostData := rfl

/-! ### State.treeRead -/

@[simp] theorem State.treeRead_arg (t : HuffTree) : (s.treeRead t).arg = s.arg := rfl
@[simp] theorem State.treeRead_result (t : HuffTree) : (s.treeRead t).result = s.result := rfl
@[simp] theorem State.treeRead_inLen (t : HuffTree) : (s.treeRead t).inLen = s.inLen := rfl
@[simp] theorem State.treeRead_outLen (t : HuffTree) : (s.treeRead t).outLen = s.outLen := rfl
@[simp] theorem State.treeRead_nBits (t : HuffTree) : (s.treeRead t).nBits = s.nBits := rfl
@[simp] theorem State.treeRead_rpos (t : HuffTree) : (s.treeRead t).rpos = s.rpos := rfl
@[simp] theorem State.treeRead_inCap (t : HuffTree) : (s.treeRead t).inCap = s.inCap := rfl
@[simp] theorem State.treeRead_outCap (t : HuffTree) : (s.treeRead t).outCap = s.outCap := rfl
@[simp] theorem State.treeRead_busy (t : HuffTree) : (s.treeRead t).busy = s.busy := rfl
@[simp] theorem State.treeRead_ecode (t : HuffTree) : (s.treeRead t).ecode = s.ecode := rfl
@[simp] theorem State.treeRead_phase (t : HuffTree) : (s.treeRead t).phase = .treeReady := rfl
@[simp] theorem State.treeRead_dir (t : HuffTree) : (s.treeRead t).dir = .decompress := rfl
@[simp] theorem State.treeRead_freq (t : HuffTree) : (s.treeRead t).freq = s.freq := rfl
@[simp] theorem State.treeRead_tree (t : HuffTree) : (s.treeRead t).tree = some t := rfl
@[simp] theorem State.treeRead_codeLen (t : HuffTree) : (s.treeRead t).codeLen = s.codeLen := rfl
@[simp] theorem State.treeRead_code (t : HuffTree) : (s.treeRead t).code = s.code := rfl
@[simp] theorem State.treeRead_dmap (t : HuffTree) : (s.treeRead t).dmap = s.dmap := rfl
@[simp] theorem State.treeRead_wbuf (t : HuffTree) : (s.treeRead t).wbuf = s.wbuf := rfl
@[simp] theorem State.treeRead_wcnt (t : HuffTree) : (s.treeRead t).wcnt = s.wcnt := rfl
@[simp] theorem State.treeRead_inMem (t : HuffTree) : (s.treeRead t).inMem = s.inMem := rfl
@[simp] theorem State.treeRead_outMem (t : HuffTree) : (s.treeRead t).outMem = s.outMem := rfl
@[simp] theorem State.treeRead_inDraw (t : HuffTree) : (s.treeRead t).inDraw = s.inDraw := rfl
@[simp] theorem State.treeRead_outDraw (t : HuffTree) : (s.treeRead t).outDraw = s.outDraw := rfl
@[simp] theorem State.treeRead_host (t : HuffTree) : (s.treeRead t).host = s.host := rfl
@[simp] theorem State.treeRead_hostData (t : HuffTree) : (s.treeRead t).hostData = s.hostData := rfl

/-! ### State.treeBuilt -/

@[simp] theorem State.treeBuilt_arg (t : HuffTree) : (s.treeBuilt t).arg = s.arg := rfl
@[simp] theorem State.treeBuilt_result (t : HuffTree) : (s.treeBuilt t).result = s.result := rfl
@[simp] theorem State.treeBuilt_inLen (t : HuffTree) : (s.treeBuilt t).inLen = s.inLen := rfl
@[simp] theorem State.treeBuilt_outLen (t : HuffTree) : (s.treeBuilt t).outLen = s.outLen := rfl
@[simp] theorem State.treeBuilt_nBits (t : HuffTree) : (s.treeBuilt t).nBits = s.nBits := rfl
@[simp] theorem State.treeBuilt_rpos (t : HuffTree) : (s.treeBuilt t).rpos = s.rpos := rfl
@[simp] theorem State.treeBuilt_inCap (t : HuffTree) : (s.treeBuilt t).inCap = s.inCap := rfl
@[simp] theorem State.treeBuilt_outCap (t : HuffTree) : (s.treeBuilt t).outCap = s.outCap := rfl
@[simp] theorem State.treeBuilt_busy (t : HuffTree) : (s.treeBuilt t).busy = s.busy := rfl
@[simp] theorem State.treeBuilt_ecode (t : HuffTree) : (s.treeBuilt t).ecode = s.ecode := rfl
@[simp] theorem State.treeBuilt_phase (t : HuffTree) : (s.treeBuilt t).phase = .treeReady := rfl
@[simp] theorem State.treeBuilt_dir (t : HuffTree) : (s.treeBuilt t).dir = .compress := rfl
@[simp] theorem State.treeBuilt_freq (t : HuffTree) : (s.treeBuilt t).freq = s.freq := rfl
@[simp] theorem State.treeBuilt_tree (t : HuffTree) : (s.treeBuilt t).tree = some t := rfl
@[simp] theorem State.treeBuilt_codeLen (t : HuffTree) : (s.treeBuilt t).codeLen = s.codeLen := rfl
@[simp] theorem State.treeBuilt_code (t : HuffTree) : (s.treeBuilt t).code = s.code := rfl
@[simp] theorem State.treeBuilt_dmap (t : HuffTree) : (s.treeBuilt t).dmap = s.dmap := rfl
@[simp] theorem State.treeBuilt_wbuf (t : HuffTree) : (s.treeBuilt t).wbuf = s.wbuf := rfl
@[simp] theorem State.treeBuilt_wcnt (t : HuffTree) : (s.treeBuilt t).wcnt = s.wcnt := rfl
@[simp] theorem State.treeBuilt_inMem (t : HuffTree) : (s.treeBuilt t).inMem = s.inMem := rfl
@[simp] theorem State.treeBuilt_outMem (t : HuffTree) : (s.treeBuilt t).outMem = s.outMem := rfl
@[simp] theorem State.treeBuilt_inDraw (t : HuffTree) : (s.treeBuilt t).inDraw = s.inDraw := rfl
@[simp] theorem State.treeBuilt_outDraw (t : HuffTree) : (s.treeBuilt t).outDraw = s.outDraw := rfl
@[simp] theorem State.treeBuilt_host (t : HuffTree) : (s.treeBuilt t).host = s.host := rfl
@[simp] theorem State.treeBuilt_hostData (t : HuffTree) : (s.treeBuilt t).hostData = s.hostData := rfl

/-! ### State.setNBits -/

@[simp] theorem State.setNBits_arg (n : Reg) : (s.setNBits n).arg = s.arg := rfl
@[simp] theorem State.setNBits_result (n : Reg) : (s.setNBits n).result = s.result := rfl
@[simp] theorem State.setNBits_inLen (n : Reg) : (s.setNBits n).inLen = s.inLen := rfl
@[simp] theorem State.setNBits_outLen (n : Reg) : (s.setNBits n).outLen = s.outLen := rfl
@[simp] theorem State.setNBits_nBits (n : Reg) : (s.setNBits n).nBits = n := rfl
@[simp] theorem State.setNBits_rpos (n : Reg) : (s.setNBits n).rpos = s.rpos := rfl
@[simp] theorem State.setNBits_inCap (n : Reg) : (s.setNBits n).inCap = s.inCap := rfl
@[simp] theorem State.setNBits_outCap (n : Reg) : (s.setNBits n).outCap = s.outCap := rfl
@[simp] theorem State.setNBits_busy (n : Reg) : (s.setNBits n).busy = s.busy := rfl
@[simp] theorem State.setNBits_ecode (n : Reg) : (s.setNBits n).ecode = s.ecode := rfl
@[simp] theorem State.setNBits_phase (n : Reg) : (s.setNBits n).phase = s.phase := rfl
@[simp] theorem State.setNBits_dir (n : Reg) : (s.setNBits n).dir = s.dir := rfl
@[simp] theorem State.setNBits_freq (n : Reg) : (s.setNBits n).freq = s.freq := rfl
@[simp] theorem State.setNBits_tree (n : Reg) : (s.setNBits n).tree = s.tree := rfl
@[simp] theorem State.setNBits_codeLen (n : Reg) : (s.setNBits n).codeLen = s.codeLen := rfl
@[simp] theorem State.setNBits_code (n : Reg) : (s.setNBits n).code = s.code := rfl
@[simp] theorem State.setNBits_dmap (n : Reg) : (s.setNBits n).dmap = s.dmap := rfl
@[simp] theorem State.setNBits_wbuf (n : Reg) : (s.setNBits n).wbuf = s.wbuf := rfl
@[simp] theorem State.setNBits_wcnt (n : Reg) : (s.setNBits n).wcnt = s.wcnt := rfl
@[simp] theorem State.setNBits_inMem (n : Reg) : (s.setNBits n).inMem = s.inMem := rfl
@[simp] theorem State.setNBits_outMem (n : Reg) : (s.setNBits n).outMem = s.outMem := rfl
@[simp] theorem State.setNBits_inDraw (n : Reg) : (s.setNBits n).inDraw = s.inDraw := rfl
@[simp] theorem State.setNBits_outDraw (n : Reg) : (s.setNBits n).outDraw = s.outDraw := rfl
@[simp] theorem State.setNBits_host (n : Reg) : (s.setNBits n).host = s.host := rfl
@[simp] theorem State.setNBits_hostData (n : Reg) : (s.setNBits n).hostData = s.hostData := rfl

/-! ### State.finished -/

@[simp] theorem State.finished_arg : s.finished.arg = s.arg := rfl
@[simp] theorem State.finished_result : s.finished.result = s.result := rfl
@[simp] theorem State.finished_inLen : s.finished.inLen = s.inLen := rfl
@[simp] theorem State.finished_outLen : s.finished.outLen = s.outLen := rfl
@[simp] theorem State.finished_nBits : s.finished.nBits = s.nBits := rfl
@[simp] theorem State.finished_rpos : s.finished.rpos = s.rpos := rfl
@[simp] theorem State.finished_inCap : s.finished.inCap = s.inCap := rfl
@[simp] theorem State.finished_outCap : s.finished.outCap = s.outCap := rfl
@[simp] theorem State.finished_busy : s.finished.busy = s.busy := rfl
@[simp] theorem State.finished_ecode : s.finished.ecode = s.ecode := rfl
@[simp] theorem State.finished_phase : s.finished.phase = .done := rfl
@[simp] theorem State.finished_dir : s.finished.dir = s.dir := rfl
@[simp] theorem State.finished_freq : s.finished.freq = s.freq := rfl
@[simp] theorem State.finished_tree : s.finished.tree = s.tree := rfl
@[simp] theorem State.finished_codeLen : s.finished.codeLen = s.codeLen := rfl
@[simp] theorem State.finished_code : s.finished.code = s.code := rfl
@[simp] theorem State.finished_dmap : s.finished.dmap = s.dmap := rfl
@[simp] theorem State.finished_wbuf : s.finished.wbuf = s.wbuf := rfl
@[simp] theorem State.finished_wcnt : s.finished.wcnt = s.wcnt := rfl
@[simp] theorem State.finished_inMem : s.finished.inMem = s.inMem := rfl
@[simp] theorem State.finished_outMem : s.finished.outMem = s.outMem := rfl
@[simp] theorem State.finished_inDraw : s.finished.inDraw = s.inDraw := rfl
@[simp] theorem State.finished_outDraw : s.finished.outDraw = s.outDraw := rfl
@[simp] theorem State.finished_host : s.finished.host = s.host := rfl
@[simp] theorem State.finished_hostData : s.finished.hostData = s.hostData := rfl

/-! ### errorEntry -/

@[simp] theorem errorEntry_arg (e : ErrorCode) : (errorEntry e s).arg = s.arg := rfl
@[simp] theorem errorEntry_result (e : ErrorCode) : (errorEntry e s).result = s.result := rfl
@[simp] theorem errorEntry_inLen (e : ErrorCode) : (errorEntry e s).inLen = s.inLen := rfl
@[simp] theorem errorEntry_outLen (e : ErrorCode) : (errorEntry e s).outLen = 0 := rfl
@[simp] theorem errorEntry_nBits (e : ErrorCode) : (errorEntry e s).nBits = s.nBits := rfl
@[simp] theorem errorEntry_rpos (e : ErrorCode) : (errorEntry e s).rpos = s.rpos := rfl
@[simp] theorem errorEntry_inCap (e : ErrorCode) : (errorEntry e s).inCap = s.inCap := rfl
@[simp] theorem errorEntry_outCap (e : ErrorCode) : (errorEntry e s).outCap = s.outCap := rfl
@[simp] theorem errorEntry_busy (e : ErrorCode) : (errorEntry e s).busy = s.busy := rfl
@[simp] theorem errorEntry_ecode (e : ErrorCode) : (errorEntry e s).ecode = e := rfl
@[simp] theorem errorEntry_phase (e : ErrorCode) : (errorEntry e s).phase = .error := rfl
@[simp] theorem errorEntry_dir (e : ErrorCode) : (errorEntry e s).dir = s.dir := rfl
@[simp] theorem errorEntry_freq (e : ErrorCode) : (errorEntry e s).freq = s.freq := rfl
@[simp] theorem errorEntry_tree (e : ErrorCode) : (errorEntry e s).tree = Config.freeTree (s.outDraw + 1) := rfl
@[simp] theorem errorEntry_codeLen (e : ErrorCode) : (errorEntry e s).codeLen = Config.freeCodeLen (s.outDraw + 1) := rfl
@[simp] theorem errorEntry_code (e : ErrorCode) : (errorEntry e s).code = Config.freeCode (s.outDraw + 1) := rfl
@[simp] theorem errorEntry_dmap (e : ErrorCode) : (errorEntry e s).dmap = Config.freeDmap (s.outDraw + 1) := rfl
@[simp] theorem errorEntry_wbuf (e : ErrorCode) : (errorEntry e s).wbuf = Config.freeWbuf (s.outDraw + 1) := rfl
@[simp] theorem errorEntry_wcnt (e : ErrorCode) : (errorEntry e s).wcnt = Config.freeWcnt (s.outDraw + 1) := rfl
@[simp] theorem errorEntry_inMem (e : ErrorCode) : (errorEntry e s).inMem = s.inMem := rfl
@[simp] theorem errorEntry_outMem (e : ErrorCode) : (errorEntry e s).outMem = [] := rfl
@[simp] theorem errorEntry_inDraw (e : ErrorCode) : (errorEntry e s).inDraw = s.inDraw := rfl
@[simp] theorem errorEntry_outDraw (e : ErrorCode) : (errorEntry e s).outDraw = s.outDraw + 1 := rfl
@[simp] theorem errorEntry_host (e : ErrorCode) : (errorEntry e s).host = s.host := rfl
@[simp] theorem errorEntry_hostData (e : ErrorCode) : (errorEntry e s).hostData = s.hostData := rfl

/-! ### clearSession -/

@[simp] theorem clearSession_arg : (clearSession s).arg = s.arg := rfl
@[simp] theorem clearSession_result : (clearSession s).result = 0 := rfl
@[simp] theorem clearSession_inLen : (clearSession s).inLen = s.inLen := rfl
@[simp] theorem clearSession_outLen : (clearSession s).outLen = 0 := rfl
@[simp] theorem clearSession_nBits : (clearSession s).nBits = 0 := rfl
@[simp] theorem clearSession_rpos : (clearSession s).rpos = 0 := rfl
@[simp] theorem clearSession_inCap : (clearSession s).inCap = s.inCap := rfl
@[simp] theorem clearSession_outCap : (clearSession s).outCap = s.outCap := rfl
@[simp] theorem clearSession_busy : (clearSession s).busy = s.busy := rfl
@[simp] theorem clearSession_ecode : (clearSession s).ecode = .none := rfl
@[simp] theorem clearSession_phase : (clearSession s).phase = .idle := rfl
@[simp] theorem clearSession_dir : (clearSession s).dir = .compress := rfl
@[simp] theorem clearSession_freq : (clearSession s).freq = Vector.replicate 256 0 := rfl
@[simp] theorem clearSession_tree : (clearSession s).tree = none := rfl
@[simp] theorem clearSession_codeLen : (clearSession s).codeLen = Vector.replicate 256 0 := rfl
@[simp] theorem clearSession_code : (clearSession s).code = Vector.replicate 256 [] := rfl
@[simp] theorem clearSession_dmap : (clearSession s).dmap = [] := rfl
@[simp] theorem clearSession_wbuf : (clearSession s).wbuf = 0 := rfl
@[simp] theorem clearSession_wcnt : (clearSession s).wcnt = 0 := rfl
@[simp] theorem clearSession_inMem : (clearSession s).inMem = s.inMem := rfl
@[simp] theorem clearSession_outMem : (clearSession s).outMem = s.outMem := rfl
@[simp] theorem clearSession_inDraw : (clearSession s).inDraw = s.inDraw := rfl
@[simp] theorem clearSession_outDraw : (clearSession s).outDraw = s.outDraw := rfl
@[simp] theorem clearSession_host : (clearSession s).host = s.host := rfl
@[simp] theorem clearSession_hostData : (clearSession s).hostData = s.hostData := rfl

/-! ### hostReset -/

@[simp] theorem hostReset_arg : (hostReset s).arg = 0 := rfl
@[simp] theorem hostReset_result : (hostReset s).result = 0 := rfl
@[simp] theorem hostReset_inLen : (hostReset s).inLen = 0 := rfl
@[simp] theorem hostReset_outLen : (hostReset s).outLen = 0 := rfl
@[simp] theorem hostReset_nBits : (hostReset s).nBits = 0 := rfl
@[simp] theorem hostReset_rpos : (hostReset s).rpos = 0 := rfl
@[simp] theorem hostReset_inCap : (hostReset s).inCap = s.inCap := rfl
@[simp] theorem hostReset_outCap : (hostReset s).outCap = s.outCap := rfl
@[simp] theorem hostReset_busy : (hostReset s).busy = false := rfl
@[simp] theorem hostReset_ecode : (hostReset s).ecode = .none := rfl
@[simp] theorem hostReset_phase : (hostReset s).phase = .idle := rfl
@[simp] theorem hostReset_dir : (hostReset s).dir = .compress := rfl
@[simp] theorem hostReset_freq : (hostReset s).freq = Vector.replicate 256 0 := rfl
@[simp] theorem hostReset_tree : (hostReset s).tree = none := rfl
@[simp] theorem hostReset_codeLen : (hostReset s).codeLen = Vector.replicate 256 0 := rfl
@[simp] theorem hostReset_code : (hostReset s).code = Vector.replicate 256 [] := rfl
@[simp] theorem hostReset_dmap : (hostReset s).dmap = [] := rfl
@[simp] theorem hostReset_wbuf : (hostReset s).wbuf = 0 := rfl
@[simp] theorem hostReset_wcnt : (hostReset s).wcnt = 0 := rfl
@[simp] theorem hostReset_inMem : (hostReset s).inMem = [] := rfl
@[simp] theorem hostReset_outMem : (hostReset s).outMem = [] := rfl
@[simp] theorem hostReset_inDraw : (hostReset s).inDraw = s.inDraw + 1 := rfl
@[simp] theorem hostReset_outDraw : (hostReset s).outDraw = s.outDraw + 1 := rfl
@[simp] theorem hostReset_host : (hostReset s).host = s.host := rfl
@[simp] theorem hostReset_hostData : (hostReset s).hostData = s.hostData := rfl

end Sys2Proof.Machine
end

