-- ==== Sys2Proof/Laws/Memory.lean ====
section
/-! SUPPORT. Register files, the decode map and memory: what a read gives after a write, and the canonical form. -/

namespace Sys2Proof.Machine

/-! ## Register files -/

section RegFile
variable {α : Type}

@[simp] theorem regGet_regSet_same (f : RegFile α) (s : Symbol) (a : α) : regGet (regSet f s a) s = a := by
  simp [regGet, regSet]

theorem regGet_regSet_ne (f : RegFile α) {s s' : Symbol} (h : s ≠ s') (a : α) :
    regGet (regSet f s a) s' = regGet f s' := by
  have : s.toNat ≠ s'.toNat := fun e => h (BitVec.eq_of_toNat_eq e)
  simp [regGet, regSet, this]

theorem regGet_regSet (f : RegFile α) (s s' : Symbol) (a : α) :
    regGet (regSet f s a) s' = if s = s' then a else regGet f s' := by
  split
  · next h => subst h; simp
  · next h => exact regGet_regSet_ne f h a

@[simp] theorem regGet_replicate (a : α) (s : Symbol) : regGet (Vector.replicate 256 a : RegFile α) s = a := by
  simp [regGet]

/-- Two register files with the same entries are the same. -/
theorem regFile_ext {f g : RegFile α} (h : ∀ s, regGet f s = regGet g s) : f = g := by
  apply Vector.ext
  intro i hi
  have := h (BitVec.ofNat 8 i)
  simpa [regGet, Nat.mod_eq_of_lt hi] using this

end RegFile

/-! ## The decode map -/

theorem dmapFind_dmapSet (m : List (BitString × Symbol)) (k k' : BitString) (v : Symbol) :
    dmapFind (dmapSet m k v) k' = if k = k' then some v else dmapFind m k' := by
  induction m with
  | nil => simp [dmapSet, dmapFind]
  | cons e m ih =>
    obtain ⟨c, w⟩ := e
    by_cases hc : c = k
    · subst hc; by_cases hk : c = k' <;> simp [dmapSet, dmapFind, hk]
    · by_cases hk : c = k'
      · subst hk; simp [dmapSet, dmapFind, hc, Ne.symm hc]
      · simp [dmapSet, dmapFind, hc, hk, ih]

/-- A new key goes to the end of the map. -/
theorem dmapSet_new {m : List (BitString × Symbol)} {k : BitString} (v : Symbol) (h : k ∉ m.map Prod.fst) :
    dmapSet m k v = m ++ [(k, v)] := by
  induction m with
  | nil => rfl
  | cons e m ih =>
    obtain ⟨c, w⟩ := e
    simp only [List.map_cons, List.mem_cons, not_or] at h
    simp [dmapSet, Ne.symm h.1, ih h.2]

theorem dmapFind_eq_some {m : List (BitString × Symbol)} (hm : (m.map Prod.fst).Nodup) (k : BitString) (v : Symbol) :
    dmapFind m k = some v ↔ (k, v) ∈ m := by
  induction m with
  | nil => simp [dmapFind]
  | cons e m ih =>
    obtain ⟨c, w⟩ := e
    simp only [List.map_cons, List.nodup_cons] at hm
    by_cases hc : c = k
    · subst hc
      have : ∀ x, (c, x) ∉ m := fun x hx => hm.1 (List.mem_map_of_mem (f := Prod.fst) hx)
      simp [dmapFind, this, eq_comm]
    · simp [dmapFind, hc, ih hm.2, Ne.symm hc]

theorem dmapFind_eq_none (m : List (BitString × Symbol)) (k : BitString) :
    dmapFind m k = none ↔ k ∉ m.map Prod.fst := by
  induction m with
  | nil => simp [dmapFind]
  | cons e m ih =>
    obtain ⟨c, w⟩ := e
    by_cases hc : c = k
    · simp [dmapFind, hc]
    · simp [dmapFind, hc, ih, Ne.symm hc]

/-! ## Memory -/

theorem memRead_memWrite (m : Memory) (a a' : Nat) (b : Byte) :
    memRead (memWrite m a b) a' = if a = a' then some b else memRead m a' := by
  induction m with
  | nil => simp [memWrite, memRead]
  | cons e m ih =>
    obtain ⟨k, v⟩ := e
    simp only [memWrite]
    split
    · simp [memRead]
    · split
      · next h => subst h; by_cases hk : a = a' <;> simp [memRead, hk]
      · next h1 h2 =>
        by_cases hk : k = a'
        · subst hk; simp [memRead, h2]
        · simp [memRead, hk, ih]

@[simp] theorem memRead_memWrite_same (m : Memory) (a : Nat) (b : Byte) : memRead (memWrite m a b) a = some b := by
  simp [memRead_memWrite]

theorem memRead_memWrite_ne (m : Memory) {a a' : Nat} (h : a ≠ a') (b : Byte) :
    memRead (memWrite m a b) a' = memRead m a' := by
  simp [memRead_memWrite, h]

theorem mem_memWrite {m : Memory} {a : Nat} {b : Byte} {c : Host.Cell} (h : c ∈ memWrite m a b) :
    c = (a, b) ∨ c ∈ m := by
  induction m with
  | nil => simpa [memWrite] using h
  | cons e m ih =>
    obtain ⟨k, v⟩ := e
    simp only [memWrite] at h
    split at h
    · simpa using h
    · split at h
      · simp only [List.mem_cons] at h ⊢; tauto
      · simp only [List.mem_cons] at h ⊢
        rcases h with h | h
        · tauto
        · have := ih h; tauto

/-- A write keeps the canonical form. -/
theorem memWrite_wf {m : Memory} (h : Memory.wf m) (a : Nat) (b : Byte) : Memory.wf (memWrite m a b) := by
  induction m with
  | nil => simp [memWrite, Memory.wf]
  | cons e m ih =>
    obtain ⟨k, v⟩ := e
    simp only [Memory.wf, List.pairwise_cons] at h
    simp only [memWrite]
    split
    · next hk =>
      simp only [Memory.wf, List.pairwise_cons, List.mem_cons, forall_eq_or_imp]
      exact ⟨⟨hk, fun x hx => lt_trans hk (h.1 x hx)⟩, h.1, h.2⟩
    · split
      · next hk => subst hk; simpa [Memory.wf] using h
      · next h1 h2 =>
        simp only [Memory.wf, List.pairwise_cons]
        refine ⟨fun x hx => ?_, ih h.2⟩
        rcases mem_memWrite hx with rfl | hx
        · exact lt_of_le_of_ne (Nat.le_of_not_lt h1) (Ne.symm h2)
        · exact h.1 x hx

theorem memWrite_range {m : Memory} {n a : Nat} {b : Byte} (h : ∀ c ∈ m, c.1 < n) (ha : a < n) :
    ∀ c ∈ memWrite m a b, c.1 < n := by
  intro c hc
  rcases mem_memWrite hc with rfl | hc
  · exact ha
  · exact h c hc

/-- Two canonical memories that read the same at every address are the same list. -/
theorem memory_ext {m m' : Memory} (h : Memory.wf m) (h' : Memory.wf m') (he : ∀ a, memRead m a = memRead m' a) :
    m = m' := by
  have hnone : ∀ {m : Memory} {a : Nat}, (∀ c ∈ m, a < c.1) → memRead m a = none := by
    intro m a hm
    induction m with
    | nil => rfl
    | cons e m ih =>
      have h1 := hm e (by simp)
      simp only [memRead, Nat.ne_of_gt h1, if_false]
      exact ih fun c hc => hm c (by simp [hc])
  induction m generalizing m' with
  | nil =>
    cases m' with
    | nil => rfl
    | cons e m' => simpa [memRead] using he e.1
  | cons e m ih =>
    cases m' with
    | nil => simpa [memRead] using he e.1
    | cons e' m' =>
      obtain ⟨k, v⟩ := e
      obtain ⟨k', v'⟩ := e'
      simp only [Memory.wf, List.pairwise_cons] at h h'
      have hk : k = k' := by
        rcases Nat.lt_trichotomy k k' with hlt | heq | hlt
        · have := he k
          rw [hnone (m := (k', v') :: m') (a := k)] at this
          · simp [memRead] at this
          · intro c hc
            rcases List.mem_cons.1 hc with rfl | hc
            · exact hlt
            · exact lt_trans hlt (h'.1 c hc)
        · exact heq
        · have := he k'
          rw [hnone (m := (k, v) :: m) (a := k')] at this
          · simp [memRead] at this
          · intro c hc
            rcases List.mem_cons.1 hc with rfl | hc
            · exact hlt
            · exact lt_trans hlt (h.1 c hc)
      subst hk
      have hv : v = v' := by simpa [memRead] using he k
      subst hv
      congr 1
      refine ih h.2 h'.2 fun a => ?_
      by_cases ha : k = a
      · subst ha
        rw [hnone h.1, hnone h'.1]
      · simpa [memRead, ha] using he a

/-- The bytes of OUT_MEM after StoreByte has stored `v` (20_memory.md R50). -/
theorem outByte_putOut (s : State) (v : Byte) (i : Nat) :
    outByte (s.putOut v) i = if i = s.outLen.toNat then v else outByte s i := by
  by_cases h : i = s.outLen.toNat
  · subst h; simp [outByte]
  · simp [outByte, memRead_memWrite, Ne.symm h, h]

end Sys2Proof.Machine
end

