-- ==== Sys2Proof/Laws/Streams.lean ====
section
/-! SUPPORT. The bit writer and the bit reader: what each can do, said once (20_memory.md R46 to R55). -/

namespace Sys2Proof.Machine

/-! ## Sequencing -/

theorem cmd_bind_ok {α β : Type} {c : Cmd α} {f : α → Cmd β} {s t : State} {a : α} (h : c s = .ok a t) :
    (c >>= f) s = f a t := by
  simp [bind, EStateM.bind, h]

theorem cmd_bind_error {α β : Type} {c : Cmd α} {f : α → Cmd β} {s t : State} {e : ErrorCode} (h : c s = .error e t) :
    (c >>= f) s = .error e t := by
  simp [bind, EStateM.bind, h]

@[simp] theorem cmd_pure {α : Type} (a : α) (s : State) : (pure a : Cmd α) s = .ok a s := rfl

@[simp] theorem cmd_throw {α : Type} (e : ErrorCode) (s : State) : (throw e : Cmd α) s = .error e s := rfl

@[simp] theorem cmd_modify (f : State → State) (s : State) : (modify f : Cmd Unit) s = .ok () (f s) := rfl

@[simp] theorem cmd_get (s : State) : (get : Cmd State) s = .ok s s := rfl

/-- A command that ends passed through its first part. -/
theorem cmd_bind_eq_ok {α β : Type} {c : Cmd α} {f : α → Cmd β} {s u : State} {b : β} :
    (c >>= f) s = .ok b u ↔ ∃ a t, c s = .ok a t ∧ f a t = .ok b u := by
  simp only [bind, EStateM.bind]
  cases h : c s <;> simp

/-! ## Bit order -/

@[simp] theorem msbFirst_length {n : Nat} (v : BitVec n) : (msbFirst v).length = n := by simp [msbFirst]

theorem msbFirst_getElem {n : Nat} (v : BitVec n) (k : Nat) (h : k < (msbFirst v).length) :
    (msbFirst v)[k] = v.getLsbD (n - 1 - k) := by simp [msbFirst]

/-- The number whose binary digits, most significant first, are `bs` after those of `v` (20_memory.md R55). -/
def bitsInto (v : Nat) (bs : BitString) : Nat := bs.foldl (fun v b => 2 * v + b.toNat) v

theorem bitsInto_testBit (bs : BitString) (v k : Nat) :
    (bitsInto v bs).testBit k =
      if h : k < bs.length then bs[bs.length - 1 - k] else v.testBit (k - bs.length) := by
  induction bs using List.reverseRecOn generalizing k with
  | nil => simp [bitsInto]
  | append_singleton bs b ih =>
    have hv : bitsInto v (bs ++ [b]) = 2 * bitsInto v bs + b.toNat := by simp [bitsInto]
    rw [hv]
    cases k with
    | zero => cases b <;> simp
    | succ k =>
      have hdiv : (2 * bitsInto v bs + b.toNat) / 2 = bitsInto v bs := by (cases b <;> simp); omega
      rw [Nat.testBit_succ, hdiv, ih]
      by_cases hk : k < bs.length
      · have h1 : k + 1 < (bs ++ [b]).length := by simp; omega
        simp only [hk, h1, dite_true]
        rw [List.getElem_append_left (by simp; omega)]
        congr 1
        simp; omega
      · have h1 : ¬ k + 1 < (bs ++ [b]).length := by simp; omega
        simp only [hk, h1, dite_false]
        congr 1
        simp

/-- Reading back the bits of a value, most significant first, gives the value (20_memory.md R47). -/
theorem ofNat_bitsInto_msbFirst {n : Nat} (v : BitVec n) : BitVec.ofNat n (bitsInto 0 (msbFirst v)) = v := by
  apply BitVec.eq_of_getLsbD_eq
  intro i hi
  rw [BitVec.getLsbD_ofNat, bitsInto_testBit, dif_pos (by simpa using hi), msbFirst_getElem]
  simp only [hi, decide_true, Bool.true_and, msbFirst_length]
  congr 1
  omega

/-- The bits of the value read from `n` bits are those bits. -/
theorem msbFirst_ofNat_bitsInto (bs : BitString) : msbFirst (BitVec.ofNat bs.length (bitsInto 0 bs)) = bs := by
  apply List.ext_getElem (by simp)
  intro k h1 h2
  have hk : bs.length - 1 - k < bs.length := by omega
  rw [msbFirst_getElem]
  simp only [BitVec.getLsbD_ofNat, hk, decide_true, Bool.true_and, bitsInto_testBit, dite_true]
  congr 1
  omega

theorem shiftIn_getLsbD (buf : BitVec 8) (b : Bool) (j : Nat) :
    (shiftIn buf b).getLsbD j = if j = 0 then b else (decide (j < 8) && buf.getLsbD (j - 1)) := by
  cases j with
  | zero => simp [shiftIn]
  | succ j => simp [shiftIn]

/-! ## The writer -/

/-- What writing can change: the accumulator, OUT_LEN, and OUT_MEM from OUT_LEN on (20_memory.md R50, R51). -/
structure WriteFrame (s t : State) : Prop where
  others : t = { s with outMem := t.outMem, outLen := t.outLen, wbuf := t.wbuf, wcnt := t.wcnt }
  grows : s.outLen.toNat ≤ t.outLen.toNat
  fits : s.outLen.toNat ≤ s.outCap.toNat → t.outLen.toNat ≤ s.outCap.toNat
  outside : ∀ i, i < s.outLen.toNat ∨ t.outLen.toNat ≤ i → outByte t i = outByte s i
  wf : Memory.wf s.outMem → Memory.wf t.outMem
  range : s.outLen.toNat ≤ s.outCap.toNat → (∀ c ∈ s.outMem, c.1 < s.outCap.toNat) → ∀ c ∈ t.outMem, c.1 < s.outCap.toNat

/-- Writing has appended the bits `bs` to the stream. -/
structure Wrote (s t : State) (bs : BitString) : Prop extends WriteFrame s t where
  stream : outStream t = outStream s ++ bs

@[simp] theorem outStream_length (s : State) : (outStream s).length = streamLen s := by simp [outStream]

theorem WriteFrame.refl (s : State) : WriteFrame s s :=
  ⟨rfl, le_refl _, id, fun _ _ => rfl, id, fun _ => id⟩

theorem WriteFrame.outCap {s t : State} (h : WriteFrame s t) : t.outCap = s.outCap := by rw [h.others]

theorem WriteFrame.trans {s t u : State} (h : WriteFrame s t) (k : WriteFrame t u) : WriteFrame s u where
  others := by rw [k.others, h.others]
  grows := le_trans h.grows k.grows
  fits hs := by have := k.fits; rw [h.outCap] at this; exact this (h.fits hs)
  outside i hi := by
    have h1 := h.grows
    have h2 := k.grows
    rw [k.outside i (by omega), h.outside i (by omega)]
  wf hs := k.wf (h.wf hs)
  range hs hr := by
    have := k.range
    rw [h.outCap] at this
    exact this (h.fits hs) (h.range hs hr)

theorem Wrote.refl (s : State) : Wrote s s [] := ⟨WriteFrame.refl s, by simp⟩

theorem Wrote.trans {s t u : State} {a b : BitString} (h : Wrote s t a) (k : Wrote t u b) : Wrote s u (a ++ b) :=
  ⟨h.toWriteFrame.trans k.toWriteFrame, by rw [k.stream, h.stream, List.append_assoc]⟩

theorem Wrote.streamLen {s t : State} {a : BitString} (h : Wrote s t a) :
    streamLen t = streamLen s + a.length := by
  have := congrArg List.length h.stream
  simpa using this

theorem outStream_eq_append {s t : State} {bs : BitString} (hl : streamLen t = streamLen s + bs.length)
    (ho : ∀ p, p < streamLen s → outBit t p = outBit s p)
    (hn : ∀ k (h : k < bs.length), outBit t (streamLen s + k) = bs[k]) : outStream t = outStream s ++ bs := by
  apply List.ext_getElem
  · simp [hl]
  · intro p h1 h2
    by_cases hp : p < streamLen s
    · rw [List.getElem_append_left (by simpa using hp)]
      simp [outStream, ho p hp]
    · obtain ⟨k, rfl⟩ := Nat.exists_eq_add_of_le (Nat.le_of_not_lt hp)
      have hk : k < bs.length := by simp at h2; omega
      rw [List.getElem_append_right (by simp)]
      simp [outStream, hn k hk]

/-- StoreByte of the accumulator's byte `v`: the store that ends a byte of the stream (20_memory.md R50). -/
theorem storeByte_ok {s : State} (v : Byte) (h : s.outLen.toNat < s.outCap.toNat) :
    storeByte v (s.withWriter 0 0) = .ok () ((s.withWriter 0 0).putOut v) := by
  have : s.outLen ≠ s.outCap := fun e => by rw [e] at h; exact lt_irrefl _ h
  simp [storeByte, this]

theorem storeByte_full {s : State} (v : Byte) (h : s.outLen = s.outCap) :
    storeByte v s = .error .outputOverflow s := by simp [storeByte, h]

theorem outLen_succ {s : State} (h : s.outLen.toNat < s.outCap.toNat) : (s.outLen + 1).toNat = s.outLen.toNat + 1 := by
  have := s.outCap.isLt
  rw [BitVec.toNat_add]
  simp
  omega

theorem outLen_store {s : State} (v : Byte) (h : s.outLen.toNat < s.outCap.toNat) :
    ((s.withWriter 0 0).putOut v).outLen.toNat = s.outLen.toNat + 1 := by
  simpa using outLen_succ h

theorem outByte_store (s : State) (v : Byte) (i : Nat) :
    outByte ((s.withWriter 0 0).putOut v) i = if i = s.outLen.toNat then v else outByte s i :=
  outByte_putOut (s.withWriter 0 0) v i

theorem writeFrame_putOut {s : State} (v : Byte) (h : s.outLen.toNat < s.outCap.toNat) :
    WriteFrame s ((s.withWriter 0 0).putOut v) where
  others := rfl
  grows := by rw [outLen_store v h]; omega
  fits _ := by rw [outLen_store v h]; omega
  outside i hi := by
    rw [outLen_store v h] at hi
    rw [outByte_store, if_neg (by omega)]
  wf hs := by simpa using memWrite_wf hs _ _
  range _ hr := by simpa using memWrite_range hr h

theorem writeFrame_withWriter (s : State) (buf : BitVec 8) (cnt : BitVec 3) : WriteFrame s (s.withWriter buf cnt) where
  others := rfl
  grows := le_refl _
  fits := id
  outside _ _ := rfl
  wf := id
  range _ := id

/-- A byte that completes the held bits: they, then the rest of the byte's bits, are the stream. -/
theorem outStream_putOut {s : State} {v : Byte} (h : s.outLen.toNat < s.outCap.toNat)
    (hold : ∀ r, r < s.wcnt.toNat → v.getLsbD (7 - r) = s.wbuf.getLsbD (s.wcnt.toNat - 1 - r)) :
    outStream ((s.withWriter 0 0).putOut v) = outStream s ++ (msbFirst v).drop s.wcnt.toNat := by
  have hc : s.wcnt.toNat < 8 := s.wcnt.isLt
  have hs := outLen_store v h
  apply outStream_eq_append
  · simp only [streamLen, hs, State.putOut_wcnt, State.withWriter_wcnt, List.length_drop, msbFirst_length]
    simp; omega
  · intro p hp
    simp only [streamLen] at hp
    simp only [outBit, outByte_store, hs]
    rw [if_pos (by omega)]
    by_cases h8 : p / 8 < s.outLen.toNat
    · rw [if_neg (by omega), if_pos h8]
    · have : p / 8 = s.outLen.toNat := by omega
      rw [if_pos this, if_neg h8, hold _ (by omega)]
  · intro k hk
    simp only [List.length_drop, msbFirst_length] at hk
    have h1 : (streamLen s + k) / 8 = s.outLen.toNat := by simp only [streamLen]; omega
    have h2 : (streamLen s + k) % 8 = s.wcnt.toNat + k := by simp only [streamLen]; omega
    simp only [outBit, outByte_store, hs, h1, h2]
    rw [if_pos (by omega), if_pos trivial, List.getElem_drop, msbFirst_getElem]

theorem wcnt_succ {s : State} (h : s.wcnt.toNat + 1 ≠ 8) : (s.wcnt + 1).toNat = s.wcnt.toNat + 1 := by
  have := s.wcnt.isLt
  rw [BitVec.toNat_add]
  simp
  omega

/-- WriteBit, when the byte it may complete fits (20_memory.md R51). -/
theorem writeBit_ok {s : State} (b : Bool) (hs : s.outLen.toNat ≤ s.outCap.toNat)
    (h : (streamLen s + 1) / 8 ≤ s.outCap.toNat) : ∃ t, writeBit b s = .ok () t ∧ Wrote s t [b] := by
  have hc : s.wcnt.toNat < 8 := s.wcnt.isLt
  simp only [streamLen] at h
  by_cases h7 : s.wcnt.toNat + 1 = 8
  · have hlt : s.outLen.toNat < s.outCap.toNat := by omega
    refine ⟨(s.withWriter 0 0).putOut (shiftIn s.wbuf b), ?_, writeFrame_putOut _ hlt, ?_⟩
    · simp only [writeBit, h7, if_true]
      exact storeByte_ok _ hlt
    · rw [outStream_putOut hlt]
      · congr 1
        have h7' : s.wcnt.toNat = 7 := by omega
        rw [h7']
        simp [msbFirst, List.range_succ, shiftIn_getLsbD]
      · intro r hr
        rw [shiftIn_getLsbD, if_neg (by omega)]
        have : 7 - r < 8 := by omega
        simp only [this, decide_true, Bool.true_and]
        congr 1; omega
  · have hsucc := wcnt_succ h7
    refine ⟨_, by simp only [writeBit, h7, if_false]; rfl, writeFrame_withWriter _ _ _, ?_⟩
    apply outStream_eq_append
    · simp only [streamLen, State.withWriter_outLen, State.withWriter_wcnt, hsucc]; simp; omega
    · intro p hp
      simp only [streamLen] at hp
      simp only [outBit, State.withWriter_outLen, State.withWriter_wbuf, State.withWriter_wcnt, hsucc]
      split
      · rfl
      · rw [shiftIn_getLsbD, if_neg (by omega)]
        have : s.wcnt.toNat + 1 - 1 - p % 8 < 8 := by omega
        simp only [this, decide_true, Bool.true_and]
        congr 1; omega
    · intro k hk
      have : k = 0 := by simpa using hk
      subst this
      have h1 : ¬ (streamLen s + 0) / 8 < s.outLen.toNat := by simp only [streamLen]; omega
      have h2 : (streamLen s + 0) % 8 = s.wcnt.toNat := by simp only [streamLen]; omega
      simp only [outBit, State.withWriter_outLen, State.withWriter_wbuf, State.withWriter_wcnt, hsucc, h1, if_false, h2]
      simp only [Nat.add_sub_cancel, Nat.sub_self, shiftIn_getLsbD]
      rfl

/-- WriteBit, when the byte it completes does not fit (20_memory.md R50). -/
theorem writeBit_full {s : State} (b : Bool) (hs : s.outLen.toNat ≤ s.outCap.toNat)
    (h : s.outCap.toNat < (streamLen s + 1) / 8) : ∃ t, writeBit b s = .error .outputOverflow t ∧ WriteFrame s t := by
  have hc : s.wcnt.toNat < 8 := s.wcnt.isLt
  simp only [streamLen] at h
  have h7 : s.wcnt.toNat + 1 = 8 := by omega
  have he : s.outLen = s.outCap := BitVec.eq_of_toNat_eq (by omega)
  refine ⟨_, ?_, writeFrame_withWriter s 0 0⟩
  simp only [writeBit, h7, if_true]
  exact storeByte_full _ (by simpa using he)

/-- Writing a bit string that fits (20_memory.md R47, R51). -/
theorem writeString_ok {bs : BitString} {s : State} (hs : s.outLen.toNat ≤ s.outCap.toNat)
    (h : (streamLen s + bs.length) / 8 ≤ s.outCap.toNat) : ∃ t, writeString bs s = .ok () t ∧ Wrote s t bs := by
  induction bs generalizing s with
  | nil => exact ⟨s, rfl, Wrote.refl s⟩
  | cons b bs ih =>
    simp only [List.length_cons] at h
    obtain ⟨t, ht, hw⟩ := writeBit_ok b hs (by omega)
    have hl := hw.streamLen
    simp only [List.length_singleton] at hl
    have hcap := hw.outCap
    obtain ⟨u, hu, hw'⟩ := ih (s := t) (by rw [hcap]; exact hw.fits hs) (by rw [hl, hcap]; omega)
    exact ⟨u, by rw [writeString, cmd_bind_ok ht, hu], hw.trans hw'⟩

/-- Writing a bit string that does not fit raises OUTPUT_OVERFLOW (20_memory.md R52). -/
theorem writeString_full {bs : BitString} {s : State} (hs : s.outLen.toNat ≤ s.outCap.toNat)
    (h : s.outCap.toNat < (streamLen s + bs.length) / 8) :
    ∃ t, writeString bs s = .error .outputOverflow t ∧ WriteFrame s t := by
  induction bs generalizing s with
  | nil =>
    have hc : s.wcnt.toNat < 8 := s.wcnt.isLt
    simp only [streamLen, List.length_nil] at h
    omega
  | cons b bs ih =>
    simp only [List.length_cons] at h
    by_cases hb : (streamLen s + 1) / 8 ≤ s.outCap.toNat
    · obtain ⟨t, ht, hw⟩ := writeBit_ok b hs hb
      have hl := hw.streamLen
      simp only [List.length_singleton] at hl
      have hcap := hw.outCap
      obtain ⟨u, hu, hw'⟩ := ih (s := t) (by rw [hcap]; exact hw.fits hs) (by rw [hl, hcap]; omega)
      exact ⟨u, by rw [writeString, cmd_bind_ok ht, hu], hw.toWriteFrame.trans hw'⟩
    · obtain ⟨t, ht, hf⟩ := writeBit_full b hs (Nat.lt_of_not_le hb)
      exact ⟨t, by rw [writeString, cmd_bind_error ht], hf⟩

theorem writeString_append (a b : BitString) : writeString (a ++ b) = (do writeString a; writeString b) := by
  induction a with
  | nil => funext s; rfl
  | cons x a ih =>
    simp only [List.cons_append, writeString, ih]
    funext s
    simp only [bind, EStateM.bind]
    cases writeBit x s <;> rfl

theorem padBits_length (n : Nat) : (padBits n).length = (8 - n % 8) % 8 := by simp [padBits]

/-- Flush pads the stream to a byte boundary (20_memory.md R53). -/
theorem flush_ok {s : State} (hs : s.outLen.toNat ≤ s.outCap.toNat)
    (h : (streamLen s + (padBits (streamLen s)).length) / 8 ≤ s.outCap.toNat) :
    ∃ t, flush s = .ok () t ∧ Wrote s t (padBits (streamLen s)) ∧ t.wcnt = 0 := by
  have hc : s.wcnt.toNat < 8 := s.wcnt.isLt
  have hm : streamLen s % 8 = s.wcnt.toNat := by simp only [streamLen]; omega
  rw [padBits_length, hm] at h
  simp only [streamLen] at h
  by_cases h0 : 0 < s.wcnt.toNat
  · have hlt : s.outLen.toNat < s.outCap.toNat := by omega
    refine ⟨_, by simp only [flush, h0, if_true]; exact storeByte_ok _ hlt, ⟨writeFrame_putOut _ hlt, ?_⟩, by simp⟩
    rw [outStream_putOut hlt]
    · congr 1
      apply List.ext_getElem
      · simp [padBits, hm]; omega
      · intro k h1 h2
        rw [List.getElem_drop, msbFirst_getElem]
        simp only [padBits, List.getElem_replicate, BitVec.getLsbD_shiftLeft]
        have : 8 - 1 - (s.wcnt.toNat + k) < 8 - s.wcnt.toNat := by omega
        simp [this]
    · intro r hr
      rw [BitVec.getLsbD_shiftLeft]
      have h1 : 7 - r < 8 := by omega
      have h2 : ¬ 7 - r < 8 - s.wcnt.toNat := by omega
      simp only [h1, h2, decide_true, decide_false, Bool.not_false, Bool.true_and]
      congr 1; omega
  · have h0' : s.wcnt.toNat = 0 := by omega
    refine ⟨s, by simp only [flush, h0, if_false], ?_, BitVec.eq_of_toNat_eq (by simpa using h0')⟩
    have : padBits (streamLen s) = [] := by simp [padBits, hm, h0']
    rw [this]
    exact Wrote.refl s

theorem flush_full {s : State} (hs : s.outLen.toNat ≤ s.outCap.toNat)
    (h : s.outCap.toNat < (streamLen s + (padBits (streamLen s)).length) / 8) :
    ∃ t, flush s = .error .outputOverflow t ∧ WriteFrame s t := by
  have hc : s.wcnt.toNat < 8 := s.wcnt.isLt
  have hm : streamLen s % 8 = s.wcnt.toNat := by simp only [streamLen]; omega
  rw [padBits_length, hm] at h
  simp only [streamLen] at h
  have h0 : 0 < s.wcnt.toNat := by omega
  have he : s.outLen = s.outCap := BitVec.eq_of_toNat_eq (by omega)
  refine ⟨_, ?_, writeFrame_withWriter s 0 0⟩
  simp only [flush, h0, if_true]
  exact storeByte_full _ (by simpa using he)

/-! ## The reader -/

/-- The state with the bit reader at position `p` (10_state.md R32). -/
def State.readTo (s : State) (p : Nat) : State := { s with rpos := BitVec.ofNat 64 p }

theorem inBit_readTo (s : State) (p q : Nat) : inBit (s.readTo p) q = inBit s q := rfl

theorem readTo_readTo (s : State) (p q : Nat) : (s.readTo p).readTo q = s.readTo q := rfl

theorem readTo_self (s : State) : s.readTo s.rpos.toNat = s := by simp [State.readTo]

@[simp] theorem readTo_inLen (s : State) (p : Nat) : (s.readTo p).inLen = s.inLen := rfl

theorem readTo_rpos (s : State) {p : Nat} (h : p < 2 ^ 64) : (s.readTo p).rpos.toNat = p := by
  simp only [State.readTo, BitVec.toNat_ofNat]
  exact Nat.mod_eq_of_lt h

theorem inStream_length (s : State) (p n : Nat) : (inStream s p n).length = n := by simp [inStream]

theorem inStream_succ (s : State) (p n : Nat) : inStream s p (n + 1) = inBit s p :: inStream s (p + 1) n := by
  simp [inStream, List.range_succ_eq_map, Function.comp_def, Nat.add_comm, Nat.add_left_comm]

theorem inStream_add (s : State) (p m n : Nat) : inStream s p (m + n) = inStream s p m ++ inStream s (p + m) n := by
  induction m generalizing p with
  | zero => simp [inStream]
  | succ m ih =>
    rw [Nat.succ_add, inStream_succ, inStream_succ, ih, List.cons_append]
    congr 3; omega

theorem inStream_readTo (s : State) (p q n : Nat) : inStream (s.readTo q) p n = inStream s p n := rfl

theorem readBit_ok {e : ErrorCode} {s : State} (h : s.rpos.toNat < 8 * s.inLen.toNat) :
    readBit e s = .ok (inBit s s.rpos.toNat) (s.readTo (s.rpos.toNat + 1)) := by
  simp only [readBit, Nat.not_le_of_lt h, if_false]
  congr 1

theorem readBit_end {e : ErrorCode} {s : State} (h : 8 * s.inLen.toNat ≤ s.rpos.toNat) :
    readBit e s = .error e s := by
  simp only [readBit, h, if_true]

/-- ReadBits, when the input holds the bits (20_memory.md R55). -/
theorem readBitsInto_ok {n : Nat} {e : ErrorCode} {v : Nat} {s : State} (hl : 8 * s.inLen.toNat < 2 ^ 64)
    (h : s.rpos.toNat + n ≤ 8 * s.inLen.toNat) :
    readBitsInto n e v s = .ok (bitsInto v (inStream s s.rpos.toNat n)) (s.readTo (s.rpos.toNat + n)) := by
  induction n generalizing s v with
  | zero => simp [readBitsInto, bitsInto, inStream, readTo_self]
  | succ n ih =>
    have hp := readTo_rpos s (p := s.rpos.toNat + 1) (by omega)
    rw [readBitsInto, cmd_bind_ok (readBit_ok (by omega)),
      ih (by rwa [readTo_inLen]) (by rw [hp, readTo_inLen]; omega)]
    rw [hp, inStream_readTo, inStream_succ, readTo_readTo,
      (by omega : s.rpos.toNat + (n + 1) = s.rpos.toNat + 1 + n)]
    rfl

/-- ReadBits, when the input ends inside the bits: all that is left is consumed (20_memory.md R54, R55). -/
theorem readBitsInto_end {n : Nat} {e : ErrorCode} {v : Nat} {s : State} (hl : 8 * s.inLen.toNat < 2 ^ 64)
    (hp : s.rpos.toNat ≤ 8 * s.inLen.toNat) (h : 8 * s.inLen.toNat < s.rpos.toNat + n) :
    readBitsInto n e v s = .error e (s.readTo (8 * s.inLen.toNat)) := by
  induction n generalizing s v with
  | zero => omega
  | succ n ih =>
    by_cases he : 8 * s.inLen.toNat ≤ s.rpos.toNat
    · have : 8 * s.inLen.toNat = s.rpos.toNat := by omega
      rw [readBitsInto, cmd_bind_error (readBit_end he), this, readTo_self]
    · have hq := readTo_rpos s (p := s.rpos.toNat + 1) (by omega)
      rw [readBitsInto, cmd_bind_ok (readBit_ok (by omega)), ih (by rwa [readTo_inLen])
        (by rw [hq, readTo_inLen]; omega) (by rw [hq, readTo_inLen]; omega)]
      rfl

theorem readBits_ok {n : Nat} {e : ErrorCode} {s : State} (hl : 8 * s.inLen.toNat < 2 ^ 64)
    (h : s.rpos.toNat + n ≤ 8 * s.inLen.toNat) :
    readBits n e s =
      .ok (BitVec.ofNat n (bitsInto 0 (inStream s s.rpos.toNat n))) (s.readTo (s.rpos.toNat + n)) := by
  rw [readBits, cmd_bind_ok (readBitsInto_ok hl h), cmd_pure]

theorem readBits_end {n : Nat} {e : ErrorCode} {s : State} (hl : 8 * s.inLen.toNat < 2 ^ 64)
    (hp : s.rpos.toNat ≤ 8 * s.inLen.toNat) (h : 8 * s.inLen.toNat < s.rpos.toNat + n) :
    readBits n e s = .error e (s.readTo (8 * s.inLen.toNat)) := by
  rw [readBits, cmd_bind_error (readBitsInto_end hl hp h)]

/-- The value read is the one whose bits stand in the input. -/
theorem ofNat_bitsInto_inStream {n : Nat} {s : State} {p : Nat} {v : BitVec n} (h : inStream s p n = msbFirst v) :
    BitVec.ofNat n (bitsInto 0 (inStream s p n)) = v := by
  rw [h, ofNat_bitsInto_msbFirst]

end Sys2Proof.Machine
end

