-- ==== Sys2Proof/Laws/Trees.lean ====
section
/-! SUPPORT. The tree segment: what SER writes and what DSR reads (43_tree_serializer.md R92 to R97). -/

namespace Sys2Proof.Machine

theorem leafCount_eq (t : HuffTree) : leafCount t = internalCount t + 1 := by
  induction t with
  | leaf s => rfl
  | node l r ihl ihr => simp only [leafCount, internalCount, ihl, ihr]; omega

theorem leafCount_pos (t : HuffTree) : 0 < leafCount t := by rw [leafCount_eq]; omega

theorem treeBits_eq (t : HuffTree) : treeBits t = 10 * internalCount t + 9 := by
  rw [treeBits, leafCount_eq]; omega

theorem treeBits_node (l r : HuffTree) : treeBits (.node l r) = 1 + treeBits l + treeBits r := by
  simp only [treeBits_eq, internalCount]; omega

/-- A tree of L leaves serializes to 10 L - 1 bits (43_tree_serializer.md R93). -/
@[simp] theorem serBits_length (t : HuffTree) : (serBits t).length = treeBits t := by
  induction t with
  | leaf s => simp [serBits, treeBits, leafCount]
  | node l r ihl ihr => rw [treeBits_node]; simp [serBits, ihl, ihr]; omega

@[simp] theorem leafSymbols_length (t : HuffTree) : (leafSymbols t).length = leafCount t := by
  induction t with
  | leaf s => rfl
  | node l r ihl ihr => simp [leafSymbols, leafCount, ihl, ihr]

/-- SerNode writes the preorder serialization (43_tree_serializer.md R92). -/
theorem serNode_eq (t : HuffTree) : serNode t = writeString (serBits t) := by
  induction t with
  | leaf s => rfl
  | node l r ihl ihr => rw [serNode, ihl, ihr, serBits, writeString, writeString_append]

/-- SER's body, when the tree fits (43_tree_serializer.md R92). -/
theorem ser_ok {t : HuffTree} {s : State} (hs : s.outLen.toNat ≤ s.outCap.toNat)
    (h : (streamLen s + treeBits t) / 8 ≤ s.outCap.toNat) :
    ∃ u, ser t s = .ok () u.treeWritten ∧ Wrote s u (serBits t) := by
  obtain ⟨u, hu, hw⟩ := writeString_ok (bs := serBits t) hs (by simpa using h)
  exact ⟨u, by rw [ser, serNode_eq, cmd_bind_ok hu, cmd_modify], hw⟩

theorem ser_full {t : HuffTree} {s : State} (hs : s.outLen.toNat ≤ s.outCap.toNat)
    (h : s.outCap.toNat < (streamLen s + treeBits t) / 8) :
    ∃ u, ser t s = .error .outputOverflow u ∧ WriteFrame s u := by
  obtain ⟨u, hu, hw⟩ := writeString_full (bs := serBits t) hs (by simpa using h)
  exact ⟨u, by rw [ser, serNode_eq, cmd_bind_error hu], hw⟩

/-! ## Reading a tree -/

/-- One level of DsrNode at the end of the input (43_tree_serializer.md R94). -/
theorem dsrNode_end {d i : Nat} {s : State} (h : 8 * s.inLen.toNat ≤ s.rpos.toNat) :
    dsrNode (d + 1) i s = .error .malformedStream s := by
  rw [dsrNode, cmd_bind_error (readBit_end h)]

/-- One level of DsrNode whose control bit is 1 (43_tree_serializer.md R94). -/
theorem dsrNode_leaf {d i : Nat} {s : State} (h : s.rpos.toNat < 8 * s.inLen.toNat)
    (hb : inBit s s.rpos.toNat = true) :
    dsrNode (d + 1) i s =
      (readBits 8 .malformedStream >>= fun v => pure (.leaf v, i)) (s.readTo (s.rpos.toNat + 1)) := by
  rw [dsrNode, cmd_bind_ok (readBit_ok h), hb]
  rfl

/-- One level of DsrNode whose control bit is 0, at the limit of internal nodes (43_tree_serializer.md R95). -/
theorem dsrNode_limit {d : Nat} {s : State} (h : s.rpos.toNat < 8 * s.inLen.toNat)
    (hb : inBit s s.rpos.toNat = false) :
    dsrNode (d + 1) maxInternal s = .error .malformedStream (s.readTo (s.rpos.toNat + 1)) := by
  rw [dsrNode, cmd_bind_ok (readBit_ok h), hb]
  rfl

/-- One level of DsrNode whose control bit is 0, below the limit (43_tree_serializer.md R94). -/
theorem dsrNode_node {d i : Nat} {s : State} (h : s.rpos.toNat < 8 * s.inLen.toNat)
    (hb : inBit s s.rpos.toNat = false) (hi : i ≠ maxInternal) :
    dsrNode (d + 1) i s =
      (dsrNode d (i + 1) >>= fun p => dsrNode d p.2 >>= fun q => pure (.node p.1 q.1, q.2))
        (s.readTo (s.rpos.toNat + 1)) := by
  rw [dsrNode, cmd_bind_ok (readBit_ok h), hb]
  simp only [Bool.false_eq_true, if_false, hi]

/-- DsrNode reads back a serialized tree (43_tree_serializer.md R97). -/
theorem dsrNode_complete {t : HuffTree} {d i : Nat} {s : State} (hd : internalCount t < d)
    (hi : i + internalCount t ≤ maxInternal) (hl : 8 * s.inLen.toNat < 2 ^ 64)
    (hn : s.rpos.toNat + treeBits t ≤ 8 * s.inLen.toNat) (hin : inStream s s.rpos.toNat (treeBits t) = serBits t) :
    dsrNode d i s = .ok (t, i + internalCount t) (s.readTo (s.rpos.toNat + treeBits t)) := by
  induction t generalizing d i s with
  | leaf v =>
    obtain ⟨d, rfl⟩ := Nat.exists_eq_succ_of_ne_zero (by omega : d ≠ 0)
    have hT : treeBits (.leaf v) = 8 + 1 := rfl
    rw [hT] at hn hin
    rw [inStream_succ, serBits] at hin
    obtain ⟨hb, hv⟩ := List.cons.inj hin
    have hp := readTo_rpos s (p := s.rpos.toNat + 1) (by omega)
    rw [Nat.succ_eq_add_one, dsrNode_leaf (by omega) hb,
      cmd_bind_ok (readBits_ok (by rwa [readTo_inLen]) (by rw [hp, readTo_inLen]; omega)), cmd_pure, hp, inStream_readTo,
      ofNat_bitsInto_inStream hv, readTo_readTo, hT]
    congr 2
  | node l r ihl ihr =>
    obtain ⟨d, rfl⟩ := Nat.exists_eq_succ_of_ne_zero (by omega : d ≠ 0)
    simp only [internalCount] at hd hi
    have hT := treeBits_node l r
    rw [hT] at hn hin
    have h0 : s.rpos.toNat < 8 * s.inLen.toNat := by have := leafCount_pos l; simp only [treeBits] at hn; omega
    rw [(by omega : 1 + treeBits l + treeBits r = (treeBits l + treeBits r) + 1), inStream_succ, serBits] at hin
    obtain ⟨hb, hlr⟩ := List.cons.inj hin
    rw [inStream_add] at hlr
    obtain ⟨hl', hr'⟩ := List.append_inj hlr (by rw [inStream_length, serBits_length])
    have hp := readTo_rpos s (p := s.rpos.toNat + 1) (by omega)
    have hq := readTo_rpos s (p := s.rpos.toNat + 1 + treeBits l) (by omega)
    rw [Nat.succ_eq_add_one, dsrNode_node h0 hb (by omega)]
    have hleft := ihl (d := d) (i := i + 1) (s := s.readTo (s.rpos.toNat + 1)) (by omega) (by omega)
      (by rwa [readTo_inLen]) (by rw [hp, readTo_inLen]; omega) (by rw [hp]; exact hl')
    rw [hp, readTo_readTo] at hleft
    have hright := ihr (d := d) (i := i + 1 + internalCount l) (s := s.readTo (s.rpos.toNat + 1 + treeBits l)) (by omega)
      (by omega) (by rwa [readTo_inLen]) (by rw [hq, readTo_inLen]; omega) (by rw [hq]; exact hr')
    rw [hq, readTo_readTo] at hright
    rw [cmd_bind_ok hleft, cmd_bind_ok hright, cmd_pure, internalCount, hT]
    congr 2
    · omega
    · omega

/-- A read stands at a position of the input (20_memory.md R54). -/
theorem rpos_lt_of_le {s : State} {p : Nat} (hl : 8 * s.inLen.toNat < 2 ^ 64) (h : p ≤ 8 * s.inLen.toNat) :
    (s.readTo p).rpos.toNat = p := readTo_rpos s (by omega)

/-- What DsrNode reads is a tree whose serialization stands in the input, and the reader then stands after it
(43_tree_serializer.md R94); otherwise it raises MALFORMED_STREAM somewhere in the input. -/
theorem dsrNode_cases (d i : Nat) (s : State) (hi : i ≤ maxInternal) (hl : 8 * s.inLen.toNat < 2 ^ 64)
    (hp : s.rpos.toNat ≤ 8 * s.inLen.toNat) :
    (∃ t, dsrNode d i s = .ok (t, i + internalCount t) (s.readTo (s.rpos.toNat + treeBits t)) ∧
      i + internalCount t ≤ maxInternal ∧ s.rpos.toNat + treeBits t ≤ 8 * s.inLen.toNat ∧
      inStream s s.rpos.toNat (treeBits t) = serBits t) ∨
    (∃ p, dsrNode d i s = .error .malformedStream (s.readTo p) ∧ s.rpos.toNat ≤ p ∧ p ≤ 8 * s.inLen.toNat) := by
  induction d generalizing i s with
  | zero => exact .inr ⟨s.rpos.toNat, by rw [readTo_self]; rfl, le_refl _, hp⟩
  | succ d ih =>
    by_cases hend : 8 * s.inLen.toNat ≤ s.rpos.toNat
    · exact .inr ⟨s.rpos.toNat, by rw [dsrNode_end hend, readTo_self], le_refl _, hp⟩
    have h0 : s.rpos.toNat < 8 * s.inLen.toNat := by omega
    have hp1 := rpos_lt_of_le (p := s.rpos.toNat + 1) hl (by omega)
    have hl1 : 8 * (s.readTo (s.rpos.toNat + 1)).inLen.toNat < 2 ^ 64 := by rwa [readTo_inLen]
    cases hb : inBit s s.rpos.toNat with
    | true =>
      rw [dsrNode_leaf h0 hb]
      by_cases h9 : s.rpos.toNat + 1 + 8 ≤ 8 * s.inLen.toNat
      · refine .inl ⟨.leaf (BitVec.ofNat 8 (bitsInto 0 (inStream s (s.rpos.toNat + 1) 8))), ?_, hi, h9, ?_⟩
        · rw [cmd_bind_ok (readBits_ok hl1 (by rw [hp1, readTo_inLen]; omega)), cmd_pure, hp1, inStream_readTo,
            readTo_readTo]
          rfl
        · rw [show treeBits (.leaf (BitVec.ofNat 8 (bitsInto 0 (inStream s (s.rpos.toNat + 1) 8)))) = 8 + 1 from rfl,
            inStream_succ, serBits, hb]
          congr 1
          have := msbFirst_ofNat_bitsInto (inStream s (s.rpos.toNat + 1) 8)
          rw [inStream_length] at this
          exact this.symm
      · refine .inr ⟨8 * s.inLen.toNat, ?_, hp, le_refl _⟩
        rw [cmd_bind_error (readBits_end hl1 (by rw [hp1, readTo_inLen]; omega) (by rw [hp1, readTo_inLen]; omega)),
          readTo_readTo, readTo_inLen]
    | false =>
      by_cases hmax : i = maxInternal
      · subst hmax
        exact .inr ⟨_, dsrNode_limit h0 hb, by omega, by omega⟩
      rw [dsrNode_node h0 hb hmax]
      rcases ih (i + 1) (s.readTo (s.rpos.toNat + 1)) (by omega) hl1 (by rw [hp1, readTo_inLen]; omega) with
        ⟨l, hd, hil, hbl, hsl⟩ | ⟨p, hd, hp2, hp3⟩
      · rw [hp1] at hd hbl hsl
        rw [readTo_inLen] at hbl
        have hq := rpos_lt_of_le hl hbl
        rw [readTo_readTo] at hd
        rw [cmd_bind_ok hd]
        rcases ih (i + 1 + internalCount l) (s.readTo (s.rpos.toNat + 1 + treeBits l)) hil (by rwa [readTo_inLen])
          (by rw [hq, readTo_inLen]; omega) with ⟨r, hd', hir, hbr, hsr⟩ | ⟨p, hd', hp2, hp3⟩
        · rw [hq] at hd' hbr hsr
          rw [readTo_inLen] at hbr
          rw [readTo_readTo] at hd'
          have hT := treeBits_node l r
          refine .inl ⟨.node l r, ?_, ?_, ?_, ?_⟩
          · rw [cmd_bind_ok hd', cmd_pure, internalCount, hT]
            congr 2
            · omega
            · omega
          · simp only [internalCount]; omega
          · omega
          · rw [hT, (by omega : 1 + treeBits l + treeBits r = (treeBits l + treeBits r) + 1), inStream_succ, inStream_add,
              hb, serBits]
            congr 2
        · rw [hq] at hp2
          rw [readTo_inLen] at hp3
          exact .inr ⟨p, by rw [cmd_bind_error hd', readTo_readTo], by omega, hp3⟩
      · rw [hp1] at hp2
        rw [readTo_inLen] at hp3
        exact .inr ⟨p, by rw [cmd_bind_error hd, readTo_readTo], by omega, hp3⟩

/-! ## Where DSR refuses the input -/

theorem serBits_append_inj {a b : HuffTree} {x y : BitString} (h : serBits a ++ x = serBits b ++ y) : a = b ∧ x = y := by
  induction a generalizing b x y with
  | leaf s =>
    cases b with
    | node l r => simp [serBits] at h
    | leaf v =>
      simp only [serBits, List.cons_append] at h
      obtain ⟨h1, h2⟩ := List.append_inj (List.cons.inj h).2 (by simp)
      refine ⟨?_, h2⟩
      rw [← ofNat_bitsInto_msbFirst s, h1, ofNat_bitsInto_msbFirst]
  | node l r ihl ihr =>
    cases b with
    | leaf v => simp [serBits] at h
    | node l' r' =>
      simp only [serBits, List.cons_append, List.append_assoc] at h
      obtain ⟨rfl, h1⟩ := ihl (List.cons.inj h).2
      obtain ⟨rfl, h2⟩ := ihr h1
      exact ⟨rfl, h2⟩

theorem beginsTree_nil {i : Nat} (hi : i ≤ maxInternal) : BeginsTree i [] :=
  ⟨.leaf 0, hi, List.nil_prefix⟩

theorem beginsTree_leaf {i : Nat} {bits : BitString} (hi : i ≤ maxInternal) (h : bits.length ≤ 8) :
    BeginsTree i (true :: bits) := by
  obtain ⟨v, hv⟩ : ∃ v : BitVec 8, msbFirst v = bits ++ List.replicate (8 - bits.length) false := by
    have h8 : (bits ++ List.replicate (8 - bits.length) false).length = 8 := by simp; omega
    have := msbFirst_ofNat_bitsInto (bits ++ List.replicate (8 - bits.length) false)
    rw [h8] at this
    exact ⟨_, this⟩
  exact ⟨.leaf v, hi, by rw [serBits, hv]; exact ⟨_, by rw [List.cons_append]⟩⟩

theorem beginsTree_left {i : Nat} {bits : BitString} (h : BeginsTree (i + 1) bits) : BeginsTree i (false :: bits) := by
  obtain ⟨t, h1, x, h2⟩ := h
  refine ⟨.node t (.leaf 0), by simp only [internalCount]; omega, x ++ serBits (.leaf 0), ?_⟩
  change _ = false :: (serBits t ++ serBits (.leaf 0))
  rw [← h2]; simp

theorem beginsTree_right {i : Nat} {l : HuffTree} {bits : BitString} (h : BeginsTree (i + 1 + internalCount l) bits) :
    BeginsTree i (false :: (serBits l ++ bits)) := by
  obtain ⟨t, h1, x, h2⟩ := h
  refine ⟨.node l t, by simp only [internalCount]; omega, x, ?_⟩
  change _ = false :: (serBits l ++ serBits t)
  rw [← h2]; simp

theorem beginsTree_right_iff {i : Nat} {l : HuffTree} {bits : BitString} :
    BeginsTree i (false :: (serBits l ++ bits)) ↔ BeginsTree (i + 1 + internalCount l) bits := by
  refine ⟨?_, beginsTree_right⟩
  rintro ⟨t, h1, x, h2⟩
  cases t with
  | leaf s => simp [serBits] at h2
  | node l' r =>
    simp only [serBits, List.cons_append, List.append_assoc] at h2
    obtain ⟨rfl, h3⟩ := serBits_append_inj (List.cons.inj h2).2
    exact ⟨r, by simp only [internalCount] at h1; omega, x, h3⟩

/-- DsrNode raises MALFORMED_STREAM at the end of the input, or at the first bit with which the bits read begin no tree
within the limit (43_tree_serializer.md R94, R95; 60_exceptions.md R112). -/
theorem dsrNode_error {d i p : Nat} {s : State} (hi : i ≤ maxInternal) (hd : maxInternal < d + i)
    (hl : 8 * s.inLen.toNat < 2 ^ 64) (hp : s.rpos.toNat ≤ 8 * s.inLen.toNat)
    (h : dsrNode d i s = .error .malformedStream (s.readTo p)) (hpp : p < 2 ^ 64) :
    ∃ n, p = s.rpos.toNat + n ∧ (∀ q, q < n → BeginsTree i (inStream s s.rpos.toNat q)) ∧
      (p = 8 * s.inLen.toNat ∨ ¬ BeginsTree i (inStream s s.rpos.toNat n)) := by
  have hinj : ∀ {a b : Nat} {e e'}, a < 2 ^ 64 → b < 2 ^ 64 →
      (EStateM.Result.error e (s.readTo a) : EStateM.Result ErrorCode State (HuffTree × Nat)) = .error e' (s.readTo b) → a = b := by
    intro a b e e' ha hb h
    cases h' : s.readTo a
    have := congrArg (fun r => match r with | .error _ (u : State) => u.rpos.toNat | .ok _ u => u.rpos.toNat) h
    simpa [readTo_rpos s ha, readTo_rpos s hb] using this
  have hb0 : ∀ k, inStream s s.rpos.toNat (k + 1) = inBit s s.rpos.toNat :: inStream s (s.rpos.toNat + 1) k :=
    fun k => inStream_succ _ _ _
  induction d generalizing i s with
  | zero => omega
  | succ d ih =>
    by_cases hend : 8 * s.inLen.toNat ≤ s.rpos.toNat
    · rw [dsrNode_end hend] at h
      have h' : s.rpos.toNat = p := hinj (by omega) hpp (by rw [readTo_self]; exact h)
      exact ⟨0, by omega, by omega, .inl (by omega)⟩
    have h0 : s.rpos.toNat < 8 * s.inLen.toNat := by omega
    have hp1 := rpos_lt_of_le (p := s.rpos.toNat + 1) hl (by omega)
    have hl1 : 8 * (s.readTo (s.rpos.toNat + 1)).inLen.toNat < 2 ^ 64 := by rwa [readTo_inLen]
    cases hb : inBit s s.rpos.toNat with
    | true =>
      rw [dsrNode_leaf h0 hb] at h
      by_cases h9 : s.rpos.toNat + 1 + 8 ≤ 8 * s.inLen.toNat
      · rw [cmd_bind_ok (readBits_ok hl1 (by rw [hp1, readTo_inLen]; omega)), cmd_pure] at h; cases h
      · rw [cmd_bind_error (readBits_end hl1 (by rw [hp1, readTo_inLen]; omega) (by rw [hp1, readTo_inLen]; omega)),
          readTo_readTo, readTo_inLen] at h
        have h' := hinj (by omega) hpp h
        refine ⟨8 * s.inLen.toNat - s.rpos.toNat, by omega, ?_, .inl h'.symm⟩
        intro q hq
        cases q with
        | zero => exact beginsTree_nil hi
        | succ q => rw [hb0, hb]; exact beginsTree_leaf hi (by rw [inStream_length]; omega)
    | false =>
      by_cases hmax : i = maxInternal
      · subst hmax
        rw [dsrNode_limit h0 hb] at h
        have h' := hinj (by omega) hpp h
        refine ⟨1, by omega, ?_, .inr ?_⟩
        · intro q hq
          obtain rfl : q = 0 := by omega
          exact beginsTree_nil hi
        · rw [hb0 0, hb]
          rintro ⟨t, h1, x, h2⟩
          cases t with
          | leaf v => simp [serBits] at h2
          | node l r => simp only [internalCount] at h1; omega
      rw [dsrNode_node h0 hb hmax] at h
      rcases dsrNode_cases d (i + 1) (s.readTo (s.rpos.toNat + 1)) (by omega) hl1 (by rw [hp1, readTo_inLen]; omega) with
        ⟨l, hx, hil, hbl, hsl⟩ | ⟨p', hx, hp2, hp3⟩
      · rw [hp1] at hx hbl hsl
        rw [readTo_inLen] at hbl
        rw [inStream_readTo] at hsl
        have hq := rpos_lt_of_le hl hbl
        rw [readTo_readTo] at hx
        rw [cmd_bind_ok hx] at h
        have hlq : 8 * (s.readTo (s.rpos.toNat + 1 + treeBits l)).inLen.toNat < 2 ^ 64 := by rwa [readTo_inLen]
        rcases dsrNode_cases d (i + 1 + internalCount l) (s.readTo (s.rpos.toNat + 1 + treeBits l)) hil hlq
          (by rw [hq, readTo_inLen]; omega) with ⟨r, hy, -⟩ | ⟨p', hy, hp2, hp3⟩
        · rw [cmd_bind_ok hy, cmd_pure] at h; cases h
        · rw [readTo_inLen] at hp3
          have hy' := hy
          rw [cmd_bind_error hy, readTo_readTo] at h
          have h' := hinj (by omega) hpp h
          subst h'
          obtain ⟨n, hn, h1, h2⟩ := ih (s := s.readTo (s.rpos.toNat + 1 + treeBits l)) hil (by omega) hlq
            (by rw [hq, readTo_inLen]; omega) hy
            (by
              intro a b e e' ha hb h
              rw [readTo_readTo, readTo_readTo] at h
              exact hinj ha hb h) (fun k => inStream_succ _ _ _)
          rw [hq] at hn h1 h2
          rw [readTo_inLen] at h2
          simp only [inStream_readTo] at h1 h2
          refine ⟨1 + treeBits l + n, by omega, ?_, ?_⟩
          · intro q hq'
            cases q with
            | zero => exact beginsTree_nil hi
            | succ q =>
              rw [hb0, hb]
              by_cases hc : q ≤ treeBits l
              · refine beginsTree_left ⟨l, hil, ?_⟩
                rw [← hsl, ← Nat.add_sub_of_le hc, inStream_add]
                exact List.prefix_append _ _
              · rw [← Nat.add_sub_of_le (Nat.le_of_not_le hc), inStream_add, hsl]
                exact beginsTree_right (h1 _ (by omega))
          · refine h2.imp id fun h2 => ?_
            rw [(by omega : 1 + treeBits l + n = (treeBits l + n) + 1), hb0, hb, inStream_add, hsl, beginsTree_right_iff]
            exact h2
      · rw [readTo_inLen] at hp3
        have hx' := hx
        rw [cmd_bind_error hx, readTo_readTo] at h
        have h' := hinj (by omega) hpp h
        subst h'
        obtain ⟨n, hn, h1, h2⟩ := ih (s := s.readTo (s.rpos.toNat + 1)) (by omega) (by omega) hl1
          (by rw [hp1, readTo_inLen]; omega) hx
          (by
            intro a b e e' ha hb h
            rw [readTo_readTo, readTo_readTo] at h
            exact hinj ha hb h) (fun k => inStream_succ _ _ _)
        rw [hp1] at hn h1 h2
        rw [readTo_inLen] at h2
        simp only [inStream_readTo] at h1 h2
        refine ⟨n + 1, by omega, ?_, ?_⟩
        · intro q hq'
          cases q with
          | zero => exact beginsTree_nil hi
          | succ q => rw [hb0, hb]; exact beginsTree_left (h1 _ (by omega))
        · by_cases he : p' = 8 * s.inLen.toNat
          · exact .inl he
          refine .inr ?_
          have h2 := h2.resolve_left he
          rw [hb0, hb]
          rintro ⟨t, k1, x, k2⟩
          cases t with
          | leaf v => simp [serBits] at k2
          | node l r =>
            simp only [serBits, List.cons_append] at k2
            simp only [internalCount] at k1
            have k3 := (List.cons.inj k2).2
            by_cases hc : n < treeBits l
            · refine h2 ⟨l, by omega, ?_⟩
              exact List.prefix_of_prefix_length_le ⟨x, k3⟩ (List.prefix_append _ _)
                (by rw [inStream_length, serBits_length]; omega)
            · have k4 : inStream s (s.rpos.toNat + 1) (treeBits l) = serBits l := by
                rw [← Nat.add_sub_of_le (Nat.le_of_not_lt hc), inStream_add, List.append_assoc] at k3
                exact (List.append_inj k3 (by rw [inStream_length, serBits_length])).1
              have := dsrNode_complete (t := l) (d := d) (i := i + 1) (s := s.readTo (s.rpos.toNat + 1)) (by omega) (by omega) hl1
                (by rw [hp1, readTo_inLen]; omega) (by rw [hp1]; exact k4)
              rw [hx'] at this; cases this

/-- The bound on the depth is never reached: a deeper one gives the same result (log 8). -/
theorem dsrNode_depth (d i : Nat) (s : State) (hi : i ≤ maxInternal) (hd : maxInternal < d + i)
    (hl : 8 * s.inLen.toNat < 2 ^ 64) (hp : s.rpos.toNat ≤ 8 * s.inLen.toNat) :
    dsrNode (d + 1) i s = dsrNode d i s := by
  induction d generalizing i s with
  | zero => omega
  | succ d ih =>
    by_cases hend : 8 * s.inLen.toNat ≤ s.rpos.toNat
    · rw [dsrNode_end hend, dsrNode_end hend]
    have h0 : s.rpos.toNat < 8 * s.inLen.toNat := by omega
    have hp1 := rpos_lt_of_le (p := s.rpos.toNat + 1) hl (by omega)
    have hl1 : 8 * (s.readTo (s.rpos.toNat + 1)).inLen.toNat < 2 ^ 64 := by rwa [readTo_inLen]
    cases hb : inBit s s.rpos.toNat with
    | true => rw [dsrNode_leaf h0 hb, dsrNode_leaf h0 hb]
    | false =>
      by_cases hmax : i = maxInternal
      · subst hmax; rw [dsrNode_limit h0 hb, dsrNode_limit h0 hb]
      rw [dsrNode_node h0 hb hmax, dsrNode_node h0 hb hmax]
      have hx := ih (i + 1) (s.readTo (s.rpos.toNat + 1)) (by omega) (by omega) hl1 (by rw [hp1, readTo_inLen]; omega)
      rcases dsrNode_cases d (i + 1) (s.readTo (s.rpos.toNat + 1)) (by omega) hl1 (by rw [hp1, readTo_inLen]; omega) with
        ⟨l, hc, hil, hbl, -⟩ | ⟨p, hc, -, -⟩
      · rw [hp1] at hc hbl
        rw [readTo_inLen] at hbl
        rw [readTo_readTo] at hc
        have hq := rpos_lt_of_le hl hbl
        rw [hc] at hx
        rw [cmd_bind_ok hc, cmd_bind_ok hx]
        have hy := ih (i + 1 + internalCount l) (s.readTo (s.rpos.toNat + 1 + treeBits l)) hil (by omega)
          (by rwa [readTo_inLen]) (by rw [hq, readTo_inLen]; omega)
        simp only [bind, EStateM.bind, hy]
      · rw [hc] at hx
        rw [cmd_bind_error hc, cmd_bind_error hx]

end Sys2Proof.Machine
end

