-- ==== Sys2Proof/Laws/Codes.lean ====
section
/-! SUPPORT. The code map: the entries MAP writes, their keys, and how the decoder reads them (42_code_map.md R87 to R91;
45_decoder.md R101 to R105). -/

namespace Sys2Proof.Machine

/-! ## The leaves of a tree and their paths -/

theorem leafPaths_eq_map (t : HuffTree) (p : BitString) :
    leafPaths t p = (leafPaths t []).map fun c => (p ++ c.1, c.2) := by
  induction t generalizing p with
  | leaf s => simp [leafPaths]
  | node l r ihl ihr =>
    simp only [leafPaths, List.nil_append, List.map_append]
    rw [ihl (p ++ [false]), ihr (p ++ [true]), ihl [false], ihr [true]]
    simp [Function.comp_def]

theorem leafPaths_node (l r : HuffTree) :
    leafPaths (.node l r) [] =
      (leafPaths l []).map (fun c => (false :: c.1, c.2)) ++ (leafPaths r []).map (fun c => (true :: c.1, c.2)) := by
  rw [leafPaths, List.nil_append, List.nil_append, leafPaths_eq_map l [false], leafPaths_eq_map r [true]]
  rfl

/-- A leaf's path leads to it, and only leaves have entries (42_code_map.md R87). -/
theorem mem_leafPaths (t : HuffTree) (k : BitString) (v : Symbol) :
    (k, v) ∈ leafPaths t [] ↔ subtreeAt t k = some (.leaf v) := by
  induction t generalizing k with
  | leaf s => cases k <;> simp [leafPaths, subtreeAt, eq_comm]
  | node l r ihl ihr =>
    rw [leafPaths_node]
    cases k with
    | nil => simp [subtreeAt]
    | cons b k => cases b <;> simp [subtreeAt, ihl, ihr]

theorem leafPaths_map_snd (t : HuffTree) (p : BitString) : (leafPaths t p).map Prod.snd = leafSymbols t := by
  induction t generalizing p with
  | leaf s => rfl
  | node l r ihl ihr => simp [leafPaths, leafSymbols, ihl, ihr]

theorem leafCodes_map_snd (t : HuffTree) : (leafCodes t).map Prod.snd = leafSymbols t := by
  cases t with
  | leaf s => rfl
  | node l r => exact leafPaths_map_snd _ _

theorem subtreeAt_append (t : HuffTree) (a b : BitString) :
    subtreeAt t (a ++ b) = (subtreeAt t a).bind fun u => subtreeAt u b := by
  induction a generalizing t with
  | nil => simp [subtreeAt]
  | cons x a ih =>
    cases t with
    | leaf s => simp [subtreeAt]
    | node l r => simp [subtreeAt, ih]

/-- No code is the beginning of another leaf's code (42_code_map.md R90). -/
theorem leafPaths_prefixFree {t : HuffTree} {a b : BitString} {v w : Symbol} (ha : (a, v) ∈ leafPaths t [])
    (hb : (b, w) ∈ leafPaths t []) (h : a <+: b) : a = b ∧ v = w := by
  obtain ⟨c, rfl⟩ := h
  rw [mem_leafPaths] at ha hb
  rw [subtreeAt_append, ha, Option.bind_some] at hb
  cases c with
  | nil => simpa [subtreeAt] using hb
  | cons x c => simp [subtreeAt] at hb

theorem leafPaths_nodup (t : HuffTree) : ((leafPaths t []).map Prod.fst).Nodup := by
  induction t with
  | leaf s => simp [leafPaths]
  | node l r ihl ihr =>
    rw [leafPaths_node, List.map_append, List.nodup_append]
    simp only [List.map_map, Function.comp_def]
    refine ⟨?_, ?_, ?_⟩
    · have := ihl.map (f := fun k => false :: k) fun a b h => (List.cons.inj h).2
      simpa [List.map_map, Function.comp_def] using this
    · have := ihr.map (f := fun k => true :: k) fun a b h => (List.cons.inj h).2
      simpa [List.map_map, Function.comp_def] using this
    · intro a ha b hb he
      obtain ⟨x, -, rfl⟩ := List.mem_map.1 ha
      obtain ⟨y, -, rfl⟩ := List.mem_map.1 hb
      cases he

theorem leafCodes_nodup (t : HuffTree) : ((leafCodes t).map Prod.fst).Nodup := by
  cases t with
  | leaf s => simp [leafCodes]
  | node l r => exact leafPaths_nodup _

/-- Every code is non-empty (42_code_map.md R88). -/
theorem leafCodes_ne_nil {t : HuffTree} {c : BitString} {v : Symbol} (h : (c, v) ∈ leafCodes t) : c ≠ [] := by
  cases t with
  | leaf s => simp [leafCodes] at h; simp [h.1]
  | node l r =>
    rintro rfl
    have := (mem_leafPaths _ _ _).1 h
    simp [subtreeAt] at this

theorem leafCodes_prefixFree {t : HuffTree} {a b : BitString} {v w : Symbol} (ha : (a, v) ∈ leafCodes t)
    (hb : (b, w) ∈ leafCodes t) (h : a <+: b) : a = b ∧ v = w := by
  cases t with
  | leaf s => simp [leafCodes] at ha hb; simp [ha, hb]
  | node l r => exact leafPaths_prefixFree ha hb h

theorem leafPaths_length_le {t : HuffTree} {c : BitString} {v : Symbol} (h : (c, v) ∈ leafPaths t []) :
    c.length ≤ internalCount t := by
  induction t generalizing c with
  | leaf s => simp [leafPaths] at h; simp [h.1]
  | node l r ihl ihr =>
    rw [leafPaths_node, List.mem_append] at h
    rcases h with h | h <;> obtain ⟨⟨k, w⟩, hk, he⟩ := List.mem_map.1 h <;> cases he
    · have := ihl hk; simp [internalCount]; omega
    · have := ihr hk; simp [internalCount]; omega

/-- Every code is at most 255 bits (00_scope.md R7: MAX_CODE_LEN). -/
theorem leafCodes_length_le {t : HuffTree} (ht : internalCount t ≤ 255) {c : BitString} {v : Symbol}
    (h : (c, v) ∈ leafCodes t) : c.length ≤ 255 := by
  cases t with
  | leaf s => simp [leafCodes] at h; simp [h.1]
  | node l r => exact le_trans (leafPaths_length_le h) ht

/-! ## The encode map of a tree -/

theorem lastCode_mem {t : HuffTree} {sym : Symbol} (h : lastCode t sym ≠ []) : (lastCode t sym, sym) ∈ leafCodes t := by
  simp only [lastCode] at h ⊢
  cases hl : ((leafCodes t).filter fun c => c.2 = sym).getLast? with
  | none => simp [hl] at h
  | some c =>
    have hm := List.mem_of_getLast? hl
    simp only [List.mem_filter, decide_eq_true_eq] at hm
    obtain ⟨k, v⟩ := c
    obtain ⟨hin, rfl⟩ := hm
    exact hin

/-- A symbol has a code exactly when it is a leaf (42_code_map.md R87, R90). -/
theorem lastCode_ne_nil (t : HuffTree) (sym : Symbol) : lastCode t sym ≠ [] ↔ sym ∈ leafSymbols t := by
  constructor
  · intro h
    rw [← leafCodes_map_snd]
    exact List.mem_map_of_mem (f := Prod.snd) (lastCode_mem h)
  · intro h
    rw [← leafCodes_map_snd] at h
    obtain ⟨⟨k, v⟩, hk, rfl⟩ := List.mem_map.1 h
    simp only [lastCode]
    have hmem : (k, v) ∈ (leafCodes t).filter fun c => decide (c.2 = v) := by simp [hk]
    cases hl : ((leafCodes t).filter fun c => c.2 = v).getLast? with
    | none => rw [List.getLast?_eq_none_iff] at hl; rw [hl] at hmem; simp at hmem
    | some c =>
      have hm := List.mem_of_getLast? hl
      simp only [List.mem_filter] at hm
      simpa using leafCodes_ne_nil hm.1

/-- In a tree without repeated symbols every leaf has the code of its symbol (42_code_map.md R90). -/
theorem lastCode_of_nodup {t : HuffTree} (ht : (leafSymbols t).Nodup) {c : BitString} {v : Symbol}
    (h : (c, v) ∈ leafCodes t) : lastCode t v = c := by
  have hne : lastCode t v ≠ [] := by
    rw [lastCode_ne_nil, ← leafCodes_map_snd]
    exact List.mem_map_of_mem (f := Prod.snd) h
  have hm := lastCode_mem hne
  rw [← leafCodes_map_snd] at ht
  have := List.inj_on_of_nodup_map ht hm h rfl
  simpa using congrArg Prod.fst this

/-! ## What Walk writes -/

/-- Giving a list of codes to their symbols, one after another (42_code_map.md R87). -/
def assignCodes (l : List (BitString × Symbol)) (s : State) : State :=
  l.foldl (fun s c => s.setCode c.2 c.1) s

theorem assignCodes_append (a b : List (BitString × Symbol)) (s : State) :
    assignCodes (a ++ b) s = assignCodes b (assignCodes a s) := by
  simp [assignCodes]

theorem walk_eq_assign_of_ne (t : HuffTree) {p : BitString} (hp : p ≠ []) (s : State) :
    walk t p s = assignCodes (leafPaths t p) s := by
  induction t generalizing p s with
  | leaf v => simp [walk, leafPaths, assignCodes, leafCode, hp]
  | node l r ihl ihr =>
    rw [walk, leafPaths, assignCodes_append, ihl (by simp), ihr (by simp)]

/-- Walk from the root gives every leaf its code, from left to right (42_code_map.md R87, R88). -/
theorem walk_eq_assign (t : HuffTree) (s : State) : walk t [] s = assignCodes (leafCodes t) s := by
  cases t with
  | leaf v => rfl
  | node l r =>
    rw [walk, leafCodes, leafPaths, assignCodes_append, walk_eq_assign_of_ne _ (by simp), walk_eq_assign_of_ne _ (by simp)]

/-- Assigning codes changes CODE, CODE_LEN and DMAP only. -/
theorem assignCodes_frame (l : List (BitString × Symbol)) (s : State) :
    assignCodes l s = { s with
      code := (assignCodes l s).code, codeLen := (assignCodes l s).codeLen, dmap := (assignCodes l s).dmap } := by
  induction l generalizing s with
  | nil => rfl
  | cons c l ih =>
    have := ih (s.setCode c.2 c.1)
    exact this

theorem assignCodes_dmap {l : List (BitString × Symbol)} {s : State} (h : (s.dmap.map Prod.fst ++ l.map Prod.fst).Nodup) :
    (assignCodes l s).dmap = s.dmap ++ l := by
  induction l generalizing s with
  | nil => simp [assignCodes]
  | cons c l ih =>
    have hc : c.1 ∉ s.dmap.map Prod.fst := by
      rw [List.nodup_append] at h
      intro hm
      exact h.2.2 _ hm _ (by simp) rfl
    have hset : (s.setCode c.2 c.1).dmap = s.dmap ++ [c] := by
      rw [State.setCode_dmap, dmapSet_new _ hc]
    have := ih (s := s.setCode c.2 c.1) (by rw [hset]; simpa [List.append_assoc] using h)
    rw [hset, List.append_assoc] at this
    exact this

theorem assignCodes_code (l : List (BitString × Symbol)) (s : State) (sym : Symbol) :
    codeOf (assignCodes l s) sym =
        (((l.filter fun c => c.2 = sym).getLast?).map Prod.fst).getD (codeOf s sym) ∧
      codeLenOf (assignCodes l s) sym =
        (((l.filter fun c => c.2 = sym).getLast?).map fun c => BitVec.ofNat 8 c.1.length).getD (codeLenOf s sym) := by
  induction l using List.reverseRecOn with
  | nil => simp [assignCodes]
  | append_singleton l c ih =>
    rw [assignCodes_append]
    have h1 : assignCodes [c] (assignCodes l s) = (assignCodes l s).setCode c.2 c.1 := rfl
    rw [h1]
    by_cases hc : c.2 = sym
    · subst hc
      simp [codeOf, codeLenOf]
    · simp only [codeOf, codeLenOf] at ih ⊢
      simp [hc, regGet_regSet_ne, ih]

/-- MAP leaves the code map of its tree (42_code_map.md R87). -/
theorem deriveMaps_codes {t : HuffTree} (ht : internalCount t ≤ 255) (s : State) : CodesOf t (deriveMaps t s) := by
  have hw : deriveMaps t s = { assignCodes (leafCodes t) s.clearCodes with phase := .mapReady } := by
    rw [deriveMaps, walk_eq_assign]
  rw [hw]
  refine ⟨?_, fun sym => ?_⟩
  · have := assignCodes_dmap (l := leafCodes t) (s := s.clearCodes) (by simpa using leafCodes_nodup t)
    simpa using this
  · have h := assignCodes_code (leafCodes t) s.clearCodes sym
    have h1 : codeOf s.clearCodes sym = [] := by simp [codeOf]
    have h2 : codeLenOf s.clearCodes sym = 0 := by simp [codeLenOf]
    rw [h1, h2] at h
    refine ⟨h.1, ?_⟩
    have h' : codeLenOf { assignCodes (leafCodes t) s.clearCodes with phase := .mapReady } sym =
        BitVec.ofNat 8 (lastCode t sym).length := by
      refine h.2.trans ?_
      simp only [lastCode]
      cases ((leafCodes t).filter fun c => c.2 = sym).getLast? <;> simp
    have hlen : (lastCode t sym).length ≤ 255 := by
      by_cases hne : lastCode t sym = []
      · simp [hne]
      · exact leafCodes_length_le ht (lastCode_mem hne)
    rw [h', BitVec.toNat_ofNat]
    omega

/-- MAP changes CODE, CODE_LEN, DMAP and PHASE only (42_code_map.md R87). -/
theorem deriveMaps_frame (t : HuffTree) (s : State) :
    deriveMaps t s = { s with
      code := (deriveMaps t s).code, codeLen := (deriveMaps t s).codeLen, dmap := (deriveMaps t s).dmap,
      phase := .mapReady } := by
  have hw : deriveMaps t s = { assignCodes (leafCodes t) s.clearCodes with phase := .mapReady } := by
    rw [deriveMaps, walk_eq_assign]
  have hf := assignCodes_frame (leafCodes t) s.clearCodes
  rw [hw]
  rw [hf]
  rfl

end Sys2Proof.Machine
end

