-- ==== Sys2Proof/Laws/Builder.lean ====
section
/-! SUPPORT. The tree builder: BLD's tree is the one the merges of 41_tree_builder.md R83 give, and the only one. -/

namespace Sys2Proof.Machine

/-! ## Keys -/

/-- The key of a node as one number: the order on keys is the order on these numbers (41_tree_builder.md R82). -/
def nodeKey (a : Nat × HuffTree) : Nat := a.1 * 256 + (leadSymbol a.2).toNat

theorem nodeLt_iff (a b : Nat × HuffTree) : nodeLt a b ↔ nodeKey a < nodeKey b := by
  have h1 := (leadSymbol a.2).isLt
  have h2 := (leadSymbol b.2).isLt
  simp only [nodeLt, nodeKey]
  omega

/-- A candidate with its weight as a number. -/
def Candidate.exact (c : Candidate) : Nat × HuffTree := (c.weight.toNat, c.tree)

theorem keyLt_iff (a b : Candidate) : keyLt a b = true ↔ nodeKey a.exact < nodeKey b.exact := by
  rw [← nodeLt_iff]
  simp [keyLt, nodeLt, Candidate.exact, BitVec.lt_def, BitVec.toNat_inj]

theorem leadSymbol_mem (t : HuffTree) : leadSymbol t ∈ leafSymbols t := by
  induction t with
  | leaf s => simp [leadSymbol, leafSymbols]
  | node l r ihl _ => simp [leadSymbol, leafSymbols, ihl]

/-- The merges of a set are independent of how it is held, and give one tree only (41_tree_builder.md R82, R86). -/
theorem merges_unique {cs cs' : List (Nat × HuffTree)} {t t' : HuffTree} (h : Merges cs t) (h' : Merges cs' t')
    (hp : cs.Perm cs') : t = t' := by
  induction h generalizing cs' t' with
  | one c =>
    cases h' with
    | one c' => have := List.singleton_perm_singleton.1 hp; rw [this]
    | merge hcs _ _ _ =>
      have := (hp.trans hcs).length_eq
      simp at this
  | @merge cs rest a b t hcs ha hb ht ih =>
    cases h' with
    | one c' =>
      have := (hcs.symm.trans hp).length_eq
      simp at this
    | @merge _ rest' a' b' _ hcs' ha' hb' ht' =>
      have hperm : (a :: b :: rest).Perm (a' :: b' :: rest') := hcs.symm.trans (hp.trans hcs')
      have haa : a = a' := by
        by_contra hne
        have h1 : a ∈ b' :: rest' := (List.mem_cons.1 (hperm.subset (by simp))).resolve_left hne
        have h2 : a' ∈ b :: rest := (List.mem_cons.1 (hperm.symm.subset (by simp))).resolve_left (Ne.symm hne)
        have h3 := (nodeLt_iff _ _).1 (ha' _ h1)
        have h4 := (nodeLt_iff _ _).1 (ha _ h2)
        omega
      subst haa
      have hperm := List.Perm.cons_inv hperm
      have hbb : b = b' := by
        by_contra hne
        have h1 : b ∈ rest' := (List.mem_cons.1 (hperm.subset (by simp))).resolve_left hne
        have h2 : b' ∈ rest := (List.mem_cons.1 (hperm.symm.subset (by simp))).resolve_left (Ne.symm hne)
        have h3 := (nodeLt_iff _ _).1 (hb' _ h1)
        have h4 := (nodeLt_iff _ _).1 (hb _ h2)
        omega
      subst hbb
      exact ih ht' (List.Perm.cons _ (List.Perm.cons_inv hperm))

/-! ## Removing the least candidate -/

theorem extractLeast_spec (c : Candidate) (cs : List Candidate) :
    ((extractLeast c cs).1 :: (extractLeast c cs).2).Perm (c :: cs) ∧
      ∀ x ∈ (extractLeast c cs).2, nodeKey (extractLeast c cs).1.exact ≤ nodeKey x.exact := by
  induction cs generalizing c with
  | nil => simp [extractLeast]
  | cons d ds ih =>
    rw [extractLeast]
    by_cases h : keyLt d c = true
    · have hlt := (keyLt_iff _ _).1 h
      obtain ⟨hp, hm⟩ := ih d
      rw [if_pos h]
      have hle : nodeKey (extractLeast d ds).1.exact ≤ nodeKey d.exact := by
        rcases List.mem_cons.1 (hp.symm.subset (show d ∈ d :: ds by simp)) with he | he
        · rw [← he]
        · exact hm _ he
      refine ⟨?_, ?_⟩
      · exact (List.Perm.swap _ _ _).trans (List.Perm.cons _ hp)
      · intro x hx
        rcases List.mem_cons.1 hx with rfl | hx
        · exact le_of_lt (lt_of_le_of_lt hle hlt)
        · exact hm x hx
    · have hge : nodeKey c.exact ≤ nodeKey d.exact := by
        rw [keyLt_iff] at h; omega
      obtain ⟨hp, hm⟩ := ih c
      rw [if_neg h]
      have hle : nodeKey (extractLeast c ds).1.exact ≤ nodeKey c.exact := by
        rcases List.mem_cons.1 (hp.symm.subset (show c ∈ c :: ds by simp)) with he | he
        · rw [← he]
        · exact hm _ he
      refine ⟨?_, ?_⟩
      · exact (List.Perm.swap _ _ _).trans ((List.Perm.cons _ hp).trans (List.Perm.swap _ _ _))
      · intro x hx
        rcases List.mem_cons.1 hx with rfl | hx
        · exact le_trans hle hge
        · exact hm x hx

theorem extractLeast_length (c : Candidate) (cs : List Candidate) : (extractLeast c cs).2.length = cs.length := by
  have := (extractLeast_spec c cs).1.length_eq
  simpa using this

/-! ## The loop -/

/-- The leaf symbols of a candidate set. -/
def candSymbols (cs : List Candidate) : List Symbol := cs.flatMap fun c => leafSymbols c.tree

/-- The exact weight of a candidate set. -/
def candWeight (cs : List Candidate) : Nat := (cs.map fun c => c.weight.toNat).sum

theorem candSymbols_perm {cs cs' : List Candidate} (h : cs.Perm cs') : (candSymbols cs).Perm (candSymbols cs') :=
  h.flatMap_right _

theorem candWeight_perm {cs cs' : List Candidate} (h : cs.Perm cs') : candWeight cs = candWeight cs' :=
  (h.map _).sum_eq

/-- Candidates of one set have different leads, so the least key is strictly least (41_tree_builder.md R82). -/
theorem exact_lt_of_le {a x : Candidate} {cs : List Candidate} (hn : (candSymbols (a :: cs)).Nodup) (hx : x ∈ cs)
    (hle : nodeKey a.exact ≤ nodeKey x.exact) : nodeLt a.exact x.exact := by
  rw [nodeLt_iff]
  refine lt_of_le_of_ne hle fun he => ?_
  have h1 := (leadSymbol a.tree).isLt
  have h2 := (leadSymbol x.tree).isLt
  have hlead : leadSymbol a.tree = leadSymbol x.tree := by
    apply BitVec.eq_of_toNat_eq
    simp only [nodeKey, Candidate.exact] at he
    omega
  rw [candSymbols, List.flatMap_cons, List.nodup_append] at hn
  refine hn.2.2 _ (leadSymbol_mem a.tree) (leadSymbol x.tree) ?_ hlead
  exact List.mem_flatMap.2 ⟨x, hx, leadSymbol_mem x.tree⟩

/-- The loop's tree is the one the merges give, its weights never wrapping (41_tree_builder.md R80, R83), and its leaves
are those of the candidates. -/
theorem mergeRounds_spec (n : Nat) (c : Candidate) (cs : List Candidate) (hn : cs.length = n)
    (hd : (candSymbols (c :: cs)).Nodup) (hw : candWeight (c :: cs) < 2 ^ 72) :
    Merges ((c :: cs).map Candidate.exact) (mergeRounds n c cs).tree ∧
      (leafSymbols (mergeRounds n c cs).tree).Perm (candSymbols (c :: cs)) ∧
      (mergeRounds n c cs).weight.toNat = candWeight (c :: cs) := by
  induction n generalizing c cs with
  | zero =>
    have : cs = [] := List.length_eq_zero_iff.1 hn
    subst this
    exact ⟨Merges.one _, by simp [mergeRounds, candSymbols], by simp [mergeRounds, candWeight]⟩
  | succ n ih =>
    obtain ⟨hp, hm⟩ := extractLeast_spec c cs
    have hlen := extractLeast_length c cs
    rw [mergeRounds]
    rcases he : extractLeast c cs with ⟨a, r⟩
    rw [he] at hp hm hlen
    simp only at hp hm hlen
    cases r with
    | nil => simp at hlen; omega
    | cons d ds =>
      obtain ⟨hp2, hm2⟩ := extractLeast_spec d ds
      have hlen2 := extractLeast_length d ds
      simp only
      rcases he2 : extractLeast d ds with ⟨b, rest⟩
      rw [he2] at hp2 hm2 hlen2
      simp only at hp2 hm2 hlen2 ⊢
      have hall : (a :: b :: rest).Perm (c :: cs) := (List.Perm.cons a hp2).trans hp
      have hd' : (candSymbols (a :: b :: rest)).Nodup := (candSymbols_perm hall).nodup_iff.2 hd
      have hw' : candWeight (a :: b :: rest) < 2 ^ 72 := by rw [candWeight_perm hall]; exact hw
      have hsum : (mergePair a b).weight.toNat = a.weight.toNat + b.weight.toNat := by
        simp only [candWeight, List.map_cons, List.sum_cons] at hw'
        simp only [mergePair, BitVec.toNat_add]
        exact Nat.mod_eq_of_lt (by omega)
      have hsym : candSymbols (mergePair a b :: rest) = candSymbols (a :: b :: rest) := by
        simp [candSymbols, mergePair, leafSymbols]
      have hwt : candWeight (mergePair a b :: rest) = candWeight (a :: b :: rest) := by
        simp only [candWeight, List.map_cons, List.sum_cons, hsum]; omega
      obtain ⟨h1, h2, h3⟩ := ih (mergePair a b) rest (by simp at hlen; omega) (by rw [hsym]; exact hd')
        (by rw [hwt]; exact hw')
      refine ⟨?_, ?_, ?_⟩
      · refine Merges.merge (a := a.exact) (b := b.exact) (rest := rest.map Candidate.exact) ?_ ?_ ?_ ?_
        · exact (hall.symm.map Candidate.exact)
        · intro x hx
          rw [← List.map_cons] at hx
          obtain ⟨y, hy, rfl⟩ := List.mem_map.1 hx
          exact exact_lt_of_le hd' hy (hm y (hp2.subset hy))
        · intro x hx
          obtain ⟨y, hy, rfl⟩ := List.mem_map.1 hx
          refine exact_lt_of_le (cs := rest) ?_ hy (hm2 y hy)
          have : candSymbols (a :: b :: rest) = leafSymbols a.tree ++ candSymbols (b :: rest) := rfl
          rw [this, List.nodup_append] at hd'
          exact hd'.2.1
        · have : (mergePair a b).exact = (a.exact.1 + b.exact.1, .node a.exact.2 b.exact.2) := by
            simp only [Candidate.exact, hsum]; rfl
          rw [List.map_cons, this] at h1
          exact h1
      · rw [hsym] at h2
        exact h2.trans (candSymbols_perm hall)
      · rw [h3, hwt, candWeight_perm hall]

/-! ## The leaves BLD starts from -/

theorem alphabet_nodup : alphabet.Nodup := by
  refine List.Nodup.map_on ?_ List.nodup_range
  intro a ha b hb h
  rw [List.mem_range] at ha hb
  have := congrArg BitVec.toNat h
  simp only [BitVec.toNat_ofNat] at this
  rwa [Nat.mod_eq_of_lt (by omega), Nat.mod_eq_of_lt (by omega)] at this

theorem mem_alphabet (sym : Symbol) : sym ∈ alphabet :=
  List.mem_map.2 ⟨sym.toNat, List.mem_range.2 sym.isLt, by simp⟩

theorem mem_presentSymbols (s : State) (sym : Symbol) : sym ∈ presentSymbols s ↔ freqOf s sym ≠ 0 := by
  simp [presentSymbols, mem_alphabet]

theorem presentSymbols_nodup (s : State) : (presentSymbols s).Nodup := alphabet_nodup.filter _

theorem candSymbols_leafCandidates (s : State) : candSymbols (leafCandidates s) = presentSymbols s := by
  simp [candSymbols, leafCandidates, leafSymbols, List.flatMap_map]

theorem exact_leafCandidates (s : State) : (leafCandidates s).map Candidate.exact = weightedLeaves s := by
  simp only [leafCandidates, weightedLeaves, List.map_map]
  apply List.map_congr_left
  intro sym _
  have := (freqOf s sym).isLt
  simp only [Function.comp, Candidate.exact, BitVec.toNat_setWidth, Prod.mk.injEq, and_true]
  exact Nat.mod_eq_of_lt (by omega)

/-- Every weight fits in 72 bits (41_tree_builder.md R80). -/
theorem candWeight_leafCandidates (s : State) : candWeight (leafCandidates s) < 2 ^ 72 := by
  have hlen : (leafCandidates s).length ≤ 256 := by
    rw [leafCandidates, List.length_map, presentSymbols]
    refine le_trans (List.length_filter_le _ _) ?_
    simp [alphabet]
  have hb : ∀ x ∈ (leafCandidates s).map fun c => c.weight.toNat, x ≤ 2 ^ 64 - 1 := by
    intro x hx
    simp only [leafCandidates, List.map_map, List.mem_map, Function.comp] at hx
    obtain ⟨sym, -, rfl⟩ := hx
    have := (freqOf s sym).isLt
    have h2 := BitVec.toNat_setWidth 72 (freqOf s sym)
    have h3 : (freqOf s sym).toNat % 2 ^ 72 ≤ (freqOf s sym).toNat := Nat.mod_le _ _
    omega
  have := List.sum_le_card_nsmul _ _ hb
  simp only [List.length_map, smul_eq_mul] at this
  simp only [candWeight]
  calc _ ≤ (leafCandidates s).length * (2 ^ 64 - 1) := this
    _ ≤ 256 * (2 ^ 64 - 1) := Nat.mul_le_mul_right _ hlen
    _ < 2 ^ 72 := by norm_num

/-- BLD with an empty table raises EMPTY_INPUT (41_tree_builder.md R83). -/
theorem bld_empty {s : State} (h : ∀ sym, freqOf s sym = 0) : bld s = .error .emptyInput s := by
  have : presentSymbols s = [] := by
    apply List.eq_nil_iff_forall_not_mem.2
    intro sym hs
    exact (mem_presentSymbols s sym).1 hs (h sym)
  simp [bld, leafCandidates, this]

/-- BLD with a symbol present builds the tree the merges give, whose leaves are the present symbols, each once
(41_tree_builder.md R83, R85). -/
theorem bld_ok {s : State} (h : ∃ sym, freqOf s sym ≠ 0) :
    ∃ t, bld s = .ok () (s.treeBuilt t) ∧ Merges (weightedLeaves s) t ∧ (leafSymbols t).Perm (presentSymbols s) := by
  obtain ⟨sym, hsym⟩ := h
  have hmem := (mem_presentSymbols s sym).2 hsym
  have hs := candSymbols_leafCandidates s
  have hex := exact_leafCandidates s
  have hw := candWeight_leafCandidates s
  cases hc : leafCandidates s with
  | nil =>
    rw [hc] at hs
    rw [← hs] at hmem
    simp [candSymbols] at hmem
  | cons c cs =>
    rw [hc] at hs hex hw
    obtain ⟨h1, h2, -⟩ := mergeRounds_spec cs.length c cs rfl (by rw [hs]; exact presentSymbols_nodup s) hw
    refine ⟨(mergeRounds cs.length c cs).tree, by simp [bld, hc], by rwa [hex] at h1, by rwa [hs] at h2⟩

/-- A built tree has at most 255 internal nodes (00_scope.md R7: MAX_INTERNAL). -/
theorem internalCount_le_of_nodup {t : HuffTree} (h : (leafSymbols t).Nodup) : internalCount t ≤ 255 := by
  have h1 : (leafSymbols t).length ≤ 256 := by
    have := (List.subperm_of_subset h fun x _ => mem_alphabet x).length_le
    simpa [alphabet] using this
  rw [leafSymbols_length, leafCount_eq] at h1
  omega

end Sys2Proof.Machine
end

