-- ==== Sys2Proof/Laws/Decoding.lean ====
section
/-! SUPPORT. The decoder's loop: the symbols it stores, and its tree-walk form (45_decoder.md R101 to R105). -/

namespace Sys2Proof.Machine

/-- The symbols a bit string decodes to from a candidate, and the candidate left at its end (45_decoder.md R101). -/
def decodeBits (m : List (BitString × Symbol)) : BitString → BitString → List Symbol × BitString
  | cand, [] => ([], cand)
  | cand, b :: bs =>
    match dmapFind m (cand ++ [b]) with
    | some v => (v :: (decodeBits m [] bs).1, (decodeBits m [] bs).2)
    | none => decodeBits m (cand ++ [b]) bs

/-! ## Storing symbols -/

/-- StoreByte for each symbol in turn has left `t` (20_memory.md R50). -/
structure Stored (s t : State) (syms : List Symbol) : Prop where
  others : t = { s with outMem := t.outMem, outLen := t.outLen, rpos := t.rpos }
  outLen : t.outLen.toNat = s.outLen.toNat + syms.length
  bytes : ∀ k (h : k < syms.length), outByte t (s.outLen.toNat + k) = syms[k]
  outside : ∀ i, i < s.outLen.toNat ∨ t.outLen.toNat ≤ i → outByte t i = outByte s i
  wf : Memory.wf s.outMem → Memory.wf t.outMem
  range : (∀ c ∈ s.outMem, c.1 < s.outCap.toNat) → ∀ c ∈ t.outMem, c.1 < s.outCap.toNat

theorem Stored.refl (s : State) : Stored s s [] :=
  ⟨rfl, rfl, fun k h => absurd h (Nat.not_lt_zero k), fun _ _ => rfl, id, id⟩

theorem Stored.outCap {s t : State} {a : List Symbol} (h : Stored s t a) : t.outCap = s.outCap := by rw [h.others]

theorem Stored.trans {s t u : State} {a b : List Symbol} (h : Stored s t a) (k : Stored t u b) : Stored s u (a ++ b) where
  others := by rw [k.others, h.others]
  outLen := by rw [k.outLen, h.outLen, List.length_append]; omega
  bytes n hn := by
    have h1 := h.outLen
    by_cases ha : n < a.length
    · rw [List.getElem_append_left ha, k.outside _ (by omega), h.bytes n ha]
    · obtain ⟨m, rfl⟩ := Nat.exists_eq_add_of_le (Nat.le_of_not_lt ha)
      have hm : m < b.length := by simp at hn; omega
      rw [List.getElem_append_right (by omega)]
      have := k.bytes m hm
      rw [h1, Nat.add_assoc] at this
      simpa using this
  outside i hi := by
    have h1 := h.outLen
    have h2 := k.outLen
    rw [k.outside i (by omega), h.outside i (by omega)]
  wf hs := k.wf (h.wf hs)
  range hr := by have := k.range; rw [h.outCap] at this; exact this (h.range hr)

theorem Stored.readTo {s t : State} {a : List Symbol} (h : Stored s t a) (p : Nat) : Stored s (t.readTo p) a :=
  ⟨by rw [h.others]; rfl, h.outLen, h.bytes, h.outside, h.wf, h.range⟩

theorem Stored.dmap {s t : State} {a : List Symbol} (h : Stored s t a) : t.dmap = s.dmap := by rw [h.others]

theorem Stored.inLen {s t : State} {a : List Symbol} (h : Stored s t a) : t.inLen = s.inLen := by rw [h.others]

theorem Stored.inStream {s t : State} {a : List Symbol} (h : Stored s t a) (p n : Nat) : inStream t p n = inStream s p n := by
  rw [h.others]; rfl

theorem storeByte_stored {s : State} (v : Symbol) (h : s.outLen.toNat < s.outCap.toNat) :
    storeByte v s = .ok () (s.putOut v) ∧ Stored s (s.putOut v) [v] := by
  have hne : s.outLen ≠ s.outCap := fun e => by rw [e] at h; exact lt_irrefl _ h
  have hlen : (s.putOut v).outLen.toNat = s.outLen.toNat + 1 := by simpa using outLen_succ h
  refine ⟨by simp [storeByte, hne], rfl, hlen, ?_, ?_, ?_, ?_⟩
  · intro k hk
    have : k = 0 := by simpa using hk
    subst this
    rw [Nat.add_zero, outByte_putOut, if_pos rfl]
    rfl
  · intro i hi
    rw [outByte_putOut, if_neg (by omega)]
  · intro hs; simpa using memWrite_wf hs _ _
  · intro hr; simpa using memWrite_range hr h

/-! ## The loop -/

/-- One round of the loop, at the end of the input. -/
theorem decLoop_end {n : Nat} {cand : BitString} {s : State} (h : 8 * s.inLen.toNat ≤ s.rpos.toNat) :
    decLoop (n + 1) cand s = .error .truncatedPayload s := by
  rw [decLoop, cmd_bind_error (readBit_end h)]

/-- One round of the loop that completes no code. -/
theorem decLoop_none {n : Nat} {cand : BitString} {s : State} (h : s.rpos.toNat < 8 * s.inLen.toNat)
    (hm : dmapFind s.dmap (cand ++ [inBit s s.rpos.toNat]) = none) :
    decLoop (n + 1) cand s =
      decLoop n (cand ++ [inBit s s.rpos.toNat]) (s.readTo (s.rpos.toNat + 1)) := by
  rw [decLoop, cmd_bind_ok (readBit_ok h), cmd_bind_ok (cmd_get _)]
  have : dmapFind (s.readTo (s.rpos.toNat + 1)).dmap (cand ++ [inBit s s.rpos.toNat]) = none := hm
  rw [this]

/-- One round of the loop that completes a code. -/
theorem decLoop_some {n : Nat} {cand : BitString} {s : State} {v : Symbol} (h : s.rpos.toNat < 8 * s.inLen.toNat)
    (hm : dmapFind s.dmap (cand ++ [inBit s s.rpos.toNat]) = some v) :
    decLoop (n + 1) cand s = (storeByte v >>= fun _ => decLoop n []) (s.readTo (s.rpos.toNat + 1)) := by
  rw [decLoop, cmd_bind_ok (readBit_ok h), cmd_bind_ok (cmd_get _)]
  have : dmapFind (s.readTo (s.rpos.toNat + 1)).dmap (cand ++ [inBit s s.rpos.toNat]) = some v := hm
  rw [this]

/-- What the loop can do (45_decoder.md R101): it runs out of input, out of room, ends in the middle of a code, or stores
the symbols the bits decode to. -/
theorem decLoop_cases (n : Nat) (cand : BitString) (s : State) (hl : 8 * s.inLen.toNat < 2 ^ 64)
    (hp : s.rpos.toNat ≤ 8 * s.inLen.toNat) (hc : s.outLen.toNat ≤ s.outCap.toNat) :
    (∃ t, decLoop n cand s = .ok () t ∧ s.rpos.toNat + n ≤ 8 * s.inLen.toNat ∧
        (decodeBits s.dmap cand (inStream s s.rpos.toNat n)).2 = [] ∧
        Stored s t (decodeBits s.dmap cand (inStream s s.rpos.toNat n)).1 ∧ t.rpos.toNat = s.rpos.toNat + n ∧
        t.outLen.toNat ≤ s.outCap.toNat) ∨
    (∃ t, decLoop n cand s = .error .malformedStream t ∧ s.rpos.toNat + n ≤ 8 * s.inLen.toNat ∧
        (decodeBits s.dmap cand (inStream s s.rpos.toNat n)).2 ≠ [] ∧
        (∃ syms, Stored s t syms) ∧ t.rpos.toNat = s.rpos.toNat + n) ∨
    (∃ t, decLoop n cand s = .error .truncatedPayload t ∧ 8 * s.inLen.toNat < s.rpos.toNat + n ∧
        (∃ syms, Stored s t syms) ∧ t.rpos.toNat = 8 * s.inLen.toNat) ∨
    (∃ t, decLoop n cand s = .error .outputOverflow t ∧ (∃ syms, Stored s t syms) ∧ t.outLen = s.outCap ∧
        s.rpos.toNat ≤ t.rpos.toNat ∧ t.rpos.toNat ≤ 8 * s.inLen.toNat ∧ t.rpos.toNat ≤ s.rpos.toNat + n ∧
        s.outCap.toNat < s.outLen.toNat +
          (decodeBits s.dmap cand (inStream s s.rpos.toNat (min n (8 * s.inLen.toNat - s.rpos.toNat)))).1.length) := by
  induction n generalizing cand s with
  | zero =>
    by_cases hcand : cand = []
    · exact .inl ⟨s, by simp [decLoop, hcand], by omega, by simpa [inStream, decodeBits] using hcand,
        Stored.refl s, rfl, hc⟩
    · exact .inr (.inl ⟨s, by simp [decLoop, hcand], by omega, by simpa [inStream, decodeBits] using hcand,
        ⟨[], Stored.refl s⟩, rfl⟩)
  | succ n ih =>
    by_cases hend : 8 * s.inLen.toNat ≤ s.rpos.toNat
    · exact .inr (.inr (.inl ⟨s, decLoop_end hend, by omega, ⟨[], Stored.refl s⟩, by omega⟩))
    have h0 : s.rpos.toNat < 8 * s.inLen.toNat := by omega
    have hp1 := rpos_lt_of_le (p := s.rpos.toNat + 1) hl (by omega)
    have hmin : min (n + 1) (8 * s.inLen.toNat - s.rpos.toNat) = min n (8 * s.inLen.toNat - (s.rpos.toNat + 1)) + 1 := by
      omega
    rw [hmin]
    simp only [inStream_succ, decodeBits]
    cases hm : dmapFind s.dmap (cand ++ [inBit s s.rpos.toNat]) with
    | none =>
      rw [decLoop_none h0 hm]
      have hS : Stored s (s.readTo (s.rpos.toNat + 1)) [] := (Stored.refl s).readTo _
      have := ih (cand ++ [inBit s s.rpos.toNat]) (s.readTo (s.rpos.toNat + 1)) hl (by rw [hp1, readTo_inLen]; omega) hc
      rw [hp1, readTo_inLen] at this
      rcases this with ⟨t, h1, h2, h3, h4, h5, h6⟩ | ⟨t, h1, h2, h3, ⟨y, h4⟩, h5⟩ | ⟨t, h1, h2, ⟨y, h4⟩, h5⟩ |
        ⟨t, h1, ⟨y, h4⟩, h5, h6, h7, h8, h9⟩
      · exact .inl ⟨t, h1, by omega, h3, hS.trans h4, by omega, h6⟩
      · exact .inr (.inl ⟨t, h1, by omega, h3, ⟨_, hS.trans h4⟩, by omega⟩)
      · exact .inr (.inr (.inl ⟨t, h1, by omega, ⟨_, hS.trans h4⟩, h5⟩))
      · exact .inr (.inr (.inr ⟨t, h1, ⟨_, hS.trans h4⟩, h5, by omega, h7, by omega, h9⟩))
    | some v =>
      rw [decLoop_some h0 hm]
      by_cases hfull : s.outLen = s.outCap
      · refine .inr (.inr (.inr ⟨s.readTo (s.rpos.toNat + 1), ?_, ⟨[], (Stored.refl s).readTo _⟩, hfull, by omega, by omega,
          by omega, ?_⟩))
        · rw [cmd_bind_error (storeByte_full v (s := s.readTo (s.rpos.toNat + 1)) hfull)]
        · simp [hfull]
      · have hlt : s.outLen.toNat < s.outCap.toNat :=
          lt_of_le_of_ne hc fun e => hfull (BitVec.eq_of_toNat_eq e)
        obtain ⟨hst, hS⟩ := storeByte_stored v (s := s.readTo (s.rpos.toNat + 1)) hlt
        rw [cmd_bind_ok hst]
        have hS0 : Stored s ((s.readTo (s.rpos.toNat + 1)).putOut v) [v] := ((Stored.refl s).readTo _).trans hS
        have hp2 : ((s.readTo (s.rpos.toNat + 1)).putOut v).rpos.toNat = s.rpos.toNat + 1 := hp1
        have hlen := hS0.outLen
        have := ih [] ((s.readTo (s.rpos.toNat + 1)).putOut v) hl (by rw [hp2, hS0.inLen]; omega)
          (by rw [hlen, hS0.outCap]; simp; omega)
        rw [hp2, hS0.inLen, hS0.dmap, hS0.outCap] at this
        simp only [hS0.inStream] at this
        rcases this with ⟨t, h1, h2, h3, h4, h5, h6⟩ | ⟨t, h1, h2, h3, ⟨y, h4⟩, h5⟩ | ⟨t, h1, h2, ⟨y, h4⟩, h5⟩ |
          ⟨t, h1, ⟨y, h4⟩, h5, h6, h7, h8, h9⟩
        · exact .inl ⟨t, h1, by omega, h3, hS0.trans h4, by omega, h6⟩
        · exact .inr (.inl ⟨t, h1, by omega, h3, ⟨_, hS0.trans h4⟩, by omega⟩)
        · exact .inr (.inr (.inl ⟨t, h1, by omega, ⟨_, hS0.trans h4⟩, h5⟩))
        · refine .inr (.inr (.inr ⟨t, h1, ⟨_, hS0.trans h4⟩, h5, by omega, h7, by omega, ?_⟩))
          rw [hlen] at h9
          simp only [List.length_cons, List.length_nil] at h9 ⊢
          omega

/-! ## Decoding codes -/

/-- A bit string that begins with the rest of a code decodes to its symbol first (42_code_map.md R90). -/
theorem decodeBits_code {t : HuffTree} {cand rest : BitString} {v : Symbol} (h : (cand ++ rest, v) ∈ leafCodes t)
    (hr : rest ≠ []) (bs : BitString) :
    decodeBits (leafCodes t) cand (rest ++ bs) =
      (v :: (decodeBits (leafCodes t) [] bs).1, (decodeBits (leafCodes t) [] bs).2) := by
  induction rest generalizing cand with
  | nil => exact absurd rfl hr
  | cons b rest ih =>
    have hassoc : cand ++ b :: rest = (cand ++ [b]) ++ rest := by simp
    rw [hassoc] at h
    rw [List.cons_append, decodeBits]
    cases hm : dmapFind (leafCodes t) (cand ++ [b]) with
    | some w =>
      have hw := (dmapFind_eq_some (leafCodes_nodup t) _ _).1 hm
      obtain ⟨he, rfl⟩ := leafCodes_prefixFree hw h (List.prefix_append _ _)
      have : rest = [] := by simpa using he
      subst this
      rfl
    | none =>
      have hne : rest ≠ [] := by
        rintro rfl
        rw [List.append_nil, ← dmapFind_eq_some (leafCodes_nodup t)] at h
        rw [h] at hm; cases hm
      exact ih h hne

/-- A payload of codes decodes to the symbols it encodes (45_decoder.md R106). -/
theorem decodeBits_payload {t : HuffTree} {f : Symbol → BitString} {syms : List Symbol}
    (h : ∀ v ∈ syms, (f v, v) ∈ leafCodes t) :
    decodeBits (leafCodes t) [] (syms.flatMap f) = (syms, []) := by
  induction syms with
  | nil => rfl
  | cons v syms ih =>
    have hv := h v (by simp)
    rw [List.flatMap_cons, decodeBits_code (cand := []) (by simpa using hv) (leafCodes_ne_nil hv),
      ih fun w hw => h w (by simp [hw])]

/-! ## The tree walk -/

/-- A bit string is a key exactly when it leads to a leaf (42_code_map.md R87). -/
theorem dmapFind_leafPaths (t : HuffTree) (k : BitString) (v : Symbol) :
    dmapFind (leafPaths t []) k = some v ↔ subtreeAt t k = some (.leaf v) := by
  rw [dmapFind_eq_some (leafPaths_nodup t), mem_leafPaths]

theorem subtreeAt_size {t u : HuffTree} {k : BitString} (h : subtreeAt t k = some u) :
    internalCount u + k.length ≤ internalCount t := by
  induction k generalizing t with
  | nil => simp [subtreeAt] at h; simp [h]
  | cons b k ih =>
    cases t with
    | leaf s => simp [subtreeAt] at h
    | node l r =>
      have := ih (by simpa [subtreeAt] using h)
      cases b <;> simp [internalCount] at this ⊢ <;> omega

theorem subtreeAt_self {t : HuffTree} {k : BitString} (h : subtreeAt t k = some t) : k = [] := by
  have := subtreeAt_size h
  exact List.length_eq_zero_iff.1 (by omega)

/-- The candidate-string form and the tree walk of a tree with two or more leaves are the same command
(45_decoder.md R105). -/
theorem decLoop_eq_decWalk {l r a b : HuffTree} {n : Nat} {cand : BitString} {s : State}
    (hm : s.dmap = leafCodes (.node l r)) (hu : subtreeAt (.node l r) cand = some (.node a b)) :
    decLoop n cand s = decWalk (.node l r) n (.node a b) s := by
  induction n generalizing cand a b s with
  | zero =>
    have : cand = [] ↔ (HuffTree.node a b) = .node l r := by
      constructor
      · rintro rfl; simpa [subtreeAt, eq_comm] using hu
      · intro h; rw [h] at hu; exact subtreeAt_self hu
    simp only [decLoop, decWalk, this]
  | succ n ih =>
    by_cases hend : 8 * s.inLen.toNat ≤ s.rpos.toNat
    · rw [decLoop_end hend, decWalk, cmd_bind_error (readBit_end hend)]
    have h0 : s.rpos.toNat < 8 * s.inLen.toNat := by omega
    rw [decWalk, cmd_bind_ok (readBit_ok h0)]
    have hnext : subtreeAt (.node l r) (cand ++ [inBit s s.rpos.toNat]) =
        some (if inBit s s.rpos.toNat then b else a) := by
      rw [subtreeAt_append, hu, Option.bind_some, subtreeAt, subtreeAt]
    cases hch : (if inBit s s.rpos.toNat then b else a) with
    | leaf v =>
      rw [hch] at hnext
      rw [decLoop_some (v := v) h0 (by rw [hm]; exact (dmapFind_leafPaths _ _ _).2 hnext)]
      simp only [hch]
      by_cases hfull : s.outLen = s.outCap
      · have := storeByte_full v (s := s.readTo (s.rpos.toNat + 1)) hfull
        rw [cmd_bind_error this, cmd_bind_error this]
      · have hst : storeByte v (s.readTo (s.rpos.toNat + 1)) = .ok () ((s.readTo (s.rpos.toNat + 1)).putOut v) := by
          have : ¬ (s.readTo (s.rpos.toNat + 1)).outLen = (s.readTo (s.rpos.toNat + 1)).outCap := hfull
          simp only [storeByte, this, if_false]
        rw [cmd_bind_ok hst, cmd_bind_ok hst]
        exact ih hm rfl
    | node c d =>
      rw [hch] at hnext
      have hnone : dmapFind s.dmap (cand ++ [inBit s s.rpos.toNat]) = none := by
        rw [hm]
        cases hf : dmapFind (leafCodes (.node l r)) (cand ++ [inBit s s.rpos.toNat]) with
        | none => rfl
        | some v =>
          have := (dmapFind_leafPaths _ _ _).1 hf
          rw [hnext] at this; cases this
      rw [decLoop_none h0 hnone]
      simp only [hch]
      exact ih hm hnext

/-- The candidate-string form and the "dead" flag of a single leaf are the same command (45_decoder.md R103, R105). -/
theorem decLoop_eq_decSingle {v : Symbol} {n : Nat} {cand : BitString} {s : State} (hm : s.dmap = leafCodes (.leaf v))
    (hc : cand = [] ∨ cand.head? = some false) : decLoop n cand s = decSingle v n (cand ≠ []) s := by
  induction n generalizing cand s with
  | zero => by_cases h : cand = [] <;> simp [decLoop, decSingle, h]
  | succ n ih =>
    by_cases hend : 8 * s.inLen.toNat ≤ s.rpos.toNat
    · rw [decLoop_end hend, decSingle, cmd_bind_error (readBit_end hend)]
    have h0 : s.rpos.toNat < 8 * s.inLen.toNat := by omega
    rw [decSingle, cmd_bind_ok (readBit_ok h0)]
    by_cases hone : cand = [] ∧ inBit s s.rpos.toNat = true
    · obtain ⟨rfl, hb⟩ := hone
      rw [decLoop_some (v := v) h0 (by rw [hm, hb]; simp [leafCodes, dmapFind]), hb]
      simp only [ne_eq, not_true_eq_false, decide_false, Bool.not_true, Bool.or_self, Bool.false_eq_true, if_false]
      by_cases hfull : s.outLen = s.outCap
      · have := storeByte_full v (s := s.readTo (s.rpos.toNat + 1)) hfull
        rw [cmd_bind_error this, cmd_bind_error this]
      · have hst : storeByte v (s.readTo (s.rpos.toNat + 1)) = .ok () ((s.readTo (s.rpos.toNat + 1)).putOut v) := by
          have : ¬ (s.readTo (s.rpos.toNat + 1)).outLen = (s.readTo (s.rpos.toNat + 1)).outCap := hfull
          simp only [storeByte, this, if_false]
        rw [cmd_bind_ok hst, cmd_bind_ok hst]
        have := ih (cand := []) (s := (s.readTo (s.rpos.toNat + 1)).putOut v) hm (.inl rfl)
        simpa using this
    · have hhead : (cand ++ [inBit s s.rpos.toNat]).head? = some false := by
        rcases hc with rfl | hc
        · simpa using hone
        · cases cand <;> simp_all
      have hnone : dmapFind s.dmap (cand ++ [inBit s s.rpos.toNat]) = none := by
        rw [hm]
        simp only [leafCodes, dmapFind, ite_eq_right_iff, reduceCtorEq, imp_false]
        intro he
        rw [← he] at hhead
        simp at hhead
      rw [decLoop_none h0 hnone, ih (s := s.readTo (s.rpos.toNat + 1)) hm (.inr hhead)]
      have hflag : (decide (cand ≠ []) || !inBit s s.rpos.toNat) = true := by
        by_cases hcn : cand = []
        · simpa [hcn] using hone
        · simp [hcn]
      rw [if_pos hflag]
      congr 1
      simp

end Sys2Proof.Machine
end

