-- ==== Sys2Proof/Laws/Frames.lean ====
section
/-! SUPPORT. What a command cannot change: any view of the state that its primitives keep, whatever the command does with
them (00_scope.md R11). -/

namespace Sys2Proof.Machine

/-- The state a command has reached, whether it ended or raised. -/
def reached {α : Type} : EStateM.Result ErrorCode State α → State
  | .ok _ t => t
  | .error _ t => t

/-- The command keeps the view `f` of the state. -/
def Keeps {α β : Type} (f : State → β) (c : Cmd α) : Prop := ∀ s, f (reached (c s)) = f s

section Keeps
variable {α β γ : Type} {f : State → β}

theorem Keeps.pure (a : α) : Keeps f (pure a : Cmd α) := fun _ => rfl

theorem Keeps.throw (e : ErrorCode) : Keeps f (throw e : Cmd α) := fun _ => rfl

theorem Keeps.get : Keeps f (get : Cmd State) := fun _ => rfl

theorem Keeps.modify {g : State → State} (h : ∀ s, f (g s) = f s) : Keeps f (modify g : Cmd Unit) := h

theorem Keeps.bind {c : Cmd α} {k : α → Cmd γ} (hc : Keeps f c) (hk : ∀ a, Keeps f (k a)) : Keeps f (c >>= k) := by
  intro s
  have h1 := hc s
  simp only [Bind.bind, EStateM.bind]
  cases h : c s with
  | ok a t => rw [h] at h1; rw [← h1]; exact hk a t
  | error e t => rw [h] at h1; exact h1

/-- A command that raises, or goes on as a command that keeps the view from a state with the same view. -/
theorem Keeps.ite {p : State → Prop} [DecidablePred p] {c d : Cmd α} (hc : Keeps f c) (hd : Keeps f d) :
    Keeps f (fun s => if p s then c s else d s) := by
  intro s
  by_cases h : p s
  · simp only [h, if_true]; exact hc s
  · simp only [h, if_false]; exact hd s

/-- The view is kept by the writer's own updates. -/
structure WriterView (f : State → β) : Prop where
  putOut : ∀ s v, f (s.putOut v) = f s
  withWriter : ∀ s b c, f (s.withWriter b c) = f s

theorem keeps_storeByte (h : ∀ s v, f (s.putOut v) = f s) (v : Byte) : Keeps f (storeByte v) := by
  intro s
  rw [storeByte]
  split
  · rfl
  · exact h s v

theorem keeps_writeBit (h : WriterView f) (b : Bool) : Keeps f (writeBit b) := by
  intro s
  rw [writeBit]
  split
  · rw [keeps_storeByte h.putOut]; exact h.withWriter _ _ _
  · exact h.withWriter _ _ _

theorem keeps_writeString (h : WriterView f) (bs : BitString) : Keeps f (writeString bs) := by
  induction bs with
  | nil => exact Keeps.pure ()
  | cons b bs ih => exact Keeps.bind (keeps_writeBit h b) fun _ => ih

theorem keeps_flush (h : WriterView f) : Keeps f flush := by
  intro s
  rw [flush]
  split
  · rw [keeps_storeByte h.putOut]; exact h.withWriter _ _ _
  · rfl

theorem keeps_ser (h : WriterView f) (hp : ∀ s, f s.treeWritten = f s) (t : HuffTree) : Keeps f (ser t) := by
  rw [ser, serNode_eq]
  exact Keeps.bind (keeps_writeString h _) fun _ => Keeps.modify hp

theorem keeps_enc (h : WriterView f) (hn : ∀ s n, f (s.setNBits n) = f s) (hp : ∀ s, f s.finished = f s) :
    Keeps f enc := by
  intro s
  rw [enc]
  split
  · rfl
  split
  · rfl
  split
  · rfl
  rw [← hn s (BitVec.ofNat 64 (payloadCount s))]
  exact Keeps.bind (keeps_writeString h _) (fun _ => Keeps.bind (keeps_writeString h _) fun _ =>
    Keeps.bind (keeps_flush h) fun _ => Keeps.modify hp) _

theorem keeps_readBit (h : ∀ s, f s.stepReader = f s) (e : ErrorCode) : Keeps f (readBit e) := by
  intro s
  rw [readBit]
  split
  · rfl
  · exact h s

theorem keeps_readBitsInto (h : ∀ s, f s.stepReader = f s) (n : Nat) (e : ErrorCode) (v : Nat) :
    Keeps f (readBitsInto n e v) := by
  induction n generalizing v with
  | zero => exact Keeps.pure v
  | succ n ih => exact Keeps.bind (keeps_readBit h e) fun _ => ih _

theorem keeps_readBits (h : ∀ s, f s.stepReader = f s) (n : Nat) (e : ErrorCode) : Keeps f (readBits n e) :=
  Keeps.bind (keeps_readBitsInto h n e 0) fun _ => Keeps.pure _

theorem keeps_dsrNode (h : ∀ s, f s.stepReader = f s) (d i : Nat) : Keeps f (dsrNode d i) := by
  induction d generalizing i with
  | zero => exact Keeps.throw _
  | succ d ih =>
    rw [dsrNode]
    refine Keeps.bind (keeps_readBit h _) fun b => ?_
    split
    · exact Keeps.bind (keeps_readBits h _ _) fun _ => Keeps.pure _
    split
    · exact Keeps.throw _
    · exact Keeps.bind (ih _) fun _ => Keeps.bind (ih _) fun _ => Keeps.pure _

theorem keeps_dsr (h : ∀ s, f s.stepReader = f s) (ht : ∀ s t, f (s.treeRead t) = f s) : Keeps f dsr := by
  refine Keeps.ite (fun _ => rfl) ?_
  exact Keeps.bind (keeps_dsrNode h _ _) fun _ => Keeps.modify fun s => ht s _

theorem keeps_decLoop (h : ∀ s, f s.stepReader = f s) (hs : ∀ s v, f (s.putOut v) = f s) (n : Nat) (cand : BitString) :
    Keeps f (decLoop n cand) := by
  induction n generalizing cand with
  | zero =>
    rw [decLoop]
    split
    · exact Keeps.pure _
    · exact Keeps.throw _
  | succ n ih =>
    rw [decLoop]
    refine Keeps.bind (keeps_readBit h _) fun b => Keeps.bind Keeps.get fun s => ?_
    split
    · exact Keeps.bind (keeps_storeByte hs _) fun _ => ih _
    · exact ih _

theorem keeps_dec (h : ∀ s, f s.stepReader = f s) (hs : ∀ s v, f (s.putOut v) = f s)
    (hn : ∀ s n, f (s.setNBits n) = f s) (hp : ∀ s, f s.finished = f s) : Keeps f dec := by
  refine Keeps.ite (fun _ => rfl) ?_
  exact Keeps.bind (keeps_readBits h _ _) fun n => Keeps.bind (Keeps.modify fun s => hn s n) fun _ =>
    Keeps.bind (keeps_decLoop h hs _ _) fun _ => Keeps.modify hp

theorem keeps_bld (ht : ∀ s t, f (s.treeBuilt t) = f s) : Keeps f bld := by
  intro s
  rw [bld]
  split
  · rfl
  · exact ht s _

theorem Keeps.ok {c : Cmd α} (hc : Keeps f c) {a : α} {s t : State} (h : c s = .ok a t) : f t = f s := by
  have h1 := hc s
  rw [h] at h1; exact h1

theorem Keeps.error {c : Cmd α} (hc : Keeps f c) {e : ErrorCode} {s t : State} (h : c s = .error e t) : f t = f s := by
  have h1 := hc s
  rw [h] at h1; exact h1

/-- A command run to its end or to its error entry keeps the view, if the error entry does. -/
theorem Keeps.runCmd {c : Cmd Unit} (hc : Keeps f c) (he : ∀ e s, f (errorEntry e s) = f s) {s t : State}
    (h : runCmd c s = .next t) : f t = f s := by
  have h1 := hc s
  rw [Machine.runCmd] at h
  cases hr : c s with
  | ok a u => rw [hr] at h h1; cases h; exact h1
  | error e u => rw [hr] at h h1; cases h; rw [he]; exact h1

end Keeps

/-! ## What a command answers -/

/-- `dispatch`, case by case (30_encoding.md R70). -/
theorem dispatch_error {legal : State → Bool} {run : State → Result} {s : State} (h : s.phase = .error) :
    dispatch legal run s = .next s := by simp [dispatch, h]

theorem dispatch_illegal {legal : State → Bool} {run : State → Result} {s : State} (h : s.phase ≠ .error)
    (hl : legal s = false) : dispatch legal run s = .next (errorEntry .sequence s) := by simp [dispatch, h, hl]

theorem dispatch_legal {legal : State → Bool} {run : State → Result} {s : State} (h : s.phase ≠ .error)
    (hl : legal s = true) : dispatch legal run s = run s := by simp [dispatch, h, hl]

/-- What a dispatched command that answers a next state did (30_encoding.md R70). -/
theorem dispatch_cases {legal : State → Bool} {run : State → Result} {s t : State} (h : dispatch legal run s = .next t) :
    (s.phase = .error ∧ t = s) ∨ (s.phase ≠ .error ∧ legal s = false ∧ t = errorEntry .sequence s) ∨
      (s.phase ≠ .error ∧ legal s = true ∧ run s = .next t) := by
  rw [dispatch] at h
  split at h
  · next he => cases h; exact .inl ⟨he, rfl⟩
  · next he =>
    split at h
    · next hl => exact .inr (.inr ⟨he, hl, h⟩)
    · next hl => cases h; exact .inr (.inl ⟨he, by simpa using hl, rfl⟩)

theorem runCmd_ok {c : Cmd Unit} {s t : State} (h : c s = .ok () t) : runCmd c s = .next t := by simp [runCmd, h]

theorem runCmd_error {c : Cmd Unit} {s t : State} {e : ErrorCode} (h : c s = .error e t) :
    runCmd c s = .next (errorEntry e t) := by simp [runCmd, h]

/-- The error entry, field by field (60_exceptions.md R110). -/
theorem errorEntry_enters (e : ErrorCode) (s : State) : EntersError e s (errorEntry e s) where
  ecode := rfl
  phase := rfl
  outLen := rfl
  rpos := rfl
  nBits := rfl
  dir := rfl
  arg := rfl
  inLen := rfl
  inMem := rfl
  inDraw := rfl
  result := rfl
  freq := rfl
  inCap := rfl
  outCap := rfl
  busy := rfl
  host := rfl
  hostData := rfl

/-- An error raised after writing alone leaves the host-visible state as it was before the writing. -/
theorem WriteFrame.enters {s u : State} (h : WriteFrame s u) (e : ErrorCode) : EntersError e s (errorEntry e u) := by
  have := errorEntry_enters e u
  rw [h.others] at this ⊢
  exact ⟨this.1, this.2, this.3, this.4, this.5, this.6, this.7, this.8, this.9, this.10, this.11, this.12, this.13,
    this.14, this.15, this.16, this.17⟩

end Sys2Proof.Machine
end

