-- ==== Sys2Proof/Laws/Commands.lean ====
section
/-! SUPPORT. What each command can do, said once: how Dispatch turns it away (30_encoding.md R70), and how its body ends
(60_exceptions.md R109, R112). -/

namespace Sys2Proof.Machine

/-! ## The errors a command can raise -/

/-- Every error the command raises is in the list. -/
def Raises {α : Type} (es : List ErrorCode) (c : Cmd α) : Prop := ∀ s e t, c s = .error e t → e ∈ es

section Raises
variable {α β : Type} {es : List ErrorCode}

theorem Raises.pure (a : α) : Raises es (pure a : Cmd α) := by
  intro s e t h; cases h

theorem Raises.throw {e : ErrorCode} (h : e ∈ es) : Raises es (throw e : Cmd α) := by
  intro s e' t h'; cases h'; exact h

theorem Raises.get : Raises es (get : Cmd State) := by
  intro s e t h; cases h

theorem Raises.modify (g : State → State) : Raises es (modify g : Cmd Unit) := by
  intro s e t h; cases h

theorem Raises.bind {c : Cmd α} {k : α → Cmd β} (hc : Raises es c) (hk : ∀ a, Raises es (k a)) : Raises es (c >>= k) := by
  intro s e t h
  simp only [Bind.bind, EStateM.bind] at h
  cases hr : c s with
  | ok a u => rw [hr] at h; exact hk a u e t h
  | error e' u => rw [hr] at h; cases h; exact hc s _ _ hr

theorem raises_storeByte (h : ErrorCode.outputOverflow ∈ es) (v : Byte) : Raises es (storeByte v) := by
  intro s e t h'
  rw [storeByte] at h'
  split at h' <;> cases h'
  exact h

theorem raises_writeBit (h : ErrorCode.outputOverflow ∈ es) (b : Bool) : Raises es (writeBit b) := by
  intro s e t h'
  rw [writeBit] at h'
  split at h'
  · exact raises_storeByte h _ _ _ _ h'
  · cases h'

theorem raises_writeString (h : ErrorCode.outputOverflow ∈ es) (bs : BitString) : Raises es (writeString bs) := by
  induction bs with
  | nil => exact Raises.pure ()
  | cons b bs ih => exact Raises.bind (raises_writeBit h b) fun _ => ih

theorem raises_flush (h : ErrorCode.outputOverflow ∈ es) : Raises es flush := by
  intro s e t h'
  rw [flush] at h'
  split at h'
  · exact raises_storeByte h _ _ _ _ h'
  · cases h'

theorem raises_readBit {e : ErrorCode} (h : e ∈ es) : Raises es (readBit e) := by
  intro s e' t h'
  rw [readBit] at h'
  split at h' <;> cases h'
  exact h

theorem raises_readBitsInto {e : ErrorCode} (h : e ∈ es) (n v : Nat) : Raises es (readBitsInto n e v) := by
  induction n generalizing v with
  | zero => exact Raises.pure v
  | succ n ih => exact Raises.bind (raises_readBit h) fun _ => ih _

theorem raises_readBits {e : ErrorCode} (h : e ∈ es) (n : Nat) : Raises es (readBits n e) :=
  Raises.bind (raises_readBitsInto h n 0) fun _ => Raises.pure _

theorem raises_dsrNode (h : ErrorCode.malformedStream ∈ es) (d i : Nat) : Raises es (dsrNode d i) := by
  induction d generalizing i with
  | zero => exact Raises.throw h
  | succ d ih =>
    rw [dsrNode]
    refine Raises.bind (raises_readBit h) fun b => ?_
    split
    · exact Raises.bind (raises_readBits h _) fun _ => Raises.pure _
    split
    · exact Raises.throw h
    · exact Raises.bind (ih _) fun _ => Raises.bind (ih _) fun _ => Raises.pure _

theorem raises_decLoop (h1 : ErrorCode.malformedStream ∈ es) (h2 : ErrorCode.truncatedPayload ∈ es)
    (h3 : ErrorCode.outputOverflow ∈ es) (n : Nat) (cand : BitString) : Raises es (decLoop n cand) := by
  induction n generalizing cand with
  | zero =>
    rw [decLoop]
    split
    · exact Raises.pure _
    · exact Raises.throw h1
  | succ n ih =>
    rw [decLoop]
    refine Raises.bind (raises_readBit h2) fun b => Raises.bind Raises.get fun s => ?_
    split
    · exact Raises.bind (raises_storeByte h3 _) fun _ => ih _
    · exact ih _

end Raises

/-- The errors of BLD, SER, ENC, DSR and DEC are those of 60_exceptions.md R112. -/
theorem raises_bld : Raises (ownErrors .bld) bld := by
  intro s e t h
  rw [bld] at h
  split at h <;> cases h
  simp [ownErrors]

theorem raises_ser (t : HuffTree) : Raises (ownErrors .ser) (ser t) := by
  rw [ser, serNode_eq]
  exact Raises.bind (raises_writeString (by simp [ownErrors]) _) fun _ => Raises.modify _

theorem raises_enc : Raises (ownErrors .enc) enc := by
  have ho : ErrorCode.outputOverflow ∈ ownErrors .enc := by simp [ownErrors]
  have hw : ∀ n p, Raises (ownErrors .enc) (encWrite n p) := fun n p =>
    Raises.bind (raises_writeString ho _) fun _ => Raises.bind (raises_writeString ho _) fun _ =>
      Raises.bind (raises_flush ho) fun _ => Raises.modify _
  intro s e t h
  rw [enc] at h
  split at h
  · cases h; simp [ownErrors]
  split at h
  · cases h; simp [ownErrors]
  split at h
  · cases h; simp [ownErrors]
  exact hw _ _ _ _ _ h

theorem raises_dsr : Raises (ownErrors .dsr) dsr := by
  intro s e t h
  rw [dsr] at h
  split at h
  · cases h; simp [ownErrors]
  exact Raises.bind (raises_dsrNode (by simp [ownErrors]) _ _) (fun _ => Raises.modify _) _ _ _ h

theorem raises_dec : Raises (ownErrors .dec) dec := by
  intro s e t h
  rw [dec] at h
  split at h
  · cases h; simp [ownErrors]
  exact Raises.bind (raises_readBits (by simp [ownErrors]) _) (fun _ => Raises.bind (Raises.modify _) fun _ =>
    Raises.bind (raises_decLoop (by simp [ownErrors]) (by simp [ownErrors]) (by simp [ownErrors]) _ _) fun _ =>
      Raises.modify _) _ _ _ h

/-! ## How a command that succeeds ends -/

theorem bld_end {s t : State} (h : bld s = .ok () t) : t.phase = .treeReady ∧ t.dir = .compress := by
  rw [bld] at h
  split at h <;> cases h
  exact ⟨rfl, rfl⟩

theorem ser_end {tr : HuffTree} {s t : State} (h : ser tr s = .ok () t) : t.phase = .treeWritten := by
  rw [ser, cmd_bind_eq_ok] at h
  obtain ⟨_, u, -, h⟩ := h
  cases h; rfl

theorem enc_end {s t : State} (h : enc s = .ok () t) : t.phase = .done := by
  rw [enc] at h
  split at h
  · cases h
  split at h
  · cases h
  split at h
  · cases h
  rw [encWrite, cmd_bind_eq_ok] at h
  obtain ⟨_, u, -, h⟩ := h
  rw [cmd_bind_eq_ok] at h
  obtain ⟨_, v, -, h⟩ := h
  rw [cmd_bind_eq_ok] at h
  obtain ⟨_, w, -, h⟩ := h
  cases h; rfl

theorem dsr_end {s t : State} (h : dsr s = .ok () t) : t.phase = .treeReady ∧ t.dir = .decompress := by
  rw [dsr] at h
  split at h
  · cases h
  rw [dsrTree, cmd_bind_eq_ok] at h
  obtain ⟨_, u, -, h⟩ := h
  cases h; exact ⟨rfl, rfl⟩

theorem dec_end {s t : State} (h : dec s = .ok () t) : t.phase = .done := by
  rw [dec] at h
  split at h
  · cases h
  rw [decStream, cmd_bind_eq_ok] at h
  obtain ⟨n, u, -, h⟩ := h
  rw [cmd_bind_eq_ok] at h
  obtain ⟨_, v, -, h⟩ := h
  rw [cmd_bind_eq_ok] at h
  obtain ⟨_, w, -, h⟩ := h
  cases h; rfl

/-! ## Dispatch and the body of each command -/

/-- What Dispatch runs when a command is legal (30_encoding.md R70: `Execute`). -/
def body (i : Instr) (s : State) : Result :=
  match i with
  | .clr => .next (clearSession s)
  | .ldf sym => .next (s.setFreq sym s.arg)
  | .bld => runCmd bld s
  | .map =>
    match s.tree with
    | none => .fault .treeMissing
    | some t => .next (deriveMaps t s)
  | .ser =>
    match s.tree with
    | none => .fault .treeMissing
    | some t => runCmd (ser t) s
  | .enc => runCmd enc s
  | .dsr => runCmd dsr s
  | .dec => runCmd dec s
  | .rdl sym => .next (s.setResult ((codeLenOf s sym).setWidth 64))
  | .rdc sym w => .next (s.setResult (codeWindow s sym w))

/-- A well-formed command other than CLR is dispatched by the legality table (30_encoding.md R69, R70). -/
theorem exec_eq_dispatch {i : Instr} (hi : i ≠ .clr) (hw : i.wellFormed = true) (s : State) :
    exec i s = dispatch (fun s => legalTable i s.phase s.dir) (body i) s := by
  have hb : legalReadBack = fun s => decide (s.phase ∈ [.mapReady, .treeWritten, .done]) := by
    funext s; simp [legalReadBack]
  cases i with
  | clr => exact absurd rfl hi
  | rdc sym w =>
    have hw : w ≤ 3 := by simpa [Instr.wellFormed] using hw
    rw [exec, execRdc, if_pos hw, hb]; rfl
  | rdl sym => rw [exec, execRdl, hb]; rfl
  | ldf sym => rfl
  | bld => rfl
  | map => rfl
  | ser => rfl
  | enc => rfl
  | dsr => rfl
  | dec => rfl

theorem exec_legal {i : Instr} {s : State} (hw : i.wellFormed = true) (hp : s.phase ≠ .error)
    (hl : legalTable i s.phase s.dir = true) : exec i s = body i s := by
  by_cases hi : i = .clr
  · subst hi; rfl
  · rw [exec_eq_dispatch hi hw]; exact dispatch_legal hp hl

theorem exec_sequence {i : Instr} {s : State} (hw : i.wellFormed = true) (hp : s.phase ≠ .error)
    (hl : legalTable i s.phase s.dir = false) : exec i s = .next (errorEntry .sequence s) := by
  by_cases hi : i = .clr
  · subst hi; simp [legalTable] at hl
  · rw [exec_eq_dispatch hi hw]; exact dispatch_illegal hp hl

theorem wellFormed_false {i : Instr} (h : i.wellFormed = false) : ∃ sym w, i = .rdc sym w ∧ ¬ w ≤ 3 := by
  cases i <;> simp [Instr.wellFormed] at h ⊢
  simpa using h

theorem exec_illegal {i : Instr} {s : State} (hw : i.wellFormed = false) (hp : s.phase ≠ .error) :
    exec i s = .next (errorEntry .illegalCommand s) := by
  obtain ⟨sym, w, rfl, h⟩ := wellFormed_false hw
  rw [exec, execRdc, if_neg h]
  exact dispatch_legal hp rfl

theorem exec_error {i : Instr} {s : State} (hi : i ≠ .clr) (hp : s.phase = .error) : exec i s = .next s := by
  cases hw : i.wellFormed
  · obtain ⟨sym, w, rfl, h⟩ := wellFormed_false hw
    rw [exec, execRdc, if_neg h]
    exact dispatch_error hp
  · rw [exec_eq_dispatch hi hw]; exact dispatch_error hp

/-- The ways a command answers a next state (30_encoding.md R70). -/
theorem exec_cases {i : Instr} {s t : State} (h : exec i s = .next t) :
    (i = .clr ∧ t = clearSession s) ∨ (i ≠ .clr ∧ s.phase = .error ∧ t = s) ∨
      (i ≠ .clr ∧ s.phase ≠ .error ∧
        ((i.wellFormed = false ∧ t = errorEntry .illegalCommand s) ∨
          (i.wellFormed = true ∧ legalTable i s.phase s.dir = false ∧ t = errorEntry .sequence s) ∨
          (i.wellFormed = true ∧ legalTable i s.phase s.dir = true ∧ body i s = .next t))) := by
  by_cases hi : i = .clr
  · subst hi; cases h; exact .inl ⟨rfl, rfl⟩
  by_cases hp : s.phase = .error
  · rw [exec_error hi hp] at h; cases h; exact .inr (.inl ⟨hi, hp, rfl⟩)
  refine .inr (.inr ⟨hi, hp, ?_⟩)
  cases hw : i.wellFormed
  · rw [exec_illegal hw hp] at h; cases h; exact .inl ⟨rfl, rfl⟩
  cases hl : legalTable i s.phase s.dir
  · rw [exec_sequence hw hp hl] at h; cases h; exact .inr (.inl ⟨rfl, rfl, rfl⟩)
  · rw [exec_legal hw hp hl] at h; exact .inr (.inr ⟨rfl, rfl, h⟩)

theorem runCmd_cases {c : Cmd Unit} {s t : State} (h : runCmd c s = .next t) :
    c s = .ok () t ∨ ∃ e u, c s = .error e u ∧ t = errorEntry e u := by
  rw [runCmd] at h
  cases hr : c s with
  | ok a u => rw [hr] at h; cases h; exact .inl rfl
  | error e u => rw [hr] at h; cases h; exact .inr ⟨e, u, rfl, rfl⟩

/-- How a legal command ends: with the PHASE and DIR of the table, or with an error of its own (30_encoding.md R69;
60_exceptions.md R112). -/
theorem body_end {i : Instr} {s t : State} (hl : legalTable i s.phase s.dir = true) (h : body i s = .next t) :
    (t.phase = phaseAfter i s.phase ∧ (i ≠ .clr → t.ecode = s.ecode) ∧ (i = .bld → t.dir = .compress) ∧
        (i = .dsr → t.dir = .decompress)) ∨
      ∃ e u, e ∈ ownErrors i ∧ t = errorEntry e u := by
  cases i
  case clr => cases h; exact .inl ⟨rfl, by simp [clearSession], by simp, by simp⟩
  case ldf sym =>
    cases h
    have hp : s.phase = .idle := by simpa [legalTable] using hl
    exact .inl ⟨hp, fun _ => rfl, by simp, by simp⟩
  case rdl sym => cases h; exact .inl ⟨rfl, fun _ => rfl, by simp, by simp⟩
  case rdc sym w => cases h; exact .inl ⟨rfl, fun _ => rfl, by simp, by simp⟩
  case map =>
    simp only [body] at h
    split at h
    · cases h
    · next tr _ =>
      cases h
      refine .inl ⟨rfl, fun _ => ?_, by simp, by simp⟩
      rw [deriveMaps_frame]
  case ser =>
    simp only [body] at h
    split at h
    · cases h
    · next tr _ =>
      rcases runCmd_cases h with h | ⟨e, u, he, rfl⟩
      · exact .inl ⟨ser_end h, fun _ => (keeps_ser ⟨fun _ _ => rfl, fun _ _ _ => rfl⟩ (fun _ => rfl) _).ok h, by simp, by simp⟩
      · exact .inr ⟨e, u, raises_ser tr _ _ _ he, rfl⟩
  case bld =>
    rcases runCmd_cases h with h | ⟨e, u, he, rfl⟩
    · exact .inl ⟨(bld_end h).1, fun _ => (keeps_bld fun _ _ => rfl).ok h, fun _ => (bld_end h).2, by simp⟩
    · exact .inr ⟨e, u, raises_bld _ _ _ he, rfl⟩
  case enc =>
    rcases runCmd_cases h with h | ⟨e, u, he, rfl⟩
    · exact .inl ⟨enc_end h, fun _ => (keeps_enc ⟨fun _ _ => rfl, fun _ _ _ => rfl⟩ (fun _ _ => rfl) fun _ => rfl).ok h, by simp, by simp⟩
    · exact .inr ⟨e, u, raises_enc _ _ _ he, rfl⟩
  case dsr =>
    rcases runCmd_cases h with h | ⟨e, u, he, rfl⟩
    · exact .inl ⟨(dsr_end h).1, fun _ => (keeps_dsr (fun _ => rfl) fun _ _ => rfl).ok h, by simp, fun _ => (dsr_end h).2⟩
    · exact .inr ⟨e, u, raises_dsr _ _ _ he, rfl⟩
  case dec =>
    rcases runCmd_cases h with h | ⟨e, u, he, rfl⟩
    · exact .inl ⟨dec_end h,
        fun _ => (keeps_dec (fun _ => rfl) (fun _ _ => rfl) (fun _ _ => rfl) fun _ => rfl).ok h, by simp, by simp⟩
    · exact .inr ⟨e, u, raises_dec _ _ _ he, rfl⟩

/-- A legal command never raises SEQUENCE or ILLEGAL_COMMAND, nor code 0 (60_exceptions.md R109). -/
theorem ownErrors_codes {i : Instr} {e : ErrorCode} (h : e ∈ ownErrors i) :
    e ≠ .sequence ∧ e ≠ .illegalCommand ∧ e ≠ .none := by
  cases i <;> simp [ownErrors] at h <;> (try rcases h with rfl | rfl | rfl | rfl) <;> simp_all

/-! ## What no command changes -/

/-- The view `f` of the state is kept by every update a command makes. -/
structure CommandView {β : Type} (f : State → β) : Prop where
  reads : ∀ s, f s.stepReader = f s
  stores : ∀ s v, f (s.putOut v) = f s
  writes : ∀ s b c, f (s.withWriter b c) = f s
  counts : ∀ s n, f (s.setNBits n) = f s
  finishes : ∀ s, f s.finished = f s
  treeWrites : ∀ s, f s.treeWritten = f s
  treeReads : ∀ s t, f (s.treeRead t) = f s
  treeBuilds : ∀ s t, f (s.treeBuilt t) = f s
  clears : ∀ s, f (clearSession s) = f s
  loads : ∀ s sym v, f (s.setFreq sym v) = f s
  results : ∀ s v, f (s.setResult v) = f s
  maps : ∀ s t, f (deriveMaps t s) = f s
  errors : ∀ e s, f (errorEntry e s) = f s

/-- A view that every update keeps is kept by every command. -/
theorem CommandView.exec {β : Type} {f : State → β} (hf : CommandView f) {i : Instr} {s t : State}
    (h : exec i s = .next t) : f t = f s := by
  rcases exec_cases h with ⟨rfl, rfl⟩ | ⟨_, _, rfl⟩ | ⟨_, _, ⟨_, rfl⟩ | ⟨_, _, rfl⟩ | ⟨_, _, hb⟩⟩
  · exact hf.clears s
  · rfl
  · exact hf.errors _ _
  · exact hf.errors _ _
  cases i with
  | clr => cases hb; exact hf.clears s
  | ldf sym => cases hb; exact hf.loads _ _ _
  | rdl sym => cases hb; exact hf.results _ _
  | rdc sym w => cases hb; exact hf.results _ _
  | bld => exact (keeps_bld hf.treeBuilds).runCmd hf.errors hb
  | enc => exact (keeps_enc ⟨hf.stores, hf.writes⟩ hf.counts hf.finishes).runCmd hf.errors hb
  | dsr => exact (keeps_dsr hf.reads hf.treeReads).runCmd hf.errors hb
  | dec => exact (keeps_dec hf.reads hf.stores hf.counts hf.finishes).runCmd hf.errors hb
  | map =>
    simp only [body] at hb
    split at hb
    · cases hb
    · cases hb; exact hf.maps _ _
  | ser =>
    simp only [body] at hb
    split at hb
    · cases hb
    · exact (keeps_ser ⟨hf.stores, hf.writes⟩ hf.treeWrites _).runCmd hf.errors hb

end Sys2Proof.Machine
end

