-- ==== Sys2Proof/Laws/PerInstr.lean ====
section
/-! SUPPORT. Statements made of every command as syntax, one lemma per constructor: decoding its word gives it back, every
operand at every value (30_encoding.md R65 to R68, R74). -/

namespace Sys2Proof.Laws.RoundTrip

/-- A well-formed command is what its word decodes to. -/
def Statement (i : Instr) : Prop := i.wellFormed = true → decode (encode i) = .instr i

theorem clr : Statement .clr := fun _ => by decide

theorem bld : Statement .bld := fun _ => by decide

theorem map : Statement .map := fun _ => by decide

theorem ser : Statement .ser := fun _ => by decide

theorem enc : Statement .enc := fun _ => by decide

theorem dsr : Statement .dsr := fun _ => by decide

theorem dec : Statement .dec := fun _ => by decide

/-- An assembled word as a number: each field at its place. -/
theorem assemble_toNat (opc sym sel : BitVec 8) :
    (assemble opc sym sel).toNat = opc.toNat + 2 ^ 8 * sym.toNat + 2 ^ 16 * sel.toNat := by
  have h1 := opc.isLt
  have h2 := sym.isLt
  rw [assemble, BitVec.toNat_append, BitVec.toNat_append, BitVec.toNat_append,
    show BitVec.toNat (0 : BitVec 8) = 0 from rfl, ← Nat.shiftLeft_add_eq_or_of_lt h1, Nat.zero_shiftLeft, Nat.zero_or,
    ← Nat.shiftLeft_add_eq_or_of_lt h2, Nat.shiftLeft_eq, Nat.shiftLeft_eq]
  omega

/-- The four fields of an assembled word. -/
theorem assemble_fields (opc sym sel : BitVec 8) :
    opcField (assemble opc sym sel) = opc ∧ symField (assemble opc sym sel) = sym ∧
      selField (assemble opc sym sel) = sel ∧ rsvField (assemble opc sym sel) = 0 := by
  have h := assemble_toNat opc sym sel
  have h1 := opc.isLt
  have h2 := sym.isLt
  have h3 := sel.isLt
  refine ⟨?_, ?_, ?_, ?_⟩ <;> apply BitVec.eq_of_toNat_eq <;>
    simp only [opcField, symField, selField, rsvField, BitVec.extractLsb'_toNat, h, Nat.shiftRight_eq_div_pow,
      show BitVec.toNat (0 : BitVec 8) = 0 from rfl] <;> omega

theorem ldf (sym : Symbol) : Statement (.ldf sym) := fun _ => by
  obtain ⟨h1, h2, h3, h4⟩ := assemble_fields 0x02 sym 0
  rw [encode, decode, h4, h1]
  simp only [decodeSym, h2, h3]
  rfl

theorem rdl (sym : Symbol) : Statement (.rdl sym) := fun _ => by
  obtain ⟨h1, h2, h3, h4⟩ := assemble_fields 0x09 sym 0
  rw [encode, decode, h4, h1]
  simp only [decodeSym, h2, h3]
  rfl

theorem rdc (sym : Symbol) (w : BitVec 8) : Statement (.rdc sym w) := fun h => by
  obtain ⟨h1, h2, h3, h4⟩ := assemble_fields 0x0A sym w
  have hw : w ≤ 3 := by simpa [Instr.wellFormed] using h
  rw [encode, decode, h4, h1]
  simp only [decodeSymSel, h2, h3, if_pos hw]
  rfl

end Sys2Proof.Laws.RoundTrip
end

