-- ==== Sys2Proof/Laws/Encoding.lean ====
section
/-! SUPPORT. The fields of a word (30_encoding.md R65), masks field by field (R68), and what each opcode decodes to (R67). -/

namespace Sys2Proof

/-- Two words with the same four fields are the same word. -/
theorem word_ext {v w : Word} (h1 : opcField v = opcField w) (h2 : symField v = symField w)
    (h3 : selField v = selField w) (h4 : rsvField v = rsvField w) : v = w := by
  have h := v.isLt
  have h' := w.isLt
  apply BitVec.eq_of_toNat_eq
  have e1 := congrArg BitVec.toNat h1
  have e2 := congrArg BitVec.toNat h2
  have e3 := congrArg BitVec.toNat h3
  have e4 := congrArg BitVec.toNat h4
  simp only [opcField, symField, selField, rsvField, BitVec.extractLsb'_toNat, Nat.shiftRight_eq_div_pow] at e1 e2 e3 e4
  omega

/-- A masked word, field by field. -/
theorem and_eq_iff (v w m : Word) : w &&& m = v ↔
    opcField w &&& opcField m = opcField v ∧ symField w &&& symField m = symField v ∧
      selField w &&& selField m = selField v ∧ rsvField w &&& rsvField m = rsvField v := by
  have hf : ∀ k, (w &&& m).extractLsb' k 8 = w.extractLsb' k 8 &&& m.extractLsb' k 8 := by
    intro k; ext j hj; simp
  simp only [opcField, symField, selField, rsvField, ← hf]
  constructor
  · rintro rfl; exact ⟨rfl, rfl, rfl, rfl⟩
  · rintro ⟨h1, h2, h3, h4⟩; exact word_ext h1 h2 h3 h4

theorem decode_plain {w : Word} {i j : Instr} : decodePlain w i = .instr j ↔ symField w = 0 ∧ selField w = 0 ∧ j = i := by
  rw [decodePlain]; split
  · simp_all
  · split <;> simp_all [eq_comm]

theorem decode_sym {w : Word} {f : Symbol → Instr} {j : Instr} :
    decodeSym w f = .instr j ↔ selField w = 0 ∧ j = f (symField w) := by
  rw [decodeSym]; split <;> simp_all [eq_comm]

theorem decode_symSel {w : Word} {f : Symbol → BitVec 8 → Instr} {j : Instr} :
    decodeSymSel w f = .instr j ↔ selField w ≤ 3 ∧ j = f (symField w) (selField w) := by
  rw [decodeSymSel]
  split
  · next h => simp only [h, true_and, Decoded.instr.injEq]; exact eq_comm
  · next h => simp only [h, false_and, reduceCtorEq]

/-- What each opcode decodes to (30_encoding.md R67). -/
theorem decode_opcode {w : Word} {i : Instr} : decode w = .instr i ↔ rsvField w = 0 ∧
    ((opcField w = 0x01 ∧ symField w = 0 ∧ selField w = 0 ∧ i = .clr) ∨
     (opcField w = 0x02 ∧ selField w = 0 ∧ i = .ldf (symField w)) ∨
     (opcField w = 0x03 ∧ symField w = 0 ∧ selField w = 0 ∧ i = .bld) ∨
     (opcField w = 0x04 ∧ symField w = 0 ∧ selField w = 0 ∧ i = .map) ∨
     (opcField w = 0x05 ∧ symField w = 0 ∧ selField w = 0 ∧ i = .ser) ∨
     (opcField w = 0x06 ∧ symField w = 0 ∧ selField w = 0 ∧ i = .enc) ∨
     (opcField w = 0x07 ∧ symField w = 0 ∧ selField w = 0 ∧ i = .dsr) ∨
     (opcField w = 0x08 ∧ symField w = 0 ∧ selField w = 0 ∧ i = .dec) ∨
     (opcField w = 0x09 ∧ selField w = 0 ∧ i = .rdl (symField w)) ∨
     (opcField w = 0x0A ∧ selField w ≤ 3 ∧ i = .rdc (symField w) (selField w))) := by
  have ho : ∀ n : Nat, n < 256 → ((opcField w).toNat = n ↔ opcField w = BitVec.ofNat 8 n) := by
    intro n hn
    constructor
    · intro h; apply BitVec.eq_of_toNat_eq; rw [h, BitVec.toNat_ofNat, Nat.mod_eq_of_lt hn]
    · intro h; rw [h, BitVec.toNat_ofNat, Nat.mod_eq_of_lt hn]
  rw [decode]
  split
  · simp_all
  · next hr =>
    have hr : rsvField w = 0 := by simpa using hr
    split
    all_goals first
      | (next h =>
          rw [ho _ (by decide)] at h
          simp [hr, h, decode_plain, decode_sym, decode_symSel])
      | skip
    next h1 h2 h3 h4 h5 h6 h7 h8 h9 h10 =>
    have hh : ∀ n : Nat, n < 256 → (opcField w).toNat ≠ n → opcField w ≠ BitVec.ofNat 8 n := by
      intro n hn h h'; exact h ((ho n hn).2 h')
    have := hh 1 (by decide) h1
    have := hh 2 (by decide) h2
    have := hh 3 (by decide) h3
    have := hh 4 (by decide) h4
    have := hh 5 (by decide) h5
    have := hh 6 (by decide) h6
    have := hh 7 (by decide) h7
    have := hh 8 (by decide) h8
    have := hh 9 (by decide) h9
    have := hh 10 (by decide) h10
    simp_all

/-! ## The masks of 30_encoding.md R68 -/

theorem byte_and_ones : ∀ x : BitVec 8, x &&& 0xFF#8 = x := by decide +kernel

theorem byte_and_zero : ∀ x : BitVec 8, x &&& 0x00#8 = 0 := by decide +kernel

theorem byte_and_high : ∀ x : BitVec 8, x &&& 0xFC#8 = 0 ↔ x ≤ 3 := by decide +kernel

/-- The mask of the commands without operands. -/
theorem mask_plain (w v : Word) : w &&& 0xFFFFFFFF#32 = v ↔ w = v := by
  rw [show (0xFFFFFFFF#32) = BitVec.allOnes 32 from rfl, BitVec.and_allOnes]

/-- The mask of LDF and RDL. -/
theorem mask_sym (w v : Word) (hv : symField v = 0) : w &&& 0xFFFF00FF#32 = v ↔
    opcField w = opcField v ∧ selField w = selField v ∧ rsvField w = rsvField v := by
  rw [and_eq_iff, show opcField 0xFFFF00FF#32 = 0xFF#8 by decide, show symField 0xFFFF00FF#32 = 0#8 by decide,
    show selField 0xFFFF00FF#32 = 0xFF#8 by decide, show rsvField 0xFFFF00FF#32 = 0xFF#8 by decide, byte_and_ones,
    byte_and_ones, byte_and_ones, byte_and_zero, hv]
  simp

/-- The mask of RDC. -/
theorem mask_symSel (w v : Word) (hv : symField v = 0) (hs : selField v = 0) : w &&& 0xFFFC00FF#32 = v ↔
    opcField w = opcField v ∧ selField w ≤ 3 ∧ rsvField w = rsvField v := by
  rw [and_eq_iff, show opcField 0xFFFC00FF#32 = 0xFF#8 by decide, show symField 0xFFFC00FF#32 = 0#8 by decide,
    show selField 0xFFFC00FF#32 = 0xFC#8 by decide, show rsvField 0xFFFC00FF#32 = 0xFF#8 by decide, byte_and_ones,
    byte_and_ones, byte_and_zero, hv, hs, byte_and_high]
  simp

/-- A command without operands has one word (30_encoding.md R68). -/
theorem decode_plain_word {w v : Word} {i : Instr} {o : BitVec 8} (hv : v = assemble o 0 0)
    (hi : decode w = .instr i ↔ rsvField w = 0 ∧ opcField w = o ∧ symField w = 0 ∧ selField w = 0) :
    decode w = .instr i ↔ w = v := by
  obtain ⟨h1, h2, h3, h4⟩ := Laws.RoundTrip.assemble_fields o 0 0
  rw [hi, hv]
  constructor
  · rintro ⟨a, b, c, d⟩
    exact word_ext (b.trans h1.symm) (c.trans h2.symm) (d.trans h3.symm) (a.trans h4.symm)
  · rintro rfl
    exact ⟨h4, h1, h2, h3⟩

end Sys2Proof
end

