-- ==== Sys2Proof/Laws/Host.lean ====
section
/-! SUPPORT. What one step can do: the write of a command, the reset, and the other actions of the host
(20_memory.md R57; 70_reset_and_hazards.md R122, R125, R126); and the fields of STATUS (10_state.md R26). -/

namespace Sys2Proof.Machine

theorem step_host {s : State} {op : HostOp} {rest : List HostOp} (hh : s.host = op :: rest) :
    step s = hostStep op { s with host := rest } := by rw [step, hh]

/-- The write of a word to CMD is Dispatch (30_encoding.md R70). -/
theorem step_cmd {w : Word} {s : State} {rest : List HostOp} (hb : s.busy = false) (hh : s.host = cmdWrite w :: rest) :
    step s = issue w { s with host := rest } := by
  rw [step_host hh]
  simp [cmdWrite, hostStep, brokenDuty, hb, registerDuty, registerAt, registerWidth, hostAct, registerWrite]

theorem issue_instr {w : Word} {i : Instr} (h : decode w = .instr i) (s : State) : issue w s = exec i s := by
  rw [issue, h]

/-- A word that is no command: ignored in ERROR, ILLEGAL_COMMAND elsewhere (30_encoding.md R71). -/
theorem issue_illegal {w : Word} {r : IllegalWord} (h : decode w = .illegal r) (s : State) :
    (s.phase = .error → issue w s = .next s) ∧
      (s.phase ≠ .error → issue w s = .next (errorEntry .illegalCommand s)) := by
  rw [issue, h]
  exact ⟨fun hp => dispatch_error hp, fun hp => dispatch_legal hp rfl⟩

/-- What a step that answers a next state did: nothing, a command word, the reset, or an action that reaches only the
host's own registers and buffer (70_reset_and_hazards.md R126). -/
theorem step_cases {s t : State} (h : step s = .next t) :
    (s.host = [] ∧ t = s) ∨ ∃ op rest, s.host = op :: rest ∧
      (brokenDuty op { s with host := rest } = none) ∧
      ((op = .reset ∧ t = hostReset { s with host := rest }) ∨
       (∃ v : Reg, op = .regWrite 0x00 .w32 v ∧ issue (v.setWidth 32) { s with host := rest } = .next t) ∨
       (op ≠ .reset ∧ (∀ v, op ≠ .regWrite 0x00 .w32 v) ∧
        (t = { s with host := rest, arg := t.arg, inLen := t.inLen, hostData := t.hostData } ∨
         ∃ i b, op = .inWrite i b ∧ i < s.inCap.toNat ∧
           t = { s with host := rest, inMem := memWrite s.inMem i b }))) := by
  rw [step] at h
  split at h
  · next hh => cases h; exact .inl ⟨hh, rfl⟩
  next op rest hh =>
  refine .inr ⟨op, rest, hh, ?_⟩
  rw [hostStep] at h
  split at h
  · cases h
  next hd =>
  refine ⟨hd, ?_⟩
  cases op with
  | reset => cases h; exact .inl ⟨rfl, rfl⟩
  | inRead i => cases h; exact .inr (.inr ⟨by simp, by simp, .inl rfl⟩)
  | outRead i => cases h; exact .inr (.inr ⟨by simp, by simp, .inl rfl⟩)
  | outWrite i b => cases h; exact .inr (.inr ⟨by simp, by simp, .inl rfl⟩)
  | inWrite i b =>
    cases h
    refine .inr (.inr ⟨by simp, by simp, .inr ⟨i, b, rfl, ?_, rfl⟩⟩)
    rw [brokenDuty] at hd
    split at hd
    · cases hd
    · simpa using hd
  | regRead off width =>
    rw [hostAct] at h
    split at h <;> cases h <;> exact .inr (.inr ⟨by simp, by simp, .inl rfl⟩)
  | regWrite off width v =>
    rw [hostAct] at h
    have hne : ∀ r, registerAt off = some r → r ≠ .cmd → off ≠ 0 := by
      rintro r hr hc rfl
      rw [show registerAt 0 = some .cmd from rfl] at hr
      cases hr; exact hc rfl
    have ho : ∀ r, registerAt off = some r → r ≠ .cmd → ∀ u, HostOp.regWrite off width v ≠ .regWrite 0x00 .w32 u := by
      intro r hr hc u hu; cases hu; exact hne r hr hc rfl
    split at h
    · next r hr =>
      cases r with
      | cmd =>
        have h0 : off = 0 := by
          rw [registerAt] at hr
          split at hr <;> simp_all
          next h => exact BitVec.eq_of_toNat_eq h
        subst h0
        have hw : width = .w32 := by
          rw [brokenDuty] at hd
          split at hd
          · cases hd
          · by_contra hw
            simp [registerDuty, registerAt, registerWidth, hw] at hd
        subst hw
        exact .inr (.inl ⟨v, rfl, h⟩)
      | arg => cases h; exact .inr (.inr ⟨by simp, ho _ hr (by simp), .inl rfl⟩)
      | inLen => cases h; exact .inr (.inr ⟨by simp, ho _ hr (by simp), .inl rfl⟩)
      | _ => cases h; exact .inr (.inr ⟨by simp, ho _ hr (by simp), .inl rfl⟩)
    · next hr =>
      cases h
      refine .inr (.inr ⟨by simp, ?_, .inl rfl⟩)
      rintro u hu; cases hu
      rw [show registerAt 0 = some .cmd from rfl] at hr; cases hr

/-- Which host duties an action breaks depends on BUSY and the capacities alone (70_reset_and_hazards.md R125). -/
theorem brokenDuty_congr {op : HostOp} {s t : State} (h1 : t.busy = s.busy) (h2 : t.inCap = s.inCap)
    (h3 : t.outCap = s.outCap) : brokenDuty op t = brokenDuty op s := by
  cases op <;> simp [brokenDuty, h1, h2, h3]

/-! ## The fields of STATUS -/

/-- STATUS bits 10:8 are PHASE (10_state.md R26). -/
theorem statusWord_phase (s : State) : (statusWord s).extractLsb' 8 3 = phaseBits s.phase := by
  simp only [statusWord, errFlag]
  cases s.busy <;> cases s.ecode <;> cases s.phase <;> cases s.dir <;> rfl

/-- STATUS bits 7:4 are ECODE (10_state.md R26). -/
theorem statusWord_ecode (s : State) : (statusWord s).extractLsb' 4 4 = ecodeBits s.ecode := by
  simp only [statusWord, errFlag]
  cases s.busy <;> cases s.ecode <;> cases s.phase <;> cases s.dir <;> rfl

/-- STATUS bit 12 is DIR (10_state.md R26). -/
theorem statusWord_dir (s : State) : (statusWord s).extractLsb' 12 1 = dirBit s.dir := by
  simp only [statusWord, errFlag]
  cases s.busy <;> cases s.ecode <;> cases s.phase <;> cases s.dir <;> rfl

end Sys2Proof.Machine
end

