-- ==== Sys2Proof/Laws/Sessions.lean ====
section
/-! SUPPORT. What a session's commands do in a state of the invariant: what each PHASE gives (10_state.md R19), and the whole
of DSR, ENC and DEC (43_tree_serializer.md R94; 44_encoder.md R98; 45_decoder.md R101). -/

namespace Sys2Proof.Machine

/-! ## What each PHASE gives -/

section Phases
variable {s : State}

theorem Inv.idle (h : Inv s) (hp : s.phase = .idle) :
    s.dir = .compress ∧ s.tree = none ∧ NoCodes s ∧ WriterEmpty s ∧ s.rpos = 0 ∧ s.nBits = 0 := by
  have := h.session
  cases hd : s.dir <;> simp only [SessionInv, hp, hd] at this
  exact ⟨rfl, this⟩

theorem Inv.treeReady (h : Inv s) (hp : s.phase = .treeReady) :
    (∃ t, s.tree = some t ∧ internalCount t ≤ 255 ∧ (s.dir = .compress → BuiltTree t s ∧ s.rpos = 0) ∧
      (s.dir = .decompress → ReadTree t 0 s)) ∧ NoCodes s ∧ WriterEmpty s ∧ s.nBits = 0 := by
  have := h.session
  cases hd : s.dir <;> simp only [SessionInv, hp, hd] at this
  · obtain ⟨⟨t, ht⟩, h1, h2, h3, h4⟩ := this
    exact ⟨⟨t, ht.1, internalCount_le_of_nodup ht.2.1, fun _ => ⟨ht, h3⟩, by simp⟩, h1, h2, h4⟩
  · obtain ⟨⟨t, ht⟩, h1, h2, h3⟩ := this
    exact ⟨⟨t, ht.1, ht.2.1, by simp, fun _ => ht⟩, h1, h2, h3⟩

theorem Inv.mapReady (h : Inv s) (hp : s.phase = .mapReady) :
    (∃ t, s.tree = some t ∧ internalCount t ≤ 255 ∧ CodesOf t s ∧ (s.dir = .compress → BuiltTree t s ∧ s.rpos = 0) ∧
      (s.dir = .decompress → ReadTree t 0 s)) ∧ WriterEmpty s ∧ s.nBits = 0 := by
  have := h.session
  cases hd : s.dir <;> simp only [SessionInv, hp, hd] at this
  · obtain ⟨⟨t, ht, hc⟩, h2, h3, h4⟩ := this
    exact ⟨⟨t, ht.1, internalCount_le_of_nodup ht.2.1, hc, fun _ => ⟨ht, h3⟩, by simp⟩, h2, h4⟩
  · obtain ⟨⟨t, ht, hc⟩, h2, h3⟩ := this
    exact ⟨⟨t, ht.1, ht.2.1, hc, by simp, fun _ => ht⟩, h2, h3⟩

theorem Inv.treeWritten (h : Inv s) (hp : s.phase = .treeWritten) :
    s.dir = .compress ∧ (∃ t, BuiltTree t s ∧ CodesOf t s ∧ outStream s = serBits t) ∧ s.rpos = 0 ∧ s.nBits = 0 := by
  have := h.session
  cases hd : s.dir <;> simp only [SessionInv, hp, hd] at this
  exact ⟨rfl, this⟩

theorem Inv.done_compress (h : Inv s) (hp : s.phase = .done) (hd : s.dir = .compress) :
    (∃ t, BuiltTree t s ∧ CodesOf t s ∧ WholeStream t s) ∧ s.rpos = 0 := by
  have := h.session
  simp only [SessionInv, hp, hd] at this
  exact this

theorem Inv.done_decompress (h : Inv s) (hp : s.phase = .done) (hd : s.dir = .decompress) :
    (∃ t, ReadTree t (64 + s.nBits.toNat) s ∧ CodesOf t s) ∧ s.wbuf = 0 ∧ s.wcnt = 0 := by
  have := h.session
  simp only [SessionInv, hp, hd] at this
  exact this

/-- Every bit position of the input fits in 64 bits (00_scope.md R8). -/
theorem Inv.inLen_lt (h : Inv s) (hl : s.inLen ≤ s.inCap) : 8 * s.inLen.toNat < 2 ^ 64 := by
  have := h.inCap.2
  rw [BitVec.le_def] at hl
  omega

theorem streamLen_empty (h : WriterEmpty s) : streamLen s = 0 ∧ outStream s = [] := by
  have : streamLen s = 0 := by simp [streamLen, h.1, h.2.2]
  exact ⟨this, by simp [outStream, this]⟩

/-- OUT_LEN and WCNT count the stream (20_memory.md R51). -/
theorem stream_div {n : Nat} (h : streamLen s = n) : s.outLen.toNat = n / 8 ∧ s.wcnt.toNat = n % 8 := by
  have := s.wcnt.isLt
  simp only [streamLen] at h
  omega

theorem codeLenOf_eq_zero {t : HuffTree} (hc : CodesOf t s) (sym : Symbol) :
    codeLenOf s sym = 0 ↔ codeOf s sym = [] := by
  have := hc.2 sym
  rw [this.1, ← List.length_eq_zero_iff, ← this.2]
  constructor
  · intro h; simp [h]
  · intro h; exact BitVec.eq_of_toNat_eq (by simpa using h)

end Phases

/-! ## DSR -/

theorem dsr_range {s : State} (h : s.inCap < s.inLen) : dsr s = .error .lengthRange s := by rw [dsr, if_pos h]

theorem dsr_body {s : State} (hc : s.inLen ≤ s.inCap) : dsr s = dsrTree s := by
  rw [dsr, if_neg (by rw [BitVec.not_lt]; exact hc)]

/-- DSR's body, when the input begins with a serialized tree within the limit (43_tree_serializer.md R94, R97). -/
theorem dsr_ok {t : HuffTree} {s : State} (hc : s.inLen ≤ s.inCap) (hl : 8 * s.inLen.toNat < 2 ^ 64) (hr : s.rpos = 0)
    (hi : internalCount t ≤ 255) (hn : treeBits t ≤ 8 * s.inLen.toNat) (hin : inStream s 0 (treeBits t) = serBits t) :
    dsr s = .ok () ((s.readTo (treeBits t)).treeRead t) := by
  have h0 : s.rpos.toNat = 0 := by simp [hr]
  have := dsrNode_complete (t := t) (d := 256) (i := 0) (s := s) (by omega) (by simp [maxInternal]; omega) hl (by omega)
    (by rw [h0]; exact hin)
  rw [dsr_body hc, dsrTree, cmd_bind_ok this, h0, Nat.zero_add, Nat.zero_add]
  rfl

/-- The ways DSR's body ends once its length check has passed (43_tree_serializer.md R94, R95). -/
theorem dsr_cases {s : State} (hc : s.inLen ≤ s.inCap) (hl : 8 * s.inLen.toNat < 2 ^ 64) (hr : s.rpos = 0) :
    (∃ t, dsr s = .ok () ((s.readTo (treeBits t)).treeRead t) ∧ internalCount t ≤ 255 ∧ treeBits t ≤ 8 * s.inLen.toNat ∧
      inStream s 0 (treeBits t) = serBits t) ∨
    (∃ p, dsr s = .error .malformedStream (s.readTo p) ∧ p ≤ 8 * s.inLen.toNat) := by
  have h0 : s.rpos.toNat = 0 := by simp [hr]
  rcases dsrNode_cases 256 0 s (by simp [maxInternal]) hl (by omega) with ⟨t, h1, h2, h3, h4⟩ | ⟨p, h1, -, h3⟩
  · refine .inl ⟨t, ?_, by simpa [maxInternal] using h2, by omega, by rw [h0] at h4; exact h4⟩
    rw [dsr_body hc, dsrTree, cmd_bind_ok h1, h0, Nat.zero_add, Nat.zero_add]
    rfl
  · exact .inr ⟨p, by rw [dsr_body hc, dsrTree, cmd_bind_error h1], h3⟩

/-- Where DSR refuses an input (43_tree_serializer.md R94, R95): at its end, or at the first bit that no tree explains. -/
theorem dsr_error {s : State} {p : Nat} (hc : s.inLen ≤ s.inCap) (hl : 8 * s.inLen.toNat < 2 ^ 64) (hr : s.rpos = 0)
    (h : dsr s = .error .malformedStream (s.readTo p)) (hp : p ≤ 8 * s.inLen.toNat) :
    (∀ q, q < p → BeginsTree 0 (inStream s 0 q)) ∧ (p = 8 * s.inLen.toNat ∨ ¬ BeginsTree 0 (inStream s 0 p)) := by
  have h0 : s.rpos.toNat = 0 := by simp [hr]
  rcases dsrNode_cases 256 0 s (by simp [maxInternal]) hl (by omega) with ⟨t, h1, -⟩ | ⟨p', h1, -, h3⟩
  · rw [dsr_body hc, dsrTree, cmd_bind_ok h1] at h; cases h
  · have h2 := h1
    rw [dsr_body hc, dsrTree, cmd_bind_error h1] at h
    have hpp : p' = p := by
      have := congrArg (fun r => match r with | .error _ (u : State) => u.rpos.toNat | .ok _ u => u.rpos.toNat) h
      simpa [readTo_rpos s (by omega : p' < 2 ^ 64), readTo_rpos s (by omega : p < 2 ^ 64)] using this
    subst hpp
    obtain ⟨n, hn, h4, h5⟩ := dsrNode_error (by simp [maxInternal]) (by simp [maxInternal]) hl (by omega) h2 (by omega)
    rw [h0] at hn h4 h5
    rw [Nat.zero_add] at hn
    subst hn
    exact ⟨h4, h5⟩

/-- A run of zero bits is nested internal nodes, up to the limit (43_tree_serializer.md R95). -/
theorem dsrNode_zeros (d i : Nat) (s : State) (hi : i ≤ maxInternal) (hd : maxInternal < d + i)
    (hl : 8 * s.inLen.toNat < 2 ^ 64) (hp : s.rpos.toNat ≤ 8 * s.inLen.toNat)
    (hz : ∀ p, s.rpos.toNat ≤ p → p < s.rpos.toNat + (maxInternal + 1 - i) → p < 8 * s.inLen.toNat → inBit s p = false) :
    dsrNode d i s = .error .malformedStream
      (s.readTo (min (s.rpos.toNat + (maxInternal + 1 - i)) (8 * s.inLen.toNat))) := by
  induction d generalizing i s with
  | zero => omega
  | succ d ih =>
    by_cases hend : 8 * s.inLen.toNat ≤ s.rpos.toNat
    · rw [dsrNode_end hend,
        show min (s.rpos.toNat + (maxInternal + 1 - i)) (8 * s.inLen.toNat) = s.rpos.toNat by omega, readTo_self]
    have hb := hz s.rpos.toNat (le_refl _) (by omega) (by omega)
    have hp1 := rpos_lt_of_le (p := s.rpos.toNat + 1) hl (by omega)
    by_cases hmax : i = maxInternal
    · subst hmax
      rw [dsrNode_limit (by omega) hb]
      congr 2; omega
    · have := ih (i + 1) (s.readTo (s.rpos.toNat + 1)) (by omega) (by omega) (by rwa [readTo_inLen])
        (by rw [hp1, readTo_inLen]; omega)
        (by rw [hp1, readTo_inLen]; intro p h1 h2 h3; exact hz p (by omega) (by omega) h3)
      rw [dsrNode_node (by omega) hb hmax, cmd_bind_error this, readTo_readTo, hp1, readTo_inLen]
      congr 2; omega

/-! ## ENC -/

theorem enc_range {s : State} (h : s.inCap < s.inLen) : enc s = .error .lengthRange s := by rw [enc, if_pos h]

theorem enc_empty {s : State} (h : s.inLen ≤ s.inCap) (h0 : s.inLen = 0) : enc s = .error .emptyInput s := by
  rw [enc, if_neg (by rw [BitVec.not_lt]; exact h), if_pos h0]

theorem hasUnmapped_iff (s : State) :
    hasUnmapped s = true ↔ ∃ i, i < s.inLen.toNat ∧ codeLenOf s (inByte s i) = 0 := by
  simp only [hasUnmapped, inputBytes, List.any_map, List.any_eq_true, List.mem_range, Function.comp, decide_eq_true_eq]

theorem enc_unmapped {s : State} (h : s.inLen ≤ s.inCap) (h0 : s.inLen ≠ 0)
    (hu : ∃ i, i < s.inLen.toNat ∧ codeLenOf s (inByte s i) = 0) : enc s = .error .unmappedSymbol s := by
  rw [enc, if_neg (by rw [BitVec.not_lt]; exact h), if_neg h0, if_pos ((hasUnmapped_iff s).2 hu)]

theorem enc_body {s : State} (h : s.inLen ≤ s.inCap) (h0 : s.inLen ≠ 0)
    (hm : ∀ i, i < s.inLen.toNat → codeLenOf s (inByte s i) ≠ 0) :
    enc s = encWrite (BitVec.ofNat 64 (payloadCount s)) (payloadBits s)
      (s.setNBits (BitVec.ofNat 64 (payloadCount s))) := by
  have : hasUnmapped s ≠ true := by
    rw [Ne, hasUnmapped_iff]
    rintro ⟨i, hi, hz⟩
    exact hm i hi hz
  rw [enc, if_neg (by rw [BitVec.not_lt]; exact h), if_neg h0, if_neg this]

theorem payloadBits_eq (s : State) :
    payloadBits s = (List.range s.inLen.toNat).flatMap fun i => codeOf s (inByte s i) := by
  simp [payloadBits, inputBytes, List.flatMap_map]

/-- The count is the payload's length (44_encoder.md R99). -/
theorem payloadCount_eq {t : HuffTree} {s : State} (hc : CodesOf t s) : payloadCount s = (payloadBits s).length := by
  rw [payloadCount, payloadBits, List.length_flatMap]
  congr 1
  apply List.map_congr_left
  intro b _
  rw [(hc.2 b).2, (hc.2 b).1]

theorem payloadCount_le (s : State) : payloadCount s ≤ 255 * s.inLen.toNat := by
  have hb : ∀ x ∈ (inputBytes s).map fun b => (codeLenOf s b).toNat, x ≤ 255 := by
    intro x hx
    obtain ⟨b, -, rfl⟩ := List.mem_map.1 hx
    have := (codeLenOf s b).isLt
    omega
  have := List.sum_le_card_nsmul _ _ hb
  simp only [List.length_map, smul_eq_mul, inputBytes, List.length_range] at this
  rw [payloadCount, Nat.mul_comm]
  exact this

theorem pad_div (n : Nat) : (n + (padBits n).length) / 8 = (n + 7) / 8 := by rw [padBits_length]; omega

/-- The writes of ENC, when the whole stream fits (44_encoder.md R98). -/
theorem encWrite_ok {n : Reg} {payload : BitString} {s : State} (hs : s.outLen.toNat ≤ s.outCap.toNat)
    (h : (streamLen s + 64 + payload.length + 7) / 8 ≤ s.outCap.toNat) :
    ∃ u, encWrite n payload s = .ok () u.finished ∧ u.wcnt = 0 ∧
      Wrote s u (msbFirst n ++ payload ++ padBits (streamLen s + 64 + payload.length)) := by
  obtain ⟨a, ha, hwa⟩ := writeString_ok (bs := msbFirst n) hs (by rw [msbFirst_length]; omega)
  have hla := hwa.streamLen
  rw [msbFirst_length] at hla
  have hca := hwa.outCap
  obtain ⟨b, hb, hwb⟩ := writeString_ok (bs := payload) (s := a) (by rw [hca]; exact hwa.fits hs) (by rw [hca]; omega)
  have hlb := hwb.streamLen
  have hcb := hwb.outCap
  have hlb' : streamLen b = streamLen s + 64 + payload.length := by omega
  obtain ⟨c, hc, hwc, h0⟩ := flush_ok (s := b) (by rw [hcb]; exact hwb.fits (by rw [hca]; exact hwa.fits hs))
    (by rw [pad_div, hlb', hcb, hca]; exact h)
  rw [hlb'] at hwc
  refine ⟨c, ?_, h0, ?_⟩
  · rw [encWrite, writeBits, cmd_bind_ok ha, cmd_bind_ok hb, cmd_bind_ok hc, cmd_modify]
  · exact (hwa.trans hwb).trans hwc

/-- The writes of ENC, when the stream does not fit (44_encoder.md R98). -/
theorem encWrite_full {n : Reg} {payload : BitString} {s : State} (hs : s.outLen.toNat ≤ s.outCap.toNat)
    (h : s.outCap.toNat < (streamLen s + 64 + payload.length + 7) / 8) :
    ∃ u, encWrite n payload s = .error .outputOverflow u ∧ WriteFrame s u := by
  by_cases h1 : s.outCap.toNat < (streamLen s + (msbFirst n).length) / 8
  · obtain ⟨a, ha, hwa⟩ := writeString_full hs h1
    exact ⟨a, by rw [encWrite, writeBits, cmd_bind_error ha], hwa⟩
  obtain ⟨a, ha, hwa⟩ := writeString_ok hs (Nat.le_of_not_lt h1)
  have hla := hwa.streamLen
  have hca := hwa.outCap
  have hsa : a.outLen.toNat ≤ a.outCap.toNat := by rw [hca]; exact hwa.fits hs
  by_cases h2 : a.outCap.toNat < (streamLen a + payload.length) / 8
  · obtain ⟨b, hb, hwb⟩ := writeString_full hsa h2
    exact ⟨b, by rw [encWrite, writeBits, cmd_bind_ok ha, cmd_bind_error hb], hwa.toWriteFrame.trans hwb⟩
  obtain ⟨b, hb, hwb⟩ := writeString_ok hsa (Nat.le_of_not_lt h2)
  have hlb := hwb.streamLen
  have hcb := hwb.outCap
  rw [msbFirst_length] at hla
  have hlb' : streamLen b = streamLen s + 64 + payload.length := by omega
  obtain ⟨c, hc, hwc⟩ := flush_full (s := b) (by rw [hcb]; exact hwb.fits hsa)
    (by rw [pad_div, hlb', hcb, hca]; exact h)
  exact ⟨c, by rw [encWrite, writeBits, cmd_bind_ok ha, cmd_bind_ok hb, cmd_bind_error hc],
    (hwa.toWriteFrame.trans hwb.toWriteFrame).trans hwc⟩

/-! ## DEC -/

theorem dec_range {s : State} (h : s.inCap < s.inLen) : dec s = .error .lengthRange s := by rw [dec, if_pos h]

theorem dec_body {s : State} (hc : s.inLen ≤ s.inCap) : dec s = decStream s := by
  rw [dec, if_neg (by rw [BitVec.not_lt]; exact hc)]

/-- DEC, when the input ends inside the count (45_decoder.md R101). -/
theorem dec_short {s : State} (hc : s.inLen ≤ s.inCap) (hl : 8 * s.inLen.toNat < 2 ^ 64)
    (h : 8 * s.inLen.toNat < s.rpos.toNat + 64) :
    dec s = .error .malformedStream (s.readTo (max s.rpos.toNat (8 * s.inLen.toNat))) := by
  rw [dec_body hc, decStream]
  by_cases hp : s.rpos.toNat ≤ 8 * s.inLen.toNat
  · rw [cmd_bind_error (readBits_end hl hp h)]
    congr 2; omega
  · have : readBits 64 .malformedStream s = .error .malformedStream s := by
      rw [readBits, readBitsInto, cmd_bind_error (cmd_bind_error (readBit_end (by omega)))]
    rw [cmd_bind_error this, show max s.rpos.toNat (8 * s.inLen.toNat) = s.rpos.toNat by omega, readTo_self]

/-- DEC once the count `n` has been read (45_decoder.md R101). -/
theorem dec_count {s : State} {n : Reg} (hc : s.inLen ≤ s.inCap) (hl : 8 * s.inLen.toNat < 2 ^ 64)
    (h : s.rpos.toNat + 64 ≤ 8 * s.inLen.toNat) (hn : inStream s s.rpos.toNat 64 = msbFirst n) :
    dec s = (decLoop n.toNat [] >>= fun _ => modify State.finished) ((s.readTo (s.rpos.toNat + 64)).setNBits n) := by
  rw [dec_body hc, decStream, cmd_bind_ok (readBits_ok hl h), ofNat_bitsInto_inStream hn, cmd_bind_ok (cmd_modify _ _)]

/-- Some count stands there, whatever the bits are. -/
theorem exists_count (s : State) (p : Nat) : ∃ n : Reg, inStream s p 64 = msbFirst n :=
  ⟨BitVec.ofNat 64 (bitsInto 0 (inStream s p 64)), by
    have := msbFirst_ofNat_bitsInto (inStream s p 64)
    rw [inStream_length] at this
    exact this.symm⟩

/-- DEC's loop reads the rest of a code bit by bit and stores its symbol (45_decoder.md R101). -/
theorem decLoop_code {t : HuffTree} {v : Symbol} {rest : BitString} {n : Nat} {cand : BitString} {s : State}
    (hm : s.dmap = leafCodes t) (hc : (cand ++ rest, v) ∈ leafCodes t) (hr : rest ≠ [])
    (hl : 8 * s.inLen.toNat < 2 ^ 64) (hp : s.rpos.toNat + rest.length ≤ 8 * s.inLen.toNat)
    (hin : inStream s s.rpos.toNat rest.length = rest) :
    decLoop (rest.length + n) cand s =
      (storeByte v >>= fun _ => decLoop n []) (s.readTo (s.rpos.toNat + rest.length)) := by
  induction rest generalizing cand s with
  | nil => exact absurd rfl hr
  | cons b rest ih =>
    simp only [List.length_cons] at hp hin ⊢
    rw [inStream_succ] at hin
    obtain ⟨hb, hin⟩ := List.cons.inj hin
    have hp1 := rpos_lt_of_le (p := s.rpos.toNat + 1) hl (by omega)
    rw [(by omega : rest.length + 1 + n = (rest.length + n) + 1)]
    cases rest with
    | nil =>
      have hf : dmapFind s.dmap (cand ++ [inBit s s.rpos.toNat]) = some v := by
        rw [hm, hb, dmapFind_eq_some (leafCodes_nodup t)]; exact hc
      rw [decLoop_some (by omega) hf]
      simp
    | cons b' rest =>
      have hf : dmapFind s.dmap (cand ++ [inBit s s.rpos.toNat]) = none := by
        rw [hm, hb, dmapFind_eq_none]
        intro hk
        obtain ⟨⟨k, w⟩, hk, rfl⟩ := List.mem_map.1 hk
        have := leafCodes_prefixFree hk hc ⟨b' :: rest, by simp⟩
        simp at this
      rw [decLoop_none (by omega) hf]
      have := ih (cand := cand ++ [inBit s s.rpos.toNat]) (s := s.readTo (s.rpos.toNat + 1)) hm
        (by rw [hb]; simpa using hc) (by simp) hl (by rw [hp1, readTo_inLen]; omega) (by rw [hp1]; exact hin)
      rw [this, hp1, readTo_readTo, Nat.add_assoc _ 1, Nat.add_comm 1]

/-- DEC's loop decodes a sequence of codes that fits, one symbol after another (45_decoder.md R101). -/
theorem decLoop_codes {t : HuffTree} {codes : List (BitString × Symbol)} {n : Nat} {s : State} (hm : s.dmap = leafCodes t)
    (hc : ∀ c ∈ codes, c ∈ leafCodes t) (hl : 8 * s.inLen.toNat < 2 ^ 64)
    (hp : s.rpos.toNat + (codes.flatMap Prod.fst).length ≤ 8 * s.inLen.toNat)
    (hin : inStream s s.rpos.toNat (codes.flatMap Prod.fst).length = codes.flatMap Prod.fst)
    (ho : s.outLen.toNat + codes.length ≤ s.outCap.toNat) :
    ∃ u, decLoop ((codes.flatMap Prod.fst).length + n) [] s = decLoop n [] u ∧ Stored s u (codes.map Prod.snd) ∧
      u.rpos.toNat = s.rpos.toNat + (codes.flatMap Prod.fst).length := by
  induction codes generalizing s with
  | nil => exact ⟨s, by simp, Stored.refl s, by simp⟩
  | cons c codes ih =>
    simp only [List.flatMap_cons, List.length_append, List.length_cons] at hp hin ho ⊢
    have hcm : ([] ++ c.1, c.2) ∈ leafCodes t := hc c (by simp)
    rw [inStream_add] at hin
    obtain ⟨h1, h2⟩ := List.append_inj hin (by rw [inStream_length])
    have hp1 := rpos_lt_of_le (p := s.rpos.toNat + c.1.length) hl (by omega)
    have hcode := decLoop_code (n := (codes.flatMap Prod.fst).length + n) hm hcm (leafCodes_ne_nil hcm) hl (by omega) h1
    obtain ⟨hst, hS⟩ := storeByte_stored c.2 (s := s.readTo (s.rpos.toNat + c.1.length)) (by
      change s.outLen.toNat < s.outCap.toNat; omega)
    have hS0 := ((Stored.refl s).readTo (s.rpos.toNat + c.1.length)).trans hS
    have hp2 : ((s.readTo (s.rpos.toNat + c.1.length)).putOut c.2).rpos.toNat = s.rpos.toNat + c.1.length := hp1
    have hlen := hS0.outLen
    obtain ⟨u, hu, hSu, hru⟩ := ih (s := (s.readTo (s.rpos.toNat + c.1.length)).putOut c.2) hm
      (fun d hd => hc d (by simp [hd])) hl (by rw [hp2]; change _ ≤ 8 * s.inLen.toNat; omega)
      (by rw [hp2]; exact h2) (by rw [hlen]; change _ ≤ s.outCap.toNat; simp; omega)
    refine ⟨u, ?_, hS0.trans hSu, by rw [hru, hp2]; omega⟩
    rw [Nat.add_assoc, hcode, cmd_bind_ok hst, hu]

/-- Bits that no code begins leave the loop with a longer candidate (45_decoder.md R101, R103). -/
theorem decLoop_rest {m : List (BitString × Symbol)} {rest : BitString} {n : Nat} {cand : BitString} {s : State}
    (hm : s.dmap = m) (hc : ∀ k, k ≠ [] → k <+: rest → dmapFind m (cand ++ k) = none) (hl : 8 * s.inLen.toNat < 2 ^ 64)
    (hp : s.rpos.toNat + rest.length ≤ 8 * s.inLen.toNat) (hin : inStream s s.rpos.toNat rest.length = rest) :
    decLoop (rest.length + n) cand s = decLoop n (cand ++ rest) (s.readTo (s.rpos.toNat + rest.length)) := by
  induction rest generalizing cand s with
  | nil => simp [readTo_self]
  | cons b rest ih =>
    simp only [List.length_cons] at hp hin ⊢
    rw [inStream_succ] at hin
    obtain ⟨hb, hin⟩ := List.cons.inj hin
    have hp1 := rpos_lt_of_le (p := s.rpos.toNat + 1) hl (by omega)
    rw [(by omega : rest.length + 1 + n = (rest.length + n) + 1)]
    have hf : dmapFind s.dmap (cand ++ [inBit s s.rpos.toNat]) = none := by
      rw [hm, hb]; exact hc [b] (by simp) ⟨rest, by simp⟩
    rw [decLoop_none (by omega) hf]
    have := ih (cand := cand ++ [inBit s s.rpos.toNat]) (s := s.readTo (s.rpos.toNat + 1)) hm
      (by
        intro k hk hpre
        rw [hb, List.append_assoc]
        exact hc ([b] ++ k) (by simp) (by simpa using hpre)) hl (by rw [hp1, readTo_inLen]; omega)
      (by rw [hp1]; exact hin)
    rw [this, hp1, readTo_readTo, hb, List.append_assoc, Nat.add_assoc _ 1, Nat.add_comm 1]
    rfl

end Sys2Proof.Machine
end

