-- ==== Sys2Proof/Laws/Invariant.lean ====
section
/-! SUPPORT. The operations that keep the invariant of a session (10_state.md R19, R20, R22, R30). -/

namespace Sys2Proof.Machine

/-- The invariant does not look at ARG, RESULT, IN_LEN, IN_MEM inside its capacity, nor at the host. -/
theorem Inv.outside {s : State} (h : Inv s) (arg result inLen : Reg) (inMem : Memory) (inDraw : Nat) (host : List HostOp)
    (hostData : Option Reg) (hm : Memory.wf inMem ∧ ∀ c ∈ inMem, c.1 < s.inCap.toNat) :
    Inv { s with
      arg := arg, result := result, inLen := inLen, inMem := inMem, inDraw := inDraw, host := host,
      hostData := hostData } where
  busy := h.busy
  inCap := h.inCap
  outCap := h.outCap
  inMem := hm
  outMem := h.outMem
  outLen := h.outLen
  ecode := h.ecode
  session := h.session

/-- The error entry keeps it (60_exceptions.md R110). -/
theorem Inv.errorEntry {s : State} (h : Inv s) {e : ErrorCode} (he : e ≠ .none) : Inv (errorEntry e s) where
  busy := h.busy
  inCap := h.inCap
  outCap := h.outCap
  inMem := h.inMem
  outMem := ⟨List.Pairwise.nil, by simp [Machine.errorEntry]⟩
  outLen := by simp [Machine.errorEntry]
  ecode := by simpa [Machine.errorEntry] using he
  session := by simp [SessionInv, Machine.errorEntry]

/-- An error entry hides all the writing and reading before it. -/
theorem Inv.enters {s u : State} (h : Inv s) {e : ErrorCode} (he : e ≠ .none) (hb : u.busy = s.busy)
    (hic : u.inCap = s.inCap) (hoc : u.outCap = s.outCap) (him : u.inMem = s.inMem) : Inv (Machine.errorEntry e u) where
  busy := hb.trans h.busy
  inCap := by rw [show (Machine.errorEntry e u).inCap = s.inCap from hic]; exact h.inCap
  outCap := by rw [show (Machine.errorEntry e u).outCap = s.outCap from hoc]; exact h.outCap
  inMem := by
    rw [show (Machine.errorEntry e u).inMem = s.inMem from him, show (Machine.errorEntry e u).inCap = s.inCap from hic]
    exact h.inMem
  outMem := ⟨List.Pairwise.nil, by simp [Machine.errorEntry]⟩
  outLen := by simp [Machine.errorEntry]
  ecode := by simpa [Machine.errorEntry] using he
  session := by simp [SessionInv, Machine.errorEntry]

theorem noCodes_clear (s : State) : NoCodes (clearSession s) :=
  ⟨rfl, fun sym => by simp [codeOf, codeLenOf, clearSession]⟩

/-- CLR keeps it (40_control.md R76). -/
theorem Inv.clear {s : State} (h : Inv s) : Inv (clearSession s) where
  busy := h.busy
  inCap := h.inCap
  outCap := h.outCap
  inMem := h.inMem
  outMem := h.outMem
  outLen := by simp [clearSession]
  ecode := by simp [clearSession]
  session := ⟨rfl, noCodes_clear s, ⟨rfl, rfl, rfl⟩, rfl, rfl⟩

/-- The reset input keeps it (70_reset_and_hazards.md R122). -/
theorem Inv.reset {s : State} (h : Inv s) : Inv (hostReset s) where
  busy := rfl
  inCap := h.inCap
  outCap := h.outCap
  inMem := ⟨List.Pairwise.nil, by simp [hostReset, State.reset]⟩
  outMem := ⟨List.Pairwise.nil, by simp [hostReset, State.reset]⟩
  outLen := by simp [hostReset, State.reset]
  ecode := by simp [hostReset, State.reset]
  session := ⟨rfl, ⟨rfl, fun sym => by simp [codeOf, codeLenOf, hostReset, State.reset]⟩, ⟨rfl, rfl, rfl⟩, rfl, rfl⟩

/-- A byte written to IN keeps it (20_memory.md R44). -/
theorem Inv.inWrite {s : State} (h : Inv s) {i : Nat} (b : Byte) (hi : i < s.inCap.toNat) :
    Memory.wf (memWrite s.inMem i b) ∧ ∀ c ∈ memWrite s.inMem i b, c.1 < s.inCap.toNat :=
  ⟨memWrite_wf h.inMem.1 i b, memWrite_range h.inMem.2 hi⟩

/-- LDF in IDLE keeps it (40_control.md R77). -/
theorem Inv.setFreq {s : State} (h : Inv s) (hp : s.phase = .idle) (sym : Symbol) (v : Reg) : Inv (s.setFreq sym v) where
  busy := h.busy
  inCap := h.inCap
  outCap := h.outCap
  inMem := h.inMem
  outMem := h.outMem
  outLen := h.outLen
  ecode := h.ecode
  session := by
    obtain ⟨hd, hs⟩ := h.idle hp
    simp only [SessionInv, State.setFreq, hp, hd]
    exact hs

/-- A state that a tree has entered, from IDLE. -/
theorem Inv.treeBuilt {s : State} (h : Inv s) (hp : s.phase = .idle) {t : HuffTree} (hn : (leafSymbols t).Nodup)
    (hm : ∀ sym, sym ∈ leafSymbols t ↔ freqOf s sym ≠ 0) : Inv (s.treeBuilt t) where
  busy := h.busy
  inCap := h.inCap
  outCap := h.outCap
  inMem := h.inMem
  outMem := h.outMem
  outLen := h.outLen
  ecode := by simpa [State.treeBuilt] using h.ecode.2 (by simp [hp])
  session := by
    obtain ⟨-, -, h1, h2, h3, h4⟩ := h.idle hp
    exact ⟨⟨t, rfl, hn, hm⟩, h1, h2, h3, h4⟩

theorem Inv.treeRead {s : State} (h : Inv s) (hp : s.phase = .idle) {t : HuffTree} (ht : internalCount t ≤ 255)
    (hb : treeBits t < 2 ^ 64) : Inv ((s.readTo (treeBits t)).treeRead t) where
  busy := h.busy
  inCap := h.inCap
  outCap := h.outCap
  inMem := h.inMem
  outMem := h.outMem
  outLen := h.outLen
  ecode := by simpa [State.treeRead, State.readTo] using h.ecode.2 (by simp [hp])
  session := by
    obtain ⟨-, -, h1, h2, h3, h4⟩ := h.idle hp
    exact ⟨⟨t, rfl, ht, readTo_rpos s hb⟩, h1, h2, h4⟩

/-- MAP keeps it (42_code_map.md R87). -/
theorem Inv.deriveMaps {s : State} (h : Inv s) (hp : s.phase = .treeReady) {t : HuffTree} (ht : s.tree = some t) :
    Inv (deriveMaps t s) := by
  obtain ⟨⟨t', ht', hi, hc, hr⟩, -, hw, hn⟩ := h.treeReady hp
  rw [ht] at ht'; cases ht'
  have hcodes := deriveMaps_codes hi s
  have hf := deriveMaps_frame t s
  generalize Machine.deriveMaps t s = u at hcodes hf
  have hph : u.phase = .mapReady := by rw [hf]
  have hdir : u.dir = s.dir := by rw [hf]
  constructor
  · rw [hf]; exact h.busy
  · rw [hf]; exact h.inCap
  · rw [hf]; exact h.outCap
  · rw [hf]; exact h.inMem
  · rw [hf]; exact h.outMem
  · rw [hf]; exact h.outLen
  · rw [hph, hf]; simpa using h.ecode.2 (by simp [hp])
  · cases hd : s.dir with
    | compress =>
      obtain ⟨hb, hr0⟩ := hc hd
      simp only [SessionInv, hph, hdir, hd]
      refine ⟨⟨t, ?_, hcodes⟩, ?_, ?_, ?_⟩
      · rw [hf]; exact hb
      · rw [hf]; exact hw
      · rw [hf]; exact hr0
      · rw [hf]; exact hn
    | decompress =>
      simp only [SessionInv, hph, hdir, hd]
      refine ⟨⟨t, ?_, hcodes⟩, ?_, ?_⟩
      · rw [hf]; exact hr hd
      · rw [hf]; exact hw
      · rw [hf]; exact hn

/-- SER keeps it (43_tree_serializer.md R92). -/
theorem Inv.treeWrites {s u : State} (h : Inv s) (hp : s.phase = .mapReady) (hd : s.dir = .compress) {t : HuffTree}
    (ht : s.tree = some t) (hW : Wrote s u (serBits t)) : Inv u.treeWritten := by
  obtain ⟨⟨t', ht', -, hcod, hc, -⟩, hw, hn⟩ := h.mapReady hp
  rw [ht] at ht'; cases ht'
  obtain ⟨hb, hr0⟩ := hc hd
  have hs : outStream u = serBits t := by rw [hW.stream, (streamLen_empty hw).2]; rfl
  have ho := hW.others
  have hfits := hW.fits h.outLen
  have hwf := hW.wf h.outMem.1
  have hrange := hW.range h.outLen h.outMem.2
  constructor
  · change u.busy = false; rw [ho]; exact h.busy
  · change 1 ≤ u.inCap.toNat ∧ u.inCap.toNat ≤ 2 ^ 56; rw [ho]; exact h.inCap
  · change 1 ≤ u.outCap.toNat ∧ u.outCap.toNat ≤ 2 ^ 56; rw [ho]; exact h.outCap
  · change Memory.wf u.inMem ∧ ∀ c ∈ u.inMem, c.1 < u.inCap.toNat; rw [ho]; exact h.inMem
  · change Memory.wf u.outMem ∧ ∀ c ∈ u.outMem, c.1 < u.outCap.toNat
    rw [hW.outCap]; exact ⟨hwf, hrange⟩
  · change u.outLen.toNat ≤ u.outCap.toNat; rw [hW.outCap]; exact hfits
  · have : u.ecode = .none := by rw [ho]; exact h.ecode.2 (by simp [hp])
    simpa [State.treeWritten] using this
  · have hdir : u.dir = .compress := by rw [ho]; exact hd
    simp only [SessionInv, State.treeWritten, hdir]
    refine ⟨⟨t, ?_, ?_, hs⟩, ?_, ?_⟩
    · rw [ho]; exact hb
    · rw [ho]; exact hcod
    · rw [ho]; exact hr0
    · rw [ho]; exact hn

/-- ENC keeps it (44_encoder.md R98). -/
theorem Inv.encWrites {s u : State} {n : Reg} {payload : BitString} (h : Inv s) (hp : s.phase = .treeWritten)
    (hn : payload.length = n.toNat) (h0 : u.wcnt = 0)
    (hW : Wrote (s.setNBits n) u (msbFirst n ++ payload ++ padBits (streamLen s + 64 + payload.length))) :
    Inv u.finished := by
  obtain ⟨hd, ⟨t, hb, hcod, hs⟩, hr0, -⟩ := h.treeWritten hp
  have hsl : streamLen s = treeBits t := by rw [← outStream_length, hs, serBits_length]
  have ho := hW.others
  have hfits := hW.fits h.outLen
  have hwf := hW.wf h.outMem.1
  have hrange := hW.range h.outLen h.outMem.2
  have hst := hW.stream
  have hcap : u.outCap = s.outCap := hW.outCap
  have hnb : u.nBits = n := by rw [ho]; rfl
  constructor
  · change u.busy = false; rw [ho]; exact h.busy
  · change 1 ≤ u.inCap.toNat ∧ u.inCap.toNat ≤ 2 ^ 56; rw [ho]; exact h.inCap
  · change 1 ≤ u.outCap.toNat ∧ u.outCap.toNat ≤ 2 ^ 56; rw [ho]; exact h.outCap
  · change Memory.wf u.inMem ∧ ∀ c ∈ u.inMem, c.1 < u.inCap.toNat; rw [ho]; exact h.inMem
  · change Memory.wf u.outMem ∧ ∀ c ∈ u.outMem, c.1 < u.outCap.toNat
    rw [hcap]; exact ⟨hwf, hrange⟩
  · change u.outLen.toNat ≤ u.outCap.toNat; rw [hcap]; exact hfits
  · have : u.ecode = .none := by rw [ho]; exact h.ecode.2 (by simp [hp])
    simpa [State.finished] using this
  · have hdir : u.dir = .compress := by rw [ho]; exact hd
    simp only [SessionInv, State.finished, hdir]
    refine ⟨⟨t, ?_, ?_, h0, payload, ?_, ?_⟩, ?_⟩
    · rw [ho]; exact hb
    · rw [ho]; exact hcod
    · change payload.length = u.nBits.toNat; rw [hnb]; exact hn
    · change outStream u = serBits t ++ msbFirst u.nBits ++ payload ++ padBits (treeBits t + 64 + u.nBits.toNat)
      rw [hst, hnb, show outStream (s.setNBits n) = serBits t from hs, hsl, hn]
      simp
    · rw [ho]; exact hr0

/-- DEC keeps it (45_decoder.md R101). -/
theorem Inv.decStores {s u : State} {n : Reg} {syms : List Symbol} (h : Inv s) (hp : s.phase = .mapReady)
    (hd : s.dir = .decompress) (hS : Stored (s.setNBits n) u syms) (hr : u.rpos.toNat = s.rpos.toNat + 64 + n.toNat)
    (hfits : u.outLen.toNat ≤ s.outCap.toNat) : Inv u.finished := by
  obtain ⟨⟨t, ht, hi, hcod, -, hrd⟩, hw, -⟩ := h.mapReady hp
  have ho := hS.others
  have hwf := hS.wf h.outMem.1
  have hrange := hS.range h.outMem.2
  have hcap : u.outCap = s.outCap := hS.outCap
  have hnb : u.nBits = n := by rw [ho]; rfl
  constructor
  · change u.busy = false; rw [ho]; exact h.busy
  · change 1 ≤ u.inCap.toNat ∧ u.inCap.toNat ≤ 2 ^ 56; rw [ho]; exact h.inCap
  · change 1 ≤ u.outCap.toNat ∧ u.outCap.toNat ≤ 2 ^ 56; rw [ho]; exact h.outCap
  · change Memory.wf u.inMem ∧ ∀ c ∈ u.inMem, c.1 < u.inCap.toNat; rw [ho]; exact h.inMem
  · change Memory.wf u.outMem ∧ ∀ c ∈ u.outMem, c.1 < u.outCap.toNat
    rw [hcap]; exact ⟨hwf, hrange⟩
  · change u.outLen.toNat ≤ u.outCap.toNat; rw [hcap]; exact hfits
  · have : u.ecode = .none := by rw [ho]; exact h.ecode.2 (by simp [hp])
    simpa [State.finished] using this
  · have hdir : u.dir = .decompress := by rw [ho]; exact hd
    have hrt := hrd hd
    simp only [SessionInv, State.finished, hdir]
    refine ⟨⟨t, ⟨?_, hi, ?_⟩, ?_⟩, ?_, ?_⟩
    · change u.tree = _; rw [ho]; exact ht
    · change u.rpos.toNat = treeBits t + (64 + u.nBits.toNat); rw [hr, hnb, hrt.2.2]; omega
    · rw [ho]; exact hcod
    · rw [ho]; exact hw.2.1
    · rw [ho]; exact hw.2.2

end Sys2Proof.Machine
end

