-- ==== Sys2Proof/Laws/Operands.lean ====
section
/-! SUPPORT. RDC's window of a code, bit by bit (40_control.md R79). -/

namespace Sys2Proof.Machine

/-- Bit k of the left-aligned code is code bit 255 - k, if it is among the first `n` (40_control.md R79). -/
theorem leftAligned_getLsbD {c : BitString} {n k : Nat} (hn : n ≤ 256) (hk : k < 256) :
    (leftAligned c n).getLsbD k = (decide (255 - k < n) && c.getD (255 - k) false) := by
  induction n with
  | zero => simp [leftAligned]
  | succ n ih =>
    rw [leftAligned, BitVec.getLsbD_or, ih (by omega)]
    by_cases he : 255 - k = n
    · subst he
      have hk' : 255 - (255 - k) = k := by omega
      cases hc : c.getD (255 - k) false
      · simp
      · simp [hk', hk]
    · have h1 : decide (255 - k < n + 1) = decide (255 - k < n) := by
        by_cases h : 255 - k < n
        · simp [h]; omega
        · simp [h]; omega
      have h2 : (if c.getD n false = true then BitVec.twoPow 256 (255 - n) else 0).getLsbD k = false := by
        split
        · rw [BitVec.getLsbD_twoPow]; simp; omega
        · simp
      rw [h2, h1]; simp

/-- Bit k of what RDC returns for word `w` is code bit 64 w + 63 - k (40_control.md R79). -/
theorem codeWindow_getLsbD {s : State} {sym : Symbol} {w : BitVec 8} {k : Nat} (hw : w ≤ 3) (hk : k < 64) :
    (codeWindow s sym w).getLsbD k = (decide (64 * w.toNat + (63 - k) < (codeLenOf s sym).toNat) &&
      (codeOf s sym).getD (64 * w.toNat + (63 - k)) false) := by
  have hw : w.toNat ≤ 3 := BitVec.le_def.1 hw
  rw [codeWindow, wordFromTop, BitVec.getLsbD_extractLsb', leftAligned_getLsbD (by omega) (by omega),
    (by omega : 255 - (192 - 64 * w.toNat + k) = 64 * w.toNat + (63 - k))]
  simp [hk]

end Sys2Proof.Machine
end

