-- ==== Sys2Proof/Machine/Programs.lean ====
section
/-! DEFINITION. The pseudo-instructions: programs of the host, not words the block decodes (30_encoding.md R75). Placed in
`State.host`, they run one action per step. -/

namespace Sys2Proof.Machine

/-- A command line of a host program: the write of its word to CMD (30_encoding.md R74). The poll of STATUS after it is
left out, as a command is one step and the first read already shows BUSY = 0 (70_reset_and_hazards.md R124). -/
def command (i : Instr) : HostOp := cmdWrite (encode i)

/-- `ARG = v` (30_encoding.md R74). -/
def setArg (v : Reg) : HostOp := .regWrite 0x10 .w64 v

/-- `IN_LEN = v` (30_encoding.md R74). -/
def setInLen (v : Reg) : HostOp := .regWrite 0x20 .w64 v

/-- `IN[i..] = b0 b1 ...` (30_encoding.md R74). -/
def loadBytes : Nat → List Byte → List HostOp
  | _, [] => []
  | i, b :: bs => .inWrite i b :: loadBytes (i + 1) bs

/-- `LDFI sym, v` (30_encoding.md R75). -/
def ldfi (sym : Symbol) (v : Reg) : List HostOp := [setArg v, command (.ldf sym)]

/-- The LDFI of every symbol that occurs in `x`, in ascending order, with its count (30_encoding.md R75). -/
def loadCounts (x : List Byte) : List HostOp :=
  (alphabet.filter fun sym => x.count sym ≠ 0).flatMap fun sym => ldfi sym (BitVec.ofNat 64 (x.count sym))

/-- `COMPRESS x` (30_encoding.md R75). -/
def compressProgram (x : List Byte) : List HostOp :=
  command .clr :: loadBytes 0 x ++ setInLen (BitVec.ofNat 64 x.length) :: loadCounts x ++
    [command .bld, command .map, command .ser, command .enc]

/-- `DECOMPRESS y` (30_encoding.md R75). -/
def decompressProgram (y : List Byte) : List HostOp :=
  command .clr :: loadBytes 0 y ++
    [setInLen (BitVec.ofNat 64 y.length), command .dsr, command .map, command .dec]

end Sys2Proof.Machine
end

