-- ==== Sys2Proof/Tests/Slice0.lean ====
section
/-! SUPPORT. The model's own tests, with expected results from spec/95_test_vectors.md and hand calculation, and for each
obligation with hypotheses a state and operands that meet them. -/

namespace Sys2Proof.Tests

set_option Elab.async false

open Sys2Proof.Machine

/-! ## Well-formedness: the one check, and a term it refuses (30_encoding.md R66) -/

theorem test_wf_refuses_selector_4 : (Instr.rdc 0x61 4).wellFormed = false := by decide

theorem test_wf_accepts_selector_3 : (Instr.rdc 0xFF 3).wellFormed = true := by decide

/-! ## Decoding: each constructor from its word, bit 31 first, RSV SEL SYM OPC (30_encoding.md R65, R67) -/

theorem test_decode_clr : decode 0b00000000_00000000_00000000_00000001#32 = .instr .clr := by decide

theorem test_decode_ldf : decode 0b00000000_00000000_01100001_00000010#32 = .instr (.ldf 0x61) := by decide

theorem test_decode_bld : decode 0b00000000_00000000_00000000_00000011#32 = .instr .bld := by decide

theorem test_decode_map : decode 0b00000000_00000000_00000000_00000100#32 = .instr .map := by decide

theorem test_decode_ser : decode 0b00000000_00000000_00000000_00000101#32 = .instr .ser := by decide

theorem test_decode_enc : decode 0b00000000_00000000_00000000_00000110#32 = .instr .enc := by decide

theorem test_decode_dsr : decode 0b00000000_00000000_00000000_00000111#32 = .instr .dsr := by decide

theorem test_decode_dec : decode 0b00000000_00000000_00000000_00001000#32 = .instr .dec := by decide

theorem test_decode_rdl : decode 0b00000000_00000000_10000000_00001001#32 = .instr (.rdl 0x80) := by decide

theorem test_decode_rdc : decode 0b00000000_00000011_11111111_00001010#32 = .instr (.rdc 0xFF 3) := by decide

/-- V-CTL-1 to V-CTL-5: words that are no command. -/
theorem test_decode_illegal :
    decode 0x00000000#32 = .illegal .reservedOpcode ∧ decode 0x0000000B#32 = .illegal .reservedOpcode ∧
    decode 0x01000003#32 = .illegal .reservedField ∧ decode 0x00000103#32 = .illegal .unusedSym ∧
    decode 0x00016102#32 = .illegal .unusedSel ∧ decode 0x0004610A#32 = .illegal .selTooLarge := by decide

theorem test_table_word : decodeTableWord 32 0x0001620A = some (.rdc 0x62 1) ∧ decodeTableWord 32 0x0B = none := by decide

/-! ## The states of the two sessions of V-ENC-2 and V-DEC-2 ("abcabcabc"), with IN_CAP = OUT_CAP = 16 -/

/-- The bytes at indices 0, 1, ... of a buffer. -/
def fromZero (bytes : List Byte) : Memory := (List.range bytes.length).zip bytes

/-- A fresh session with these bytes in IN_MEM. -/
def idle (bytes : List Byte) : State :=
  { State.reset with
    inCap := 16
    outCap := 16
    inMem := fromZero bytes
    inLen := BitVec.ofNat 64 bytes.length }

def abc : List Byte := [0x61, 0x62, 0x63, 0x61, 0x62, 0x63, 0x61, 0x62, 0x63]

def abcStream : List Byte := [0x58, 0xD6, 0x1B, 0x10, 0, 0, 0, 0, 0, 0, 0, 0x7D, 0xAD, 0x60]

def abcTree : HuffTree := .node (.leaf 0x63) (.node (.leaf 0x61) (.leaf 0x62))

/-- Compression: after LDF, BLD, MAP, SER and ENC. -/
def c0 : State := (((idle abc).setFreq 0x61 3).setFreq 0x62 3).setFreq 0x63 3

def c1 : State := c0.treeBuilt abcTree

def c2 : State := deriveMaps abcTree c1

def c3 : State :=
  { c2 with
    outMem := fromZero [0x58, 0xD6, 0x1B]
    outLen := 3
    wbuf := 0b00010
    wcnt := 5
    phase := .treeWritten }

def c4 : State :=
  { c3 with
    nBits := 15
    outMem := fromZero abcStream
    outLen := 14
    wbuf := 0
    wcnt := 0
    phase := .done }

/-- Decompression: before and after DSR, MAP and DEC. -/
def d0 : State := idle abcStream

def d1 : State := (d0.readTo 29).treeRead abcTree

def d2 : State := deriveMaps abcTree d1

def d3 : State :=
  { d2 with
    rpos := 108
    nBits := 15
    outMem := fromZero abc
    outLen := 9
    phase := .done }

/-- A session of one symbol, and one that reads the stream of V-DEC-7 (a count of 0). -/
def a0 : State := (idle [0x61, 0x61, 0x61, 0x61]).setFreq 0x61 4

def a1 : State := a0.treeBuilt (.leaf 0x61)

def e2 : State :=
  deriveMaps (.leaf 0x61) (((idle [0xB0, 0x80, 0, 0, 0, 0, 0, 0, 0, 0]).readTo 9).treeRead (.leaf 0x61))

/-- ERROR, as V-ENC-17 leaves it. -/
def err : State := errorEntry .sequence c2

/-- The result is a next state that meets a test. -/
def gives (r : Result) (p : State → Bool) : Bool :=
  match r with
  | .next t => p t
  | .fault _ => false
  | .refused _ => false

theorem gives_next {r : Result} {p : State → Bool} (h : gives r p = true) : ∃ t, r = .next t ∧ p t = true := by
  cases r with
  | next t => exact ⟨t, rfl, h⟩
  | fault f => cases h
  | refused f => cases h

/-- What a command leaves, seen through STATUS, OUT_LEN, N_BITS and RPOS. -/
def visible (s : State) : BitVec 32 × Reg × Reg × Reg := (statusWord s, s.outLen, s.nBits, s.rpos)

/-! ## One step per command -/

/-- CLR out of an error (40_control.md R76). -/
theorem test_clr : gives (exec .clr err) (fun t => visible t = (0x0000, 0, 0, 0) ∧ t.tree = none) = true := by
  decide +kernel

/-- LDF loads the largest frequency (40_control.md R77). -/
theorem test_ldf : gives (exec (.ldf 0x61) { d0 with arg := 0xFFFFFFFFFFFFFFFF })
    (fun t => freqOf t 0x61 = 0xFFFFFFFFFFFFFFFF ∧ freqOf t 0x62 = 0) = true := by decide +kernel

/-- V-MAP-1. -/
theorem test_map : gives (exec .map c1) (fun t => codeOf t 0x63 = [false] ∧ codeOf t 0x61 = [true, false] ∧
    codeOf t 0x62 = [true, true] ∧ statusWord t = 0x0200) = true := by decide +kernel

/-- V-MAP-8: a symbol on two leaves keeps the code of the last. -/
theorem test_map_repeated : gives (exec .map { d1 with tree := some (.node (.leaf 0x61) (.leaf 0x61)) })
    (fun t => codeOf t 0x61 = [true] ∧ t.dmap = [([false], 0x61), ([true], 0x61)]) = true := by decide +kernel

/-- V-SER-2. -/
theorem test_ser : gives (exec .ser c2) (fun t => t.outMem = c3.outMem ∧ t.outLen = 3 ∧ t.wcnt = 5 ∧ t.wbuf = 0b00010 ∧
    statusWord t = 0x0300) = true := by decide +kernel

/-- V-SER-5: OUT_CAP = 2. -/
theorem test_ser_overflow : gives (exec .ser { c2 with outCap := 2 }) (fun t => visible t = (0x0772, 0, 0, 0)) = true := by
  decide +kernel

/-- V-ENC-2. -/
theorem test_enc : gives (exec .enc c3) (fun t => t.outMem = fromZero abcStream ∧ t.wcnt = 0 ∧
    visible t = (0x0400, 14, 15, 0)) = true := by decide +kernel

/-- V-ENC-16: OUT_CAP = 13. -/
theorem test_enc_overflow : gives (exec .enc { c3 with outCap := 13 }) (fun t => visible t = (0x0772, 0, 15, 0)) = true := by
  decide +kernel

/-- V-DSR-2. -/
theorem test_dsr : gives (exec .dsr d0) (fun t => t.tree = some abcTree ∧ visible t = (0x1100, 0, 0, 29)) = true := by
  decide +kernel

/-- V-DSR-4: the input ends inside the symbol. -/
theorem test_dsr_malformed : gives (exec .dsr (idle [0xB0])) (fun t => visible t = (0x0722, 0, 0, 8)) = true := by
  decide +kernel

/-- V-DEC-2. -/
theorem test_dec : gives (exec .dec d2) (fun t => t.outMem = fromZero abc ∧ visible t = (0x1400, 9, 15, 108)) = true := by
  decide +kernel

/-- V-DEC-4 with k = 12: the input ends inside the payload. -/
theorem test_dec_truncated : gives (exec .dec { d2 with inLen := 12 }) (fun t => visible t = (0x1732, 0, 15, 96)) = true := by
  decide +kernel

/-- Program P3: RDL 'a', RDL 'd'. -/
theorem test_rdl : gives (exec (.rdl 0x61) c4) (fun t => t.result = 2) = true ∧
    gives (exec (.rdl 0x64) c4) (fun t => t.result = 0) = true := by decide +kernel

/-- 40_control.md R79: RDC 'b', 0 and RDC 'b', 1. -/
theorem test_rdc : gives (exec (.rdc 0x62 0) c4) (fun t => t.result = 0xC000000000000000) = true ∧
    gives (exec (.rdc 0x62 1) c4) (fun t => t.result = 0) = true := by decide +kernel

/-- The first step after reset runs the word placed, V-CTL-1 and program P5. -/
theorem test_first_step :
    gives (step (State.reset.withFetchWord 32 0x06)) (fun t => statusWord t = 0x0742) = true ∧
    gives (step (State.reset.withFetchWord 32 0x00)) (fun t => statusWord t = 0x0752) = true := by decide +kernel

/-- Program P1's `LDFI 'a', 4`, as words (30_encoding.md R75). -/
theorem test_ldfi : ldfi 0x61 4 = [.regWrite 0x10 .w64 4, .regWrite 0x00 .w32 0x6102] := by decide +kernel

/-! ## The sessions meet the invariant -/

theorem inv_idle {bytes : List Byte} (h : Memory.wf (fromZero bytes) ∧ ∀ c ∈ fromZero bytes, c.1 < 16) :
    Inv (idle bytes) where
  busy := rfl
  inCap := by simp [idle]
  outCap := by simp [idle]
  inMem := h
  outMem := ⟨List.Pairwise.nil, by simp [idle, State.reset]⟩
  outLen := by simp [idle, State.reset]
  ecode := by simp [idle, State.reset]
  session := ⟨rfl, ⟨rfl, fun sym => by simp [codeOf, codeLenOf, idle, State.reset]⟩, ⟨rfl, rfl, rfl⟩, rfl, rfl⟩

theorem freq_c0 (sym : Symbol) : sym ∈ leafSymbols abcTree ↔ freqOf c0 sym ≠ 0 := by
  simp only [freqOf, c0, State.setFreq, regGet_regSet, idle, State.reset, regGet_replicate, abcTree, leafSymbols,
    List.cons_append, List.nil_append, List.mem_cons, List.not_mem_nil, or_false]
  by_cases h1 : 0x63#8 = sym
  · simp [h1]
  by_cases h2 : 0x62#8 = sym
  · simp [h2]
  by_cases h3 : 0x61#8 = sym
  · simp [h3]
  simp [h1, h2, h3, eq_comm (a := sym)]

theorem freq_a0 (sym : Symbol) : sym ∈ leafSymbols (.leaf 0x61) ↔ freqOf a0 sym ≠ 0 := by
  simp only [freqOf, a0, State.setFreq, regGet_regSet, idle, State.reset, regGet_replicate, leafSymbols, List.mem_cons,
    List.not_mem_nil, or_false]
  simp [eq_comm (a := sym)]

theorem inv_c0 : Inv c0 :=
  (((inv_idle (by decide)).setFreq rfl 0x61 3).setFreq rfl 0x62 3).setFreq rfl 0x63 3

theorem inv_c1 : Inv c1 := inv_c0.treeBuilt rfl (by decide) freq_c0

theorem inv_c2 : Inv c2 := inv_c1.deriveMaps rfl rfl

theorem codes_c2 : CodesOf abcTree c2 := deriveMaps_codes (by decide) c1

theorem inv_c3 : Inv c3 where
  busy := rfl
  inCap := by decide
  outCap := by decide
  inMem := inv_c0.inMem
  outMem := by decide
  outLen := by decide
  ecode := ⟨fun _ => by decide, fun _ => rfl⟩
  session := ⟨⟨abcTree, ⟨rfl, by decide, freq_c0⟩, codes_c2, by decide +kernel⟩, rfl, rfl⟩

theorem inv_c4 : Inv c4 where
  busy := rfl
  inCap := by decide
  outCap := by decide
  inMem := inv_c0.inMem
  outMem := by decide
  outLen := by decide
  ecode := ⟨fun _ => by decide, fun _ => rfl⟩
  session := ⟨⟨abcTree, ⟨rfl, by decide, freq_c0⟩, codes_c2, rfl,
    abc.flatMap (codeOf c2), by decide +kernel, by decide +kernel⟩, rfl⟩

theorem inv_d0 : Inv d0 := inv_idle (by decide)

theorem inv_d1 : Inv d1 := inv_d0.treeRead rfl (t := abcTree) (by decide) (by decide)

theorem inv_d2 : Inv d2 := inv_d1.deriveMaps rfl rfl

theorem inv_d3 : Inv d3 where
  busy := rfl
  inCap := by decide
  outCap := by decide
  inMem := inv_d0.inMem
  outMem := by decide
  outLen := by decide
  ecode := ⟨fun _ => by decide, fun _ => rfl⟩
  session := ⟨⟨abcTree, ⟨rfl, by decide, by decide⟩, deriveMaps_codes (by decide) d1⟩, rfl, rfl⟩

theorem inv_a0 : Inv a0 := (inv_idle (by decide)).setFreq rfl 0x61 4

theorem inv_a1 : Inv a1 := inv_a0.treeBuilt rfl (by decide) freq_a0

theorem inv_e2 : Inv e2 :=
  ((inv_idle (by decide)).treeRead rfl (t := .leaf 0x61) (by decide) (by decide)).deriveMaps rfl rfl

theorem inv_err : Inv err := inv_c2.errorEntry (by decide)

/-- The invariant does not depend on IN_LEN. -/
theorem inv_inLen {s : State} (h : Inv s) (n : Reg) : Inv { s with inLen := n } :=
  h.outside s.arg s.result n s.inMem s.inDraw s.host s.hostData h.inMem

/-- The invariant with another OUT_CAP. -/
theorem inv_outCap {s : State} (h : Inv s) {n : Reg} (hn : 1 ≤ n.toNat ∧ n.toNat ≤ 2 ^ 56)
    (hm : ∀ c ∈ s.outMem, c.1 < n.toNat) (hl : s.outLen.toNat ≤ n.toNat) : Inv { s with outCap := n } where
  busy := h.busy
  inCap := h.inCap
  outCap := hn
  inMem := h.inMem
  outMem := ⟨h.outMem.1, hm⟩
  outLen := hl
  ecode := h.ecode
  session := h.session

theorem leafCandidates_c0 : leafCandidates c0 = [⟨3, .leaf 0x61⟩, ⟨3, .leaf 0x62⟩, ⟨3, .leaf 0x63⟩] := by
  have h : ∀ sym ∈ alphabet, decide (freqOf c0 sym ≠ 0) = decide (sym ∈ leafSymbols abcTree) := fun sym _ =>
    decide_eq_decide.2 (freq_c0 sym).symm
  have hp : presentSymbols c0 = [0x61, 0x62, 0x63] := by rw [presentSymbols, List.filter_congr h]; decide +kernel
  rw [leafCandidates, hp]
  decide +kernel

/-- V-BLD-1: a tie broken by the lead symbol. -/
theorem bld_c0 : exec .bld c0 = .next c1 := by
  have hp : c0.phase = .idle := rfl
  have hx : exec .bld c0 = body .bld c0 := exec_legal rfl (by rw [hp]; decide) (by rw [hp]; rfl)
  have ht : (mergeRounds 2 ⟨3, .leaf 0x61⟩ [⟨3, .leaf 0x62⟩, ⟨3, .leaf 0x63⟩]).tree = abcTree := by decide +kernel
  have hb : bld c0 = .ok () (c0.treeBuilt (mergeRounds 2 ⟨3, .leaf 0x61⟩ [⟨3, .leaf 0x62⟩, ⟨3, .leaf 0x63⟩]).tree) := by
    rw [bld, leafCandidates_c0]
    rfl
  rw [hx, body, runCmd_ok hb, ht, c1]

theorem test_bld : gives (exec .bld c0) (fun t => t.tree = some abcTree ∧ statusWord t = 0x0100) = true := by
  rw [bld_c0]
  decide +kernel

/-- An empty table (V-BLD-9). -/
theorem bld_d0 : exec .bld d0 = .next (errorEntry .emptyInput d0) := by
  have h : bld d0 = .error .emptyInput d0 := bld_empty fun sym => by simp [freqOf, d0, idle, State.reset]
  have hp : d0.phase = .idle := rfl
  have hx : exec .bld d0 = body .bld d0 := exec_legal rfl (by rw [hp]; decide) (by rw [hp]; rfl)
  rw [hx, body, runCmd_error h]

theorem test_bld_empty : gives (exec .bld d0) (fun t => statusWord t = 0x0712) = true := by
  rw [bld_d0]
  decide +kernel

theorem map_c1 : exec .map c1 = .next c2 := rfl

theorem map_d1 : exec .map d1 = .next d2 := rfl

/-! ## Witnesses: states and operands that meet the hypotheses of each obligation, clause by clause -/

theorem test_witness_DecodeEncodeRoundTrip : (Instr.rdc 0xFF 3).wellFormed = true ∧ Instr.clr.wellFormed = true := by decide

theorem test_witness_EncodeDecodeRoundTrip : decode 0x0003FF0A = .instr (.rdc 0xFF 3) := by decide

/-- A host that issues one word. -/
def issuing (w : Word) (s : State) : State := { s with host := [cmdWrite w] }

theorem test_witness_DecodeFollowsMatchAndMask : ∃ (w : Word) (s : State) (rest : List HostOp), s.busy = false ∧
    s.phase ≠ .error ∧ s.host = cmdWrite w :: rest ∧
    w ∉ [0x00000001#32, 0x00000003#32, 0x00000004#32, 0x00000005#32, 0x00000006#32, 0x00000007#32, 0x00000008#32] ∧
    w &&& 0xFFFF00FF#32 ≠ 0x00000002#32 ∧ w &&& 0xFFFF00FF#32 ≠ 0x00000009#32 ∧ w &&& 0xFFFC00FF#32 ≠ 0x0000000A#32 :=
  ⟨0x0004610A, issuing 0x0004610A c0, [], rfl, by decide, rfl, by decide⟩

theorem test_witness_ReservedWordsAreIllegal :
    (∀ w : Word, (issuing w c0).busy = false ∧ (issuing w c0).host = cmdWrite w :: [] ∧ c0.phase ≠ .error ∧
      (issuing w err).busy = false ∧ (issuing w err).host = cmdWrite w :: [] ∧ err.phase = .error) ∧
    ∀ w ∈ [0x00000000#32, 0x0000000B#32, 0x000000FF#32, 0x01000003#32, 0x00000103#32, 0x00010001#32, 0x00010002#32,
        0x0004000A#32],
      w.extractLsb' 0 8 = 0#8 ∨ 0x0A#8 < w.extractLsb' 0 8 ∨ w.extractLsb' 24 8 ≠ 0#8 ∨
        (w.extractLsb' 0 8 ∉ [0x02#8, 0x09#8, 0x0A#8] ∧ (w.extractLsb' 8 8 ≠ 0#8 ∨ w.extractLsb' 16 8 ≠ 0#8)) ∨
        (w.extractLsb' 0 8 ∈ [0x02#8, 0x09#8] ∧ w.extractLsb' 16 8 ≠ 0#8) ∨
        (w.extractLsb' 0 8 = 0x0A#8 ∧ 3#8 < w.extractLsb' 16 8) :=
  ⟨fun _ => ⟨rfl, rfl, by decide, rfl, rfl, rfl⟩, by
    simp only [List.forall_mem_cons, List.not_mem_nil, false_implies, implies_true, and_true]
    exact ⟨.inl (by decide), .inr (.inl (by decide)), .inr (.inl (by decide)), .inr (.inr (.inl (by decide))),
      .inr (.inr (.inr (.inl (by decide)))), .inr (.inr (.inr (.inl (by decide)))),
      .inr (.inr (.inr (.inr (.inl (by decide))))), .inr (.inr (.inr (.inr (.inr (by decide)))))⟩⟩

theorem test_witness_StepRunsDecodedCommand : (issuing 3 c0).busy = false ∧ (issuing 3 c0).host = cmdWrite 3 :: [] ∧
    decode 3 = .instr .bld := ⟨rfl, rfl, by decide⟩

theorem test_witness_DispatchOrder : (∀ w s, s = c0 ∨ s = err → (issuing w s).busy = false ∧
      (issuing w s).host = cmdWrite w :: []) ∧
    ((3 : Word) ≠ 1 ∧ err.phase = .error) ∧ (c0.phase ≠ .error ∧ decode 0x0B = .illegal .reservedOpcode) ∧
    (decode 4 = .instr .map ∧ legalTable .map c0.phase c0.dir = false) ∧
    (decode 3 = .instr .bld ∧ legalTable .bld c0.phase c0.dir = true) :=
  ⟨by rintro w s (rfl | rfl) <;> exact ⟨rfl, rfl⟩, by decide, by decide, by decide, by decide⟩

theorem test_witness_LegalityTable :
    (Instr.map.wellFormed = true ∧ c0.phase ≠ .error ∧ legalTable .map c0.phase c0.dir = false) ∧
    (Inv c0 ∧ legalTable .bld c0.phase c0.dir = true ∧ exec .bld c0 = .next c1 ∧ c1.phase ≠ .error) ∧
    (∃ t, legalTable .dsr d0.phase d0.dir = true ∧ exec .dsr d0 = .next t ∧ t.phase ≠ .error) ∧
    (Inv c0 ∧ c0.phase = .idle ∧ Inv c3 ∧ c3.phase = .treeWritten) := by
  refine ⟨by decide, ⟨inv_c0, by decide, bld_c0, by decide⟩, ?_, inv_c0, rfl, inv_c3, rfl⟩
  obtain ⟨t, h, hp⟩ := gives_next (r := exec .dsr d0) (p := fun t => t.phase ≠ .error) (by decide +kernel)
  exact ⟨t, by decide, h, of_decide_eq_true hp⟩

theorem test_witness_OnlyClrAndResetLeaveError : err.phase = .error ∧
    (∃ t, step (issuing 1 err) = .next t ∧ t.phase ≠ .error) ∧
    (∃ t, step { err with host := [.reset] } = .next t ∧ t.phase ≠ .error) :=
  ⟨rfl, ⟨clearSession err, rfl, nofun⟩, ⟨hostReset { err with host := [] }, rfl, nofun⟩⟩

theorem test_witness_IdleMachineHoldsItsState : c0.host = [] := rfl

theorem test_witness_ClrClearsTheSession : c0.busy = false ∧
    (err.phase = .error ∧ ∃ t, exec .clr err = .next t ∧ t.phase ≠ .error) ∧
    (Inv d0 ∧ d0.phase = .idle ∧ ∀ sym, freqOf d0 sym = 0) :=
  ⟨rfl, ⟨rfl, clearSession err, rfl, nofun⟩, inv_d0, rfl, fun sym => by simp [freqOf, d0, idle, State.reset]⟩

theorem test_witness_LdfLoadsArg : decode 0x0000FF02 = .instr (.ldf 0xFF) ∧ c0.phase = .idle ∧ (0x62 : Symbol) ≠ 0x61 ∧
    c1.phase ≠ .idle ∧ c1.phase ≠ .error := by decide

theorem test_witness_RdlReadsTheLength : c2.phase = .mapReady ∧ c3.phase = .treeWritten ∧ c4.phase = .done ∧
    d3.phase = .done ∧ CodesOf abcTree c2 ∧ c0.phase ∉ [.mapReady, .treeWritten, .done, .error] :=
  ⟨rfl, rfl, rfl, rfl, codes_c2, by decide⟩

theorem test_witness_RdcReadsTheWindow : (3 : BitVec 8) ≤ 3 ∧ c2.phase = .mapReady ∧
    c1.phase ∉ [.mapReady, .treeWritten, .done, .error] ∧ ¬ (4 : BitVec 8) ≤ 3 ∧ c0.phase ≠ .error ∧
    decode 0x0003FF0A = .instr (.rdc 0xFF 3) :=
  ⟨by decide, rfl, by decide, by decide, by decide, by decide⟩

theorem test_witness_BldBuildsTheMergeTree : (c1.phase ≠ .idle ∧ c1.phase ≠ .error) ∧
    (d0.phase = .idle ∧ ∀ sym, freqOf d0 sym = 0) ∧
    (c0.phase = .idle ∧ freqOf c0 0x61 ≠ 0 ∧ (leafSymbols abcTree).Nodup ∧
      ∀ sym, sym ∈ leafSymbols abcTree ↔ freqOf c0 sym ≠ 0) :=
  ⟨by decide, ⟨rfl, fun sym => by simp [freqOf, d0, idle, State.reset]⟩, rfl, (freq_c0 0x61).1 (by decide), by decide,
    freq_c0⟩

theorem test_witness_BuiltTreeShape : c0.phase = .idle ∧ exec .bld c0 = .next c1 ∧ c1.phase = .treeReady ∧
    subtreeAt abcTree [true, true] = some (.leaf 0x62) := ⟨rfl, bld_c0, rfl, rfl⟩

theorem test_witness_BldDependsOnFreqOnly : ∃ (s s' t t' : State), s ≠ s' ∧ s.phase = .idle ∧ s'.phase = .idle ∧
    s.freq = s'.freq ∧ exec .bld s = .next t ∧ exec .bld s' = .next t' ∧ t.phase = .treeReady := by
  obtain ⟨tr, h, -⟩ := bld_ok (s := { c0 with inLen := 0 }) ⟨0x61, (freq_c0 0x61).1 (by decide)⟩
  refine ⟨c0, { c0 with inLen := 0 }, c1, _, ?_, rfl, rfl, rfl, bld_c0,
    (exec_legal rfl (by decide) (by decide)).trans (runCmd_ok h), rfl⟩
  intro h
  have : c0.inLen = 0 := congrArg State.inLen h
  exact absurd this (by decide)

theorem test_witness_SingleSymbolSession : Inv a0 ∧ a0.phase = .idle ∧ freqOf a0 0x61 ≠ 0 ∧
    ∀ other, other ≠ 0x61 → freqOf a0 other = 0 := by
  refine ⟨inv_a0, rfl, (freq_a0 0x61).1 (by decide), fun other h => ?_⟩
  by_contra hf
  exact h (by simpa [leafSymbols] using (freq_a0 other).2 hf)

/-- The comb of V-MAP-7, with 255 internal nodes. -/
def comb : Nat → HuffTree
  | 0 => .leaf 0xFF
  | n + 1 => .node (.leaf (BitVec.ofNat 8 (254 - n))) (comb n)

theorem test_witness_MapDerivesTheMaps : (c0.phase ≠ .treeReady ∧ c0.phase ≠ .error) ∧
    (c1.phase = .treeReady ∧ c1.tree = some abcTree ∧ internalCount abcTree ≤ 255 ∧ 0x64 ∉ leafSymbols abcTree) ∧
    (∃ s : State, s.phase = .treeReady ∧ s.tree = some (comb 255) ∧ internalCount (comb 255) ≤ 255 ∧
      ¬ internalCount (comb 255) ≤ 254) :=
  ⟨by decide, ⟨rfl, rfl, by decide, by decide⟩, { d1 with tree := some (comb 255) }, rfl, rfl, by decide +kernel,
    by decide +kernel⟩

theorem test_witness_SingleLeafCode : a1.phase = .treeReady ∧ a1.tree = some (.leaf 0x61) := ⟨rfl, rfl⟩

theorem test_witness_RepeatedSymbolCodes : ∃ (s t : State) (tr : HuffTree), s.phase = .treeReady ∧ s.tree = some tr ∧
    internalCount tr ≤ 255 ∧ exec .map s = .next t ∧ leafCodes tr = [([false], 0x61)] ++ ([true], 0x61) :: [] ∧
    (0x61 : Symbol) ∉ ([] : List (BitString × Symbol)).map Prod.snd :=
  ⟨{ d1 with tree := some (.node (.leaf 0x61) (.leaf 0x61)) }, _, _, rfl, rfl, by decide, rfl, rfl, by decide⟩

theorem test_witness_CodesArePrefixFree : (Inv c1 ∧ c1.phase = .treeReady ∧ c1.tree = some abcTree ∧
      exec .map c1 = .next c2 ∧ c1.dir = .compress ∧ 2 ≤ leafCount abcTree ∧
      255 ≤ (List.replicate 255 true).length ∧ dmapFind c2.dmap [false] = some 0x63 ∧ [false] <+: [false] ∧
      freqOf c1 0x61 ≠ 0 ∧ freqOf c1 0x64 = 0) ∧
    (Inv a1 ∧ a1.phase = .treeReady ∧ a1.tree = some (.leaf 0x61) ∧ leafCount (.leaf 0x61) = 1 ∧
      ∃ t, exec .map a1 = .next t) :=
  ⟨⟨inv_c1, rfl, rfl, map_c1, rfl, by decide, by rw [List.length_replicate], by decide +kernel, List.prefix_rfl, by decide +kernel,
    by decide +kernel⟩, inv_a1, rfl, rfl, rfl, _, rfl⟩

theorem test_witness_MissingTreeStops : (∃ s : State, s.phase = .treeReady ∧ s.tree = none) ∧
    (∃ s : State, s.phase = .mapReady ∧ s.dir = .compress ∧ s.tree = none) :=
  ⟨⟨{ c1 with tree := none }, rfl, rfl⟩, { c2 with tree := none }, rfl, rfl, rfl⟩

theorem test_witness_SerWritesTheTree : (¬ (d2.phase = .mapReady ∧ d2.dir = .compress) ∧ d2.phase ≠ .error) ∧
    (∃ s : State, Inv s ∧ s.phase = .mapReady ∧ s.dir = .compress ∧ s.tree = some abcTree ∧
      treeBits abcTree / 8 = s.outCap.toNat) ∧
    (∃ s : State, Inv s ∧ s.phase = .mapReady ∧ s.dir = .compress ∧ s.tree = some abcTree ∧
      s.outCap.toNat + 1 = treeBits abcTree / 8) :=
  ⟨by decide, ⟨{ c2 with outCap := 3 }, inv_outCap inv_c2 (by decide) (by decide) (by decide), rfl, rfl, rfl, rfl⟩,
    { c2 with outCap := 2 }, inv_outCap inv_c2 (by decide) (by decide) (by decide), rfl, rfl, rfl, rfl⟩

theorem test_witness_TreeSize : ∃ s : State, s.outLen.toNat ≤ s.outCap.toNat ∧
    (streamLen s + (10 * leafCount abcTree - 1)) / 8 = s.outCap.toNat := ⟨{ c2 with outCap := 3 }, by decide⟩

theorem test_witness_DsrReadsTheTree : (c1.phase ≠ .idle ∧ c1.phase ≠ .error) ∧
    (∃ s : State, Inv s ∧ s.phase = .idle ∧ s.inLen = s.inCap + 1 ∧ s.inCap < s.inLen) ∧
    (∃ s : State, Inv s ∧ s.phase = .idle ∧ s.inLen ≤ s.inCap ∧ internalCount abcTree ≤ 255 ∧ s.inLen = 4 ∧
      treeBits abcTree ≤ 8 * s.inLen.toNat ∧ inStream s 0 (treeBits abcTree) = serBits abcTree) ∧
    (∃ s : State, Inv s ∧ s.phase = .idle ∧ s.inLen ≤ s.inCap ∧ ∀ tr, internalCount tr ≤ 255 →
      treeBits tr ≤ 8 * s.inLen.toNat → inStream s 0 (treeBits tr) ≠ serBits tr) :=
  ⟨by decide, ⟨{ d0 with inLen := 17 }, inv_inLen inv_d0 17, rfl, rfl, by decide⟩,
    ⟨{ d0 with inLen := 4 }, inv_inLen inv_d0 4, rfl, by decide, by decide, rfl, by decide, by decide +kernel⟩,
    { d0 with inLen := 0 }, inv_inLen inv_d0 0, rfl, by decide, fun tr _ h => by rw [treeBits_eq] at h; simp at h⟩

/-- 32 bytes of zeros (V-DSR-6), or 31 (V-DSR-9). -/
def zeros (n : Reg) : State := { d0 with inCap := 32, inMem := fromZero (List.replicate 32 0), inLen := n }

theorem inv_zeros (n : Reg) : Inv (zeros n) :=
  inv_inLen (s := zeros 0) ⟨rfl, by decide, inv_d0.outCap, by decide +kernel, inv_d0.outMem, inv_d0.outLen, inv_d0.ecode,
    inv_d0.session⟩ n

theorem test_witness_DsrLimitsInternalNodes : (∃ t, Inv d0 ∧ d0.phase = .idle ∧ exec .dsr d0 = .next t ∧
      t.phase = .treeReady) ∧
    ∀ n ∈ [31#64, 32#64], Inv (zeros n) ∧ (zeros n).phase = .idle ∧ (zeros n).inLen = n ∧ (zeros n).inLen ≤ (zeros n).inCap ∧
      ∀ i, i < 32 → i < (zeros n).inLen.toNat → inByte (zeros n) i = 0 := by
  refine ⟨?_, fun n hn => ⟨inv_zeros n, rfl, rfl, ?_, ?_⟩⟩
  · obtain ⟨t, h, hp⟩ := gives_next (r := exec .dsr d0) (p := fun t => t.phase = .treeReady) (by decide +kernel)
    exact ⟨t, inv_d0, rfl, h, of_decide_eq_true hp⟩
  · simp only [List.mem_cons, List.not_mem_nil, or_false] at hn
    rcases hn with rfl | rfl
    · decide
    · decide
  · intro i hi _
    have : ∀ i, i < 32 → (memRead (fromZero (List.replicate 32 (0 : Byte))) i) = some 0 := by decide +kernel
    change (memRead (fromZero (List.replicate 32 (0 : Byte))) i).getD _ = 0
    rw [this i hi]
    rfl

theorem test_witness_TreeSegmentRoundTrip : ∃ c', Inv c2 ∧ c2.phase = .mapReady ∧ c2.tree = some abcTree ∧
    exec .ser c2 = .next c' ∧ c'.phase = .treeWritten ∧ Inv d0 ∧ d0.phase = .idle ∧ d0.inLen ≤ d0.inCap ∧
    treeBits abcTree ≤ 8 * d0.inLen.toNat ∧ ∀ p, p < treeBits abcTree → inBit d0 p = outBit c' p := by
  obtain ⟨t, h, hp⟩ := gives_next (r := exec .ser c2)
    (p := fun t => decide (t.phase = .treeWritten ∧ inStream d0 0 29 = (List.range 29).map (outBit t))) (by decide +kernel)
  have hp := of_decide_eq_true hp
  exact ⟨t, inv_c2, rfl, rfl, h, hp.1, inv_d0, rfl, by decide, by decide, fun p h => by
    have := List.map_inj_left.1 hp.2 p (List.mem_range.2 h)
    simpa using this⟩

theorem test_witness_EncChecksInOrder : ∀ n ∈ [17#64, 0#64, 1#64], ∃ s : State, s.phase = .treeWritten ∧ s.inLen = n ∧
    (n = 17 → s.inCap < s.inLen) ∧ (n ≠ 17 → s.inLen ≤ s.inCap) ∧
    (n = 1 → ∃ i, i < s.inLen.toNat ∧ codeLenOf s (inByte s i) = 0) := by
  intro n hn
  refine ⟨{ c3 with inLen := n, inMem := [(0, 0x64)] }, rfl, rfl, ?_, ?_, ?_⟩
  · rintro rfl; decide
  · intro h
    simp only [List.mem_cons, List.not_mem_nil, or_false] at hn
    rcases hn with rfl | rfl | rfl
    · exact absurd rfl h
    · decide
    · decide
  · rintro rfl
    exact ⟨0, by decide, by decide +kernel⟩

theorem test_witness_EncWritesTheStream : ∀ n ∈ [13#64, 14#64], ∃ (s : State) (payload : BitString), Inv s ∧
    s.phase = .treeWritten ∧ s.tree = some abcTree ∧ s.inLen ≤ s.inCap ∧ s.inLen ≠ 0 ∧
    (∀ i, i < s.inLen.toNat → codeLenOf s (inByte s i) ≠ 0) ∧
    payload = (List.range s.inLen.toNat).flatMap (fun i => codeOf s (inByte s i)) ∧ s.outCap = n ∧
    (treeBits abcTree + 64 + payload.length + 7) / 8 = 14 := by
  intro n hn
  have hc : (List.range c3.inLen.toNat).flatMap (fun i => codeOf c3 (inByte c3 i)) = abc.flatMap (codeOf c2) := by
    decide +kernel
  have hi : Inv { c3 with outCap := n } := by
    simp only [List.mem_cons, List.not_mem_nil, or_false] at hn
    rcases hn with rfl | rfl
    · exact inv_outCap inv_c3 (by decide) (by decide) (by decide)
    · exact inv_outCap inv_c3 (by decide) (by decide) (by decide)
  have hk : ∀ i, i < c3.inLen.toNat → codeLenOf c3 (inByte c3 i) ≠ 0 := by decide +kernel
  have hl : (treeBits abcTree + 64 + (abc.flatMap (codeOf c2)).length + 7) / 8 = 14 := by decide +kernel
  exact ⟨{ c3 with outCap := n }, _, hi, rfl, rfl, (by decide : c3.inLen ≤ c3.inCap), (by decide : c3.inLen ≠ 0), hk,
    hc.symm, rfl, hl⟩

theorem test_witness_PayloadCountIsExact : Inv c3 ∧ c3.phase = .treeWritten ∧ c3.inLen ≤ c3.inCap ∧
    ∀ sym, (freqOf c3 sym).toNat = (inputBytes c3).count sym := by
  have h : inputBytes c3 = abc := by decide +kernel
  refine ⟨inv_c3, rfl, by decide, fun sym => ?_⟩
  rw [h, show freqOf c3 sym = freqOf c0 sym from rfl]
  simp only [freqOf, c0, State.setFreq, regGet_regSet, idle, State.reset, regGet_replicate]
  by_cases h1 : 0x63#8 = sym
  · subst h1; decide
  by_cases h2 : 0x62#8 = sym
  · subst h2; decide
  by_cases h3 : 0x61#8 = sym
  · subst h3; decide
  simp [h1, h2, h3, abc]

/-- The codes of "abcabcabc" under the tree of V-BLD-1. -/
def abcCodes : List (BitString × Symbol) :=
  [([true, false], 0x61), ([true, true], 0x62), ([false], 0x63), ([true, false], 0x61), ([true, true], 0x62),
    ([false], 0x63), ([true, false], 0x61), ([true, true], 0x62), ([false], 0x63)]

/-- V-DEC-2 with the least OUT_CAP. -/
theorem test_witness_DecDecodesThePayload : ∃ s : State, Inv s ∧ s.phase = .mapReady ∧ s.dir = .decompress ∧
    s.tree = some abcTree ∧ s.inLen ≤ s.inCap ∧ s.rpos.toNat + 64 + (15 : Reg).toNat ≤ 8 * s.inLen.toNat ∧
    inStream s s.rpos.toNat 64 = msbFirst (15 : Reg) ∧ (∀ c ∈ abcCodes, c ∈ leafCodes abcTree) ∧
    inStream s (s.rpos.toNat + 64) (15 : Reg).toNat = abcCodes.flatMap Prod.fst ∧ abcCodes.length = s.outCap.toNat :=
  ⟨{ d2 with outCap := 9 }, inv_outCap inv_d2 (by decide) (by decide) (by decide), rfl, rfl, rfl, by decide, by decide,
    by decide +kernel, by decide, by decide +kernel, rfl⟩

theorem test_witness_DecEarlyErrors : (∃ s : State, Inv s ∧ s.phase = .mapReady ∧ s.dir = .decompress ∧
      s.inCap < s.inLen) ∧
    (∃ s : State, Inv s ∧ s.phase = .mapReady ∧ s.dir = .decompress ∧ s.inLen ≤ s.inCap ∧
      8 * s.inLen.toNat < s.rpos.toNat + 64 ∧ s.rpos.toNat + 64 ≤ 8 * (s.inLen.toNat + 1)) :=
  ⟨⟨{ d2 with inLen := 17 }, inv_inLen inv_d2 17, rfl, rfl, by decide⟩,
    { d2 with inLen := 11 }, inv_inLen inv_d2 11, rfl, rfl, by decide, by decide, by decide⟩

/-- V-DEC-4 with k = 12; V-DEC-2 with the count 13, which ends the budget inside a code; V-DEC-2 with OUT_CAP = 8. -/
theorem test_witness_DecLoopErrors : (∃ s : State, Inv s ∧ s.phase = .mapReady ∧ s.dir = .decompress ∧
      s.tree = some abcTree ∧ s.inLen ≤ s.inCap ∧ inStream s s.rpos.toNat 64 = msbFirst (15 : Reg) ∧
      (∀ c ∈ abcCodes.take 1, c ∈ leafCodes abcTree) ∧
      inStream s (s.rpos.toNat + 64) 3 = (abcCodes.take 1).flatMap Prod.fst ++ [true] ∧
      (abcCodes.take 1).length ≤ s.outCap.toNat ∧ (∀ c ∈ leafCodes abcTree, ¬ c.1 <+: [true]) ∧
      s.rpos.toNat + 64 + 2 + 1 = 8 * s.inLen.toNat ∧ 2 + 1 < (15 : Reg).toNat) ∧
    (∃ s : State, Inv s ∧ s.phase = .mapReady ∧ s.dir = .decompress ∧ s.tree = some abcTree ∧ s.inLen ≤ s.inCap ∧
      s.rpos.toNat + 64 + 12 + 1 ≤ 8 * s.inLen.toNat ∧ inStream s s.rpos.toNat 64 = msbFirst (13 : Reg) ∧
      inStream s (s.rpos.toNat + 64) 13 = (abcCodes.take 7).flatMap Prod.fst ++ [true] ∧
      ((abcCodes.take 7).flatMap Prod.fst).length + 1 = (13 : Reg).toNat) ∧
    (∃ s : State, Inv s ∧ s.phase = .mapReady ∧ s.dir = .decompress ∧ s.tree = some abcTree ∧ s.inLen ≤ s.inCap ∧
      inStream s s.rpos.toNat 64 = msbFirst (15 : Reg) ∧
      inStream s (s.rpos.toNat + 64) (15 + 0) = abcCodes.flatMap Prod.fst ++ [] ∧
      abcCodes.length = s.outCap.toNat + 1 ∧ (abcCodes.flatMap Prod.fst).length ≤ (15 : Reg).toNat) := by
  refine ⟨⟨{ d2 with inLen := 12 }, inv_inLen inv_d2 12, rfl, rfl, rfl, by decide, by decide +kernel, by decide,
    by decide +kernel, by decide, by decide, by decide, by decide⟩, ?_, ?_⟩
  · exact ⟨{ d2 with inMem := memWrite d2.inMem 11 0x6D },
      inv_d2.outside d2.arg d2.result d2.inLen _ d2.inDraw d2.host d2.hostData (inv_d2.inWrite 0x6D (by decide)),
      rfl, rfl, rfl, by decide, by decide, by decide +kernel, by decide +kernel, by decide⟩
  · exact ⟨{ d2 with outCap := 8 }, inv_outCap inv_d2 (by decide) (by decide) (by decide), rfl, rfl, rfl, by decide,
      by decide +kernel, by decide +kernel, rfl, by decide⟩

/-- The pad bits of V-DEC-2 changed. -/
theorem test_witness_DecReadsOnlyItsBudget : ∃ t, Inv d2 ∧ d2.phase = .mapReady ∧ d2.dir = .decompress ∧
    d2.inLen ≤ d2.inCap ∧ d2.rpos.toNat + 64 + (15 : Reg).toNat ≤ 8 * d2.inLen.toNat ∧
    inStream d2 d2.rpos.toNat 64 = msbFirst (15 : Reg) ∧ memWrite d2.inMem 13 0x6F ≠ d2.inMem ∧
    (∀ p, p < d2.rpos.toNat + 64 + (15 : Reg).toNat →
      inBit { d2 with inMem := memWrite d2.inMem 13 0x6F } p = inBit d2 p) ∧ exec .dec d2 = .next t := by
  obtain ⟨t, h, -⟩ := gives_next test_dec
  exact ⟨t, inv_d2, rfl, rfl, by decide, by decide, by decide +kernel, by decide, by decide +kernel, h⟩

theorem test_witness_EmptyPayloadAccepted : (Inv e2 ∧ e2.phase = .mapReady ∧ e2.dir = .decompress ∧ e2.inLen ≤ e2.inCap ∧
      e2.rpos.toNat + 64 ≤ 8 * e2.inLen.toNat ∧ inStream e2 e2.rpos.toNat 64 = msbFirst (0 : Reg)) ∧
    (∃ t, Inv c3 ∧ c3.phase = .treeWritten ∧ exec .enc c3 = .next t ∧ t.phase = .done) := by
  refine ⟨⟨inv_e2, rfl, rfl, by decide, by decide, by decide +kernel⟩, ?_⟩
  obtain ⟨t, h, hp⟩ := gives_next (r := exec .enc c3) (p := fun t => t.phase = .done) (by decide +kernel)
  exact ⟨t, inv_c3, rfl, h, of_decide_eq_true hp⟩

theorem test_witness_DecIsATreeWalk : (Inv d2 ∧ d2.phase = .mapReady ∧ d2.dir = .decompress ∧ d2.tree = some abcTree) ∧
    (Inv e2 ∧ e2.phase = .mapReady ∧ e2.dir = .decompress ∧ e2.tree = some (.leaf 0x61)) :=
  ⟨⟨inv_d2, rfl, rfl, rfl⟩, inv_e2, rfl, rfl, rfl⟩

theorem test_witness_CompressDecompressRoundTrip : ∃ t u, Inv c0 ∧ c0.phase = .idle ∧ exec .bld c0 = .next c1 ∧
    exec .map c1 = .next c2 ∧ exec .ser c2 = .next t ∧ exec .enc t = .next u ∧ u.phase = .done ∧ Inv d0 ∧
    d0.phase = .idle ∧ d0.inLen = u.outLen ∧ d0.inLen ≤ d0.inCap ∧
    (∀ i, i < u.outLen.toNat → inByte d0 i = outByte u i) ∧ c0.inLen ≤ d0.outCap := by
  obtain ⟨t, h, hp⟩ := gives_next (r := exec .ser c2) (p := fun t => gives (exec .enc t) fun u =>
    decide (u.phase = .done ∧ u.outLen = 14 ∧ (List.range 14).map (inByte d0) = (List.range 14).map (outByte u))) (by decide +kernel)
  obtain ⟨u, hu, hq⟩ := gives_next hp
  obtain ⟨h1, h2, h3⟩ := of_decide_eq_true hq
  exact ⟨t, u, inv_c0, rfl, bld_c0, map_c1, h, hu, h1, inv_d0, rfl, h2.symm, by decide, fun i h => List.map_inj_left.1 h3 i (List.mem_range.2 (by rw [h2] at h; exact h)), by decide⟩

/-- The tree of V-SER-2 written, with room for one byte more; V-MEM-5. -/
theorem test_witness_WriterAppendsToTheStream : ∃ s t : State, s.outLen.toNat ≤ s.outCap.toNat ∧
    (streamLen s + 3) / 8 = s.outCap.toNat ∧ (streamLen s + (padBits (streamLen s)).length) / 8 = s.outCap.toNat ∧
    (streamLen s + 1) / 8 ≤ s.outCap.toNat ∧ t.outLen.toNat ≤ t.outCap.toNat ∧ t.outCap.toNat < (streamLen t + 1) / 8 ∧
    t.outCap.toNat + 1 = (streamLen t + 8) / 8 ∧ t.outCap.toNat + 1 = (streamLen t + (padBits (streamLen t)).length) / 8 :=
  ⟨{ c3 with outCap := 4 }, { c3 with outCap := 1, outLen := 1, wcnt := 7 }, by decide⟩

/-- V-MEM-9 and V-MEM-8. -/
theorem test_witness_ReaderReadsTheStream : (∃ s : State, 8 * s.inLen.toNat = s.rpos.toNat) ∧
    (∃ s : State, s.rpos.toNat + 1 = 8 * s.inLen.toNat) ∧
    (∃ s : State, 8 * s.inLen.toNat < 2 ^ 64 ∧ s.rpos.toNat + 64 ≤ 8 * s.inLen.toNat ∧
      inStream s s.rpos.toNat 64 = msbFirst (0 : Reg)) ∧
    (∃ s : State, 8 * s.inLen.toNat < 2 ^ 64 ∧ s.rpos.toNat ≤ 8 * s.inLen.toNat ∧
      8 * s.inLen.toNat + 1 = s.rpos.toNat + 64) :=
  ⟨⟨{ e2 with rpos := 80 }, by decide⟩, ⟨{ e2 with rpos := 79 }, by decide⟩, ⟨e2, by decide, by decide, by decide +kernel⟩,
    { e2 with rpos := 17 }, by decide⟩

theorem test_witness_ErrorEntryLeaves : ∃ t, Inv c0 ∧ c0.phase ≠ .error ∧ exec .map c0 = .next t ∧ t.phase = .error ∧
    Instr.map ≠ .dsr ∧ Instr.map ≠ .dec ∧ Instr.map ≠ .enc :=
  ⟨_, inv_c0, by decide, exec_sequence rfl (by decide) (by decide), rfl, by decide⟩

theorem test_witness_ErrorsAreTheCommandsOwn : ∃ t, Inv d0 ∧ d0.phase ≠ .error ∧ exec .bld d0 = .next t ∧
    t.phase = .error := ⟨_, inv_d0, by decide, bld_d0, (errorEntry_enters _ _).phase⟩

theorem test_witness_CommandsKeepTheHostsInputs : exec .map c1 = .next c2 := map_c1

theorem test_witness_EachRegisterHasItsWriters : exec .map c1 = .next c2 ∧ Instr.map ≠ .clr ∧ c2.phase ≠ .error ∧
    (∀ sym, Instr.map ≠ .ldf sym) ∧ exec .bld c0 = .next c1 ∧ Instr.bld ≠ .map :=
  ⟨map_c1, by decide, by decide, fun _ => by simp, bld_c0, by decide⟩

theorem test_witness_StoresStayInTheStream : (Inv c1 ∧ exec .map c1 = .next c2 ∧ c2.phase ≠ .error) ∧
    ∃ t, Inv c2 ∧ exec .ser c2 = .next t ∧ t.phase ≠ .error ∧ t.outLen.toNat ≤ 3 := by
  obtain ⟨t, h, hp⟩ := gives_next (r := exec .ser c2) (p := fun t => t.phase ≠ .error ∧ t.outLen.toNat ≤ 3) (by decide +kernel)
  have hp := of_decide_eq_true hp
  exact ⟨⟨inv_c1, map_c1, by decide⟩, t, inv_c2, h, hp.1, hp.2⟩

theorem test_witness_CommandsAlwaysComplete : Inv c0 ∧ Inv d3 ∧ Inv c4 ∧ Inv err := ⟨inv_c0, inv_d3, inv_c4, inv_err⟩

/-- The invariant with another host. -/
theorem inv_host {s : State} (h : Inv s) (l : List HostOp) : Inv { s with host := l } :=
  h.outside s.arg s.result s.inLen s.inMem s.inDraw l s.hostData h.inMem

theorem test_witness_StepKeepsTheInvariant : ∃ s t : State, Inv s ∧ step s = .next t ∧ s ≠ t :=
  ⟨{ c0 with host := [.regRead 0x08 .w32] }, _, inv_host inv_c0 _, rfl, fun h => by
    have := congrArg State.host h
    simp at this⟩

theorem test_witness_KeptDutiesRunForever : ∃ s : State, Inv s ∧ s.host.length = 3 ∧
    ∀ op ∈ s.host, brokenDuty op s = none :=
  ⟨{ c0 with host := [.inWrite 15 0, cmdWrite 3, .outRead 15] }, inv_host inv_c0 _, rfl, by decide⟩

theorem test_witness_StatusShowsItsFields :
    (d0.busy = false ∧ d0.ecode = .none ∧ d0.phase = .idle ∧ d0.dir = .compress) ∧
    (c4.busy = false ∧ c4.ecode = .none ∧ c4.phase = .done ∧ c4.dir = .compress) ∧
    (d3.busy = false ∧ d3.ecode = .none ∧ d3.phase = .done ∧ d3.dir = .decompress) ∧
    (∃ s : State, s.busy = false ∧ s.ecode = .truncatedPayload ∧ s.phase = .error ∧ s.dir = .decompress) ∧
    (∀ p e d, ∃ s : State, s.phase = p ∧ s.ecode = e ∧ s.dir = d) :=
  ⟨⟨rfl, rfl, rfl, rfl⟩, ⟨rfl, rfl, rfl, rfl⟩, ⟨rfl, rfl, rfl, rfl⟩, ⟨errorEntry .truncatedPayload d2, rfl, rfl, rfl, rfl⟩,
    fun p e d => ⟨{ c0 with phase := p, ecode := e, dir := d }, rfl, rfl, rfl⟩⟩

theorem test_witness_RegisterReads : (∀ off width, ∃ s : State, s.busy = false ∧ s.host = .regRead off width :: []) ∧
    (0x50 ≤ (0xF8 : BitVec 8).toNat ∧ (0xF8 : BitVec 8).toNat % 8 = 0) ∧
    (0x50 ≤ (0x50 : BitVec 8).toNat ∧ (0x50 : BitVec 8).toNat % 8 = 0) ∧
    (∃ s : State, s.busy = true ∧ s.host = .regRead 0x08 .w32 :: []) :=
  ⟨fun off width => ⟨{ c0 with host := [.regRead off width] }, rfl, rfl⟩, by decide, by decide,
    { c0 with busy := true, host := [.regRead 0x08 .w32] }, rfl, rfl⟩

theorem test_witness_RegisterWrites : ∀ off width v, ∃ s : State, s.busy = false ∧ s.host = .regWrite off width v :: [] :=
  fun off width v => ⟨{ c0 with host := [.regWrite off width v] }, rfl, rfl⟩

theorem test_witness_BufferAccess : ∀ op ∈ [HostOp.inWrite 15 0xAA, .inRead 15, .outWrite 15 0xAA, .outRead 15],
    ∃ s : State, s.busy = false ∧ s.host = op :: [] ∧ 15 < s.inCap.toNat ∧ 15 < s.outCap.toNat :=
  fun op _ => ⟨{ c0 with host := [op] }, rfl, rfl, (by decide : 15 < c0.inCap.toNat), (by decide : 15 < c0.outCap.toNat)⟩

theorem test_witness_ResetGivesTheResetState : ∃ s t : State, s.host = .reset :: [] ∧ step s = .next t :=
  ⟨{ err with host := [.reset] }, _, rfl, rfl⟩

theorem test_witness_ResetIsAlwaysServed : ∃ s : State, s.busy = true ∧ s.host = .reset :: [] :=
  ⟨{ err with busy := true, host := [.reset] }, rfl, rfl⟩

theorem test_witness_BrokenDutiesAreRefused : (∀ op, ∃ s : State, s.host = op :: [] ∧ s.busy = true) ∧
    (∀ op, ∃ s : State, s.host = op :: [] ∧ s.busy = false ∧ s.inCap.toNat = 16 ∧ s.outCap.toNat = 16) ∧
    HostOp.outRead 0 ≠ .reset ∧ HostOp.outRead 0 ≠ .regRead 0x08 .w32 ∧ (0x4C : BitVec 8).toNat % 8 ≠ 0 ∧
    (Width.w64 ≠ .w32) ∧ ((0x48 : BitVec 8).toNat % 8 = 0 ∧ (0x48 : BitVec 8).toNat ≤ 0x48 ∧ Width.w32 ≠ .w64) ∧
    (0x50 ≤ (0x50 : BitVec 8).toNat ∧ (0x50 : BitVec 8).toNat % 8 = 0) :=
  ⟨fun op => ⟨{ c0 with busy := true, host := [op] }, rfl, rfl⟩,
    fun op => ⟨{ c0 with host := [op] }, rfl, rfl, (by decide : c0.inCap.toNat = 16), (by decide : c0.outCap.toNat = 16)⟩,
    by decide, by decide, by decide, by decide, by decide, by decide⟩

theorem test_witness_HostKeepsInternalState : ∃ s t : State, s.host = .regWrite 0x10 .w64 5 :: [] ∧
    HostOp.regWrite 0x10 .w64 5 ≠ .reset ∧ (∀ v, HostOp.regWrite 0x10 .w64 5 ≠ .regWrite 0x00 .w32 v) ∧ step s = .next t :=
  ⟨{ c0 with host := [.regWrite 0x10 .w64 5] }, _, rfl, by decide, fun v => by simp, rfl⟩

end Sys2Proof.Tests
end

/-! # Every step keeps the invariant of the session

A command's body ends in a state whose session is the one of its new PHASE, or it raises an error, whose entry needs of the
invariant no more than what no command writes. -/

namespace Sys2Proof.Machine

/-! ## What no command writes -/

/-- The part of the state that is the host's: ARG, IN_LEN, IN_MEM, the capacities, BUSY and the host's own state
(10_state.md R21, R27, R29, R33; 20_memory.md R44). -/
def hostInputs (s : State) : Reg × Reg × Memory × Nat × Reg × Reg × Bool × List HostOp × Option Reg :=
  (s.arg, s.inLen, s.inMem, s.inDraw, s.inCap, s.outCap, s.busy, s.host, s.hostData)

theorem hostInputs_eq_iff {s t : State} : hostInputs t = hostInputs s ↔
    t.arg = s.arg ∧ t.inLen = s.inLen ∧ t.inMem = s.inMem ∧ t.inDraw = s.inDraw ∧ t.inCap = s.inCap ∧
      t.outCap = s.outCap ∧ t.busy = s.busy ∧ t.host = s.host ∧ t.hostData = s.hostData := by
  simp only [hostInputs, Prod.mk.injEq]

theorem commandView_hostInputs : CommandView hostInputs where
  reads _ := rfl
  stores _ _ := rfl
  writes _ _ _ := rfl
  counts _ _ := rfl
  finishes _ := rfl
  treeWrites _ := rfl
  treeReads _ _ := rfl
  treeBuilds _ _ := rfl
  clears _ := rfl
  loads _ _ _ := rfl
  results _ _ := rfl
  maps s t := by rw [deriveMaps_frame]; rfl
  errors _ _ := rfl

theorem writerView_hostInputs : WriterView hostInputs :=
  ⟨commandView_hostInputs.stores, commandView_hostInputs.writes⟩

/-- Settles O43: every update that a command makes leaves them as they are. -/
theorem commandsKeepTheHostsInputs : Obligations.CommandsKeepTheHostsInputs :=
  fun _ _ _ h => hostInputs_eq_iff.1 (commandView_hostInputs.exec h)

/-! ## Commands that may raise an error -/

/-- A command keeps the invariant if it does so when it succeeds: the entry of an error it raises keeps it anyway
(60_exceptions.md R110). -/
theorem Inv.runCmd {s t : State} {c : Cmd Unit} {i : Instr} (h : Inv s) (hk : Keeps hostInputs c)
    (hr : Raises (ownErrors i) c) (hok : ∀ u, c s = .ok () u → Inv u) (ht : runCmd c s = .next t) : Inv t := by
  rcases runCmd_cases ht with ht | ⟨e, u, he, rfl⟩
  · exact hok t ht
  · obtain ⟨-, -, him, -, hic, hoc, hb, -, -⟩ := hostInputs_eq_iff.1 (hk.error he)
    exact h.enters (ownErrors_codes (hr s e u he)).2.2 hb hic hoc him

theorem Inv.bld_ok {s u : State} (h : Inv s) (hp : s.phase = .idle) (hu : bld s = .ok () u) : Inv u := by
  by_cases hf : ∃ sym, freqOf s sym ≠ 0
  · obtain ⟨t, ht, -, hperm⟩ := Machine.bld_ok hf
    rw [ht] at hu; cases hu
    exact h.treeBuilt hp (hperm.nodup_iff.2 (presentSymbols_nodup s))
      fun sym => hperm.mem_iff.trans (mem_presentSymbols s sym)
  · push Not at hf
    rw [bld_empty hf] at hu; cases hu

theorem Inv.ser_ok {s u : State} {t : HuffTree} (h : Inv s) (hp : s.phase = .mapReady) (hd : s.dir = .compress)
    (ht : s.tree = some t) (hu : ser t s = .ok () u) : Inv u := by
  rcases Nat.lt_or_ge s.outCap.toNat ((streamLen s + treeBits t) / 8) with hfull | hfits
  · obtain ⟨v, hv, -⟩ := ser_full h.outLen hfull
    rw [hv] at hu; cases hu
  · obtain ⟨v, hv, hw⟩ := Machine.ser_ok h.outLen hfits
    rw [hv] at hu; cases hu
    exact h.treeWrites hp hd ht hw

/-- The count of ENC fits in N_BITS (44_encoder.md R99). -/
theorem Inv.payloadCount_lt {s : State} (h : Inv s) (hl : s.inLen ≤ s.inCap) : payloadCount s < 2 ^ 64 := by
  have hcap := h.inCap.2
  have hle : s.inLen.toNat ≤ s.inCap.toNat := BitVec.le_def.1 hl
  have hcount := payloadCount_le s
  omega

theorem Inv.encWrite_ok {s u : State} (h : Inv s) (hp : s.phase = .treeWritten) (hl : s.inLen ≤ s.inCap)
    (hu : encWrite (BitVec.ofNat 64 (payloadCount s)) (payloadBits s)
      (s.setNBits (BitVec.ofNat 64 (payloadCount s))) = .ok () u) : Inv u := by
  obtain ⟨-, ⟨t, -, hcodes, -⟩, -⟩ := h.treeWritten hp
  have hn : (payloadBits s).length = (BitVec.ofNat 64 (payloadCount s)).toNat := by
    rw [BitVec.toNat_ofNat, Nat.mod_eq_of_lt (h.payloadCount_lt hl), payloadCount_eq hcodes]
  rcases Nat.lt_or_ge s.outCap.toNat ((streamLen s + 64 + (payloadBits s).length + 7) / 8) with hfull | hfits
  · obtain ⟨v, hv, -⟩ := encWrite_full (s := s.setNBits (BitVec.ofNat 64 (payloadCount s))) h.outLen hfull
    rw [hv] at hu; cases hu
  · obtain ⟨v, hv, h0, hw⟩ := Machine.encWrite_ok (s := s.setNBits (BitVec.ofNat 64 (payloadCount s))) h.outLen hfits
    rw [hv] at hu; cases hu
    exact h.encWrites hp hn h0 hw

theorem Inv.enc_ok {s u : State} (h : Inv s) (hp : s.phase = .treeWritten) (hu : enc s = .ok () u) : Inv u := by
  rw [enc] at hu
  split at hu
  · cases hu
  next hl =>
  split at hu
  · cases hu
  split at hu
  · cases hu
  exact h.encWrite_ok hp (BitVec.not_lt.1 hl) hu

theorem Inv.dsr_ok {s u : State} (h : Inv s) (hp : s.phase = .idle) (hu : dsr s = .ok () u) : Inv u := by
  obtain ⟨-, -, -, -, hr, -⟩ := h.idle hp
  by_cases hc : s.inCap < s.inLen
  · rw [dsr_range hc] at hu; cases hu
  rw [BitVec.not_lt] at hc
  have hl := h.inLen_lt hc
  rcases dsr_cases hc hl hr with ⟨t, ht, hi, hn, -⟩ | ⟨p, hp, -⟩
  · rw [ht] at hu; cases hu
    exact h.treeRead hp hi (by omega)
  · rw [hp] at hu; cases hu

theorem Inv.dec_ok {s u : State} (h : Inv s) (hp : s.phase = .mapReady) (hd : s.dir = .decompress)
    (hu : dec s = .ok () u) : Inv u := by
  by_cases hc : s.inCap < s.inLen
  · rw [dec_range hc] at hu; cases hu
  rw [BitVec.not_lt] at hc
  have hl := h.inLen_lt hc
  rcases Nat.lt_or_ge (8 * s.inLen.toNat) (s.rpos.toNat + 64) with hshort | hlong
  · rw [dec_short hc hl hshort] at hu; cases hu
  obtain ⟨n, hn⟩ := exists_count s s.rpos.toNat
  rw [dec_count hc hl hlong hn, cmd_bind_eq_ok] at hu
  obtain ⟨_, v, hv, hu⟩ := hu
  cases hu
  have hr : ((s.readTo (s.rpos.toNat + 64)).setNBits n).rpos.toNat = s.rpos.toNat + 64 := rpos_lt_of_le hl hlong
  have hstored : Stored (s.setNBits n) ((s.readTo (s.rpos.toNat + 64)).setNBits n) [] :=
    (Stored.refl (s.setNBits n)).readTo _
  rcases decLoop_cases n.toNat [] ((s.readTo (s.rpos.toNat + 64)).setNBits n) hl (hr.trans_le hlong) h.outLen with
    ⟨w, hw, -, -, hS, hrpos, hfits⟩ | ⟨w, hw, -⟩ | ⟨w, hw, -⟩ | ⟨w, hw, -⟩
  · rw [hw] at hv; cases hv
    exact h.decStores hp hd (hstored.trans hS) (by rw [hrpos, hr]) hfits
  all_goals rw [hw] at hv; cases hv

/-! ## Every command -/

/-- A legal command keeps the invariant (30_encoding.md R69). -/
theorem Inv.body {i : Instr} {s t : State} (h : Inv s) (hl : legalTable i s.phase s.dir = true)
    (hb : body i s = .next t) : Inv t := by
  cases i with
  | clr => cases hb; exact h.clear
  | ldf sym => cases hb; exact h.setFreq (by simpa [legalTable] using hl) sym s.arg
  | rdl sym => cases hb; exact h.outside _ _ _ _ _ _ _ h.inMem
  | rdc sym w => cases hb; exact h.outside _ _ _ _ _ _ _ h.inMem
  | bld =>
    exact h.runCmd (keeps_bld commandView_hostInputs.treeBuilds) raises_bld
      (fun u => h.bld_ok (by simpa [legalTable] using hl)) hb
  | map =>
    simp only [Machine.body] at hb
    split at hb
    · cases hb
    next tr htr => cases hb; exact h.deriveMaps (by simpa [legalTable] using hl) htr
  | ser =>
    simp only [Machine.body] at hb
    split at hb
    · cases hb
    next tr htr =>
    obtain ⟨hp, hd⟩ : s.phase = .mapReady ∧ s.dir = .compress := by simpa [legalTable] using hl
    exact h.runCmd (keeps_ser writerView_hostInputs commandView_hostInputs.treeWrites tr) (raises_ser tr)
      (fun u => h.ser_ok hp hd htr) hb
  | enc =>
    exact h.runCmd
      (keeps_enc writerView_hostInputs commandView_hostInputs.counts commandView_hostInputs.finishes)
      raises_enc (fun u => h.enc_ok (by simpa [legalTable] using hl)) hb
  | dsr =>
    exact h.runCmd (keeps_dsr commandView_hostInputs.reads commandView_hostInputs.treeReads) raises_dsr
      (fun u => h.dsr_ok (by simpa [legalTable] using hl)) hb
  | dec =>
    obtain ⟨hp, hd⟩ : s.phase = .mapReady ∧ s.dir = .decompress := by simpa [legalTable] using hl
    exact h.runCmd
      (keeps_dec commandView_hostInputs.reads commandView_hostInputs.stores commandView_hostInputs.counts
        commandView_hostInputs.finishes) raises_dec (fun u => h.dec_ok hp hd) hb

theorem Inv.exec {i : Instr} {s t : State} (h : Inv s) (ht : exec i s = .next t) : Inv t := by
  rcases exec_cases ht with ⟨-, rfl⟩ | ⟨-, -, rfl⟩ | ⟨-, -, ⟨-, rfl⟩ | ⟨-, -, rfl⟩ | ⟨-, hl, hb⟩⟩
  · exact h.clear
  · exact h
  · exact h.errorEntry (by decide)
  · exact h.errorEntry (by decide)
  · exact h.body hl hb

/-- The write of any word to CMD keeps the invariant (30_encoding.md R70, R71). -/
theorem Inv.issue {w : Word} {s t : State} (h : Inv s) (ht : issue w s = .next t) : Inv t := by
  cases hw : decode w with
  | instr i => rw [issue_instr hw] at ht; exact h.exec ht
  | illegal r =>
    obtain ⟨hin, hout⟩ := issue_illegal hw s
    by_cases hp : s.phase = .error
    · rw [hin hp] at ht; cases ht; exact h
    · rw [hout hp] at ht; cases ht; exact h.errorEntry (by decide)

/-- Settles O48: what the host's action does to the state is a command word, the reset input, a byte of IN_MEM, or a
register the invariant does not look at. -/
theorem stepKeepsTheInvariant : Obligations.StepKeepsTheInvariant := by
  intro s t h ht
  rcases step_cases ht with ⟨-, rfl⟩ | ⟨op, rest, -, -, hact⟩
  · exact h
  have hrest : Inv { s with host := rest } := h.outside _ _ _ _ _ rest _ h.inMem
  rcases hact with ⟨-, rfl⟩ | ⟨v, -, hi⟩ | ⟨-, -, hreg | ⟨i, b, -, hi, rfl⟩⟩
  · exact hrest.reset
  · exact hrest.issue hi
  · rw [hreg]; exact h.outside _ _ _ _ _ rest _ h.inMem
  · exact h.outside _ _ _ _ _ rest _ (h.inWrite b hi)

end Sys2Proof.Machine

/-! # The frame of every command

One proof for any view of the state: a command keeps the view if each of the updates it makes keeps it. -/

namespace Sys2Proof.Machine

/-- Every update that the command `i` makes on its way keeps the view `f` of the state. A proof of it names only the updates
that would change the view, to say that `i` makes none of them; that any other keeps it holds by definition. -/
structure UpdatesKeep {β : Type} (i : Instr) (f : State → β) : Prop where
  reads : i = .dsr ∨ i = .dec → ∀ s, f s.stepReader = f s := by intros; rfl
  stores : i = .ser ∨ i = .enc ∨ i = .dec → ∀ s v, f (s.putOut v) = f s := by intros; rfl
  writes : i = .ser ∨ i = .enc → ∀ s b c, f (s.withWriter b c) = f s := by intros; rfl
  counts : i = .enc ∨ i = .dec → ∀ s n, f (s.setNBits n) = f s := by intros; rfl
  finishes : i = .enc ∨ i = .dec → ∀ s, f s.finished = f s := by intros; rfl
  treeWrites : i = .ser → ∀ s, f s.treeWritten = f s := by intros; rfl
  treeReads : i = .dsr → ∀ s t, f (s.treeRead t) = f s := by intros; rfl
  treeBuilds : i = .bld → ∀ s t, f (s.treeBuilt t) = f s := by intros; rfl
  loads : ∀ sym, i = .ldf sym → ∀ s v, f (s.setFreq sym v) = f s := by intros; rfl
  results : (∃ sym, i = .rdl sym) ∨ (∃ sym w, i = .rdc sym w) → ∀ s v, f (s.setResult v) = f s := by intros; rfl
  maps : i = .map → ∀ s t, f (deriveMaps t s) = f s := by intros; rw [deriveMaps_frame]

section UpdatesKeep
variable {β : Type} {f : State → β} {i : Instr} {s t : State}

/-- A command keeps a view up to its end; an error entry may be left out of account where the command ended in none. -/
theorem Keeps.runCmd_end {c : Cmd Unit} (hc : Keeps f c) (hend : t.phase ≠ .error ∨ ∀ e s, f (errorEntry e s) = f s)
    (h : Machine.runCmd c s = .next t) : f t = f s := by
  rcases runCmd_cases h with h | ⟨e, u, he, rfl⟩
  · exact hc.ok h
  · rcases hend with hne | herr
    · exact absurd rfl hne
    · exact (herr e u).trans (hc.error he)

theorem UpdatesKeep.body (hf : UpdatesKeep i f) (hi : i ≠ .clr)
    (hend : t.phase ≠ .error ∨ ∀ e s, f (errorEntry e s) = f s) (hb : body i s = .next t) : f t = f s := by
  cases i with
  | clr => exact absurd rfl hi
  | ldf sym => cases hb; exact hf.loads sym rfl s s.arg
  | rdl sym => cases hb; exact hf.results (.inl ⟨sym, rfl⟩) s _
  | rdc sym w => cases hb; exact hf.results (.inr ⟨sym, w, rfl⟩) s _
  | bld => exact (keeps_bld (hf.treeBuilds rfl)).runCmd_end hend hb
  | enc =>
    exact (keeps_enc ⟨hf.stores (.inr (.inl rfl)), hf.writes (.inr rfl)⟩ (hf.counts (.inl rfl))
      (hf.finishes (.inl rfl))).runCmd_end hend hb
  | dsr => exact (keeps_dsr (hf.reads (.inl rfl)) (hf.treeReads rfl)).runCmd_end hend hb
  | dec =>
    exact (keeps_dec (hf.reads (.inr rfl)) (hf.stores (.inr (.inr rfl))) (hf.counts (.inr rfl))
      (hf.finishes (.inr rfl))).runCmd_end hend hb
  | map =>
    simp only [Machine.body] at hb
    split at hb
    · cases hb
    · cases hb; exact hf.maps rfl s _
  | ser =>
    simp only [Machine.body] at hb
    split at hb
    · cases hb
    · exact (keeps_ser ⟨hf.stores (.inl rfl), hf.writes (.inl rfl)⟩ (hf.treeWrites rfl) _).runCmd_end hend hb

/-- A view that the command's updates keep is kept by the command, however Dispatch answers it (30_encoding.md R70). -/
theorem UpdatesKeep.exec (hf : UpdatesKeep i f) (hi : i ≠ .clr)
    (hend : t.phase ≠ .error ∨ ∀ e s, f (errorEntry e s) = f s) (h : exec i s = .next t) : f t = f s := by
  rcases exec_cases h with ⟨hclr, -⟩ | ⟨-, -, rfl⟩ | ⟨-, -, ⟨-, rfl⟩ | ⟨-, -, rfl⟩ | ⟨-, -, hb⟩⟩
  · exact absurd hclr hi
  · rfl
  · exact hend.elim (absurd rfl) fun herr => herr _ _
  · exact hend.elim (absurd rfl) fun herr => herr _ _
  · exact hf.body hi hend hb

end UpdatesKeep

/-! ## The writers of each register -/

section Writers
variable {i : Instr} {s t : State} (h : exec i s = .next t) (hi : i ≠ .clr)
include h hi

theorem exec_freq (hldf : ∀ sym, i ≠ .ldf sym) : t.freq = s.freq :=
  UpdatesKeep.exec (f := State.freq) { loads := fun sym he => absurd he (hldf sym) } hi (.inr fun _ _ => rfl) h

theorem exec_result (hrdl : ∀ sym, i ≠ .rdl sym) (hrdc : ∀ sym w, i ≠ .rdc sym w) : t.result = s.result :=
  UpdatesKeep.exec (f := State.result)
    { results := fun he => he.elim (fun ⟨sym, he⟩ => absurd he (hrdl sym)) fun ⟨sym, w, he⟩ => absurd he (hrdc sym w) }
    hi (.inr fun _ _ => rfl) h

theorem exec_nBits (henc : i ≠ .enc) (hdec : i ≠ .dec) : t.nBits = s.nBits :=
  UpdatesKeep.exec (f := State.nBits) { counts := fun he => he.elim (absurd · henc) (absurd · hdec) } hi
    (.inr fun _ _ => rfl) h

theorem exec_rpos (hdsr : i ≠ .dsr) (hdec : i ≠ .dec) : t.rpos = s.rpos :=
  UpdatesKeep.exec (f := State.rpos) { reads := fun he => he.elim (absurd · hdsr) (absurd · hdec) } hi
    (.inr fun _ _ => rfl) h

theorem exec_dir (hbld : i ≠ .bld) (hdsr : i ≠ .dsr) : t.dir = s.dir :=
  UpdatesKeep.exec (f := State.dir) { treeBuilds := (absurd · hbld), treeReads := (absurd · hdsr) } hi
    (.inr fun _ _ => rfl) h

/-! What an error makes undefined (60_exceptions.md R110) is kept by the commands that do not end in one. -/

variable (hp : t.phase ≠ .error)
include hp

theorem exec_tree (hbld : i ≠ .bld) (hdsr : i ≠ .dsr) : t.tree = s.tree :=
  UpdatesKeep.exec (f := State.tree) { treeBuilds := (absurd · hbld), treeReads := (absurd · hdsr) } hi (.inl hp) h

theorem exec_codes (hmap : i ≠ .map) : t.code = s.code ∧ t.codeLen = s.codeLen ∧ t.dmap = s.dmap := by
  have hkept := UpdatesKeep.exec (f := fun u => (u.code, u.codeLen, u.dmap)) { maps := (absurd · hmap) } hi (.inl hp) h
  simpa only [Prod.mk.injEq] using hkept

theorem exec_writer (hser : i ≠ .ser) (henc : i ≠ .enc) : t.wbuf = s.wbuf ∧ t.wcnt = s.wcnt := by
  have hkept := UpdatesKeep.exec (f := fun u => (u.wbuf, u.wcnt))
    { writes := fun he => he.elim (absurd · hser) (absurd · henc) } hi (.inl hp) h
  simpa only [Prod.mk.injEq] using hkept

theorem exec_output (hser : i ≠ .ser) (henc : i ≠ .enc) (hdec : i ≠ .dec) :
    t.outLen = s.outLen ∧ t.outMem = s.outMem ∧ t.outDraw = s.outDraw := by
  have hkept := UpdatesKeep.exec (f := fun u => (u.outLen, u.outMem, u.outDraw))
    { stores := fun he => he.elim (absurd · hser) fun he => he.elim (absurd · henc) (absurd · hdec) } hi (.inl hp) h
  simpa only [Prod.mk.injEq] using hkept

end Writers

/-- Settles O44: no other command makes an update that changes the register. -/
theorem eachRegisterHasItsWriters : Obligations.EachRegisterHasItsWriters := fun _ _ _ h hi =>
  ⟨exec_freq h hi, exec_result h hi, exec_nBits h hi, exec_rpos h hi, exec_dir h hi, fun hp =>
    ⟨exec_tree h hi hp, exec_codes h hi hp, exec_writer h hi hp, exec_output h hi hp⟩⟩

end Sys2Proof.Machine

/-! # The host's view of the state: STATUS, register accesses and the reset values -/

namespace Sys2Proof.Machine

/-! ## STATUS -/

theorem dirBit_getElem_zero (d : Direction) : (dirBit d)[0] = decide (d = .decompress) := by cases d <;> rfl

/-- STATUS bit by bit (10_state.md R26): its bits 0 to 12 one at a time, and above them no field reaches. -/
theorem statusWord_getLsbD (s : State) (k : Nat) : (statusWord s).getLsbD k =
    (if k = 0 then s.busy
     else if k = 1 then decide (s.phase = .error)
     else if 4 ≤ k ∧ k < 8 then (ecodeBits s.ecode).getLsbD (k - 4)
     else if 8 ≤ k ∧ k < 11 then (phaseBits s.phase).getLsbD (k - 8)
     else if k = 12 then decide (s.dir = .decompress)
     else false) := by
  simp only [statusWord, errFlag, BitVec.getLsbD_or, BitVec.getLsbD_shiftLeft, BitVec.getLsbD_setWidth,
    BitVec.getLsbD_ofBool]
  rcases Nat.lt_or_ge k 13 with hk | hk
  · interval_cases k <;> simp [BitVec.getLsbD_of_ge, dirBit_getElem_zero]
  · simp (disch := omega) only [decide_eq_false, if_neg, BitVec.getLsbD_of_ge, Bool.and_false, Bool.false_and,
      Bool.or_false]

/-- STATUS in a fresh session (10_state.md R26, its first example). -/
theorem statusWord_fresh {s : State} (hb : s.busy = false) (he : s.ecode = .none) (hp : s.phase = .idle)
    (hd : s.dir = .compress) : statusWord s = 0 := by
  simp only [statusWord, errFlag, hb, he, hp, hd]
  decide

/-- Settles O50: the number of each field is read off the table, and the examples are computed. -/
theorem statusShowsItsFields : Obligations.StatusShowsItsFields := by
  refine ⟨statusWord_getLsbD, fun s v h => ?_, fun s v h => ?_, fun s v h => ?_, fun _ => statusWord_fresh,
    ?_, ?_, ?_⟩
  · rw [statusWord_phase]; exact (by decide : ∀ row ∈ _, phaseBits row.1 = row.2) _ h
  · rw [statusWord_ecode]; exact (by decide : ∀ row ∈ _, ecodeBits row.1 = row.2) _ h
  · rw [statusWord_dir]; exact (by decide : ∀ row ∈ _, dirBit row.1 = row.2) _ h
  all_goals
    intro s hb he hp hd
    simp only [statusWord, errFlag, hb, he, hp, hd]
    decide

/-! ## Register accesses -/

/-- Settles O6: the write to CMD is Dispatch (30_encoding.md R70), and `withFetchWord` puts it at the head. -/
theorem stepRunsDecodedCommand : Obligations.StepRunsDecodedCommand := by
  refine ⟨fun w i s rest hb hh hw => ?_, fun w i s hw => ?_⟩
  · rw [step_cmd hb hh, issue_instr hw]
  · have hword : BitVec.ofNat 32 (w.toNat % 2 ^ 32) = w := by
      rw [Nat.mod_eq_of_lt w.isLt, BitVec.ofNat_toNat, BitVec.setWidth_eq]
    have hhost : (s.withFetchWord 32 w.toNat).host = cmdWrite w :: s.host := by rw [State.withFetchWord, hword]
    rw [step_cmd rfl hhost, issue_instr hw]
    rfl

/-- What a read at an offset of REG returns: 0 where no register is (10_state.md R24). -/
def readAt (s : State) (off : BitVec 8) : Reg := (registerAt off).elim 0 (registerValue s)

theorem registerValue_host (s : State) (rest : List HostOp) (r : Register) :
    registerValue { s with host := rest } r = registerValue s r := by cases r <;> rfl

theorem brokenDuty_regRead {off : BitVec 8} {width : Width} {s : State}
    (hb : s.busy = false ∨ allowedWhileBusy (.regRead off width) = true) :
    brokenDuty (.regRead off width) s = registerDuty off width := by
  rcases hb with hb | hb <;> simp [brokenDuty, hb]

/-- A read of REG that breaks no duty (20_memory.md R57). -/
theorem step_regRead {s : State} {rest : List HostOp} {off : BitVec 8} {width : Width}
    (hh : s.host = .regRead off width :: rest)
    (hb : s.busy = false ∨ allowedWhileBusy (.regRead off width) = true) (hd : registerDuty off width = none) :
    step s = .next { s with host := rest, hostData := some (readAt s off) } := by
  rw [step_host hh, hostStep, brokenDuty_regRead (s := { s with host := rest }) hb, hd]
  simp only [hostAct, readAt]
  cases registerAt off with
  | none => rfl
  | some r => simp only [registerValue_host, hostRead, Option.elim_some]

/-- A write of REG that breaks no duty (20_memory.md R57); where no register is, it is ignored (10_state.md R24). -/
theorem step_regWrite {s : State} {rest : List HostOp} {off : BitVec 8} {width : Width} {v : Reg}
    (hb : s.busy = false) (hh : s.host = .regWrite off width v :: rest) (hd : registerDuty off width = none) :
    step s = (registerAt off).elim (.next { s with host := rest }) fun r => registerWrite r v { s with host := rest } := by
  have hduty : brokenDuty (.regWrite off width v) { s with host := rest } = none := by simpa [brokenDuty, hb] using hd
  rw [step_host hh, hostStep, hduty]
  simp only [hostAct]
  cases registerAt off <;> rfl

theorem registerAt_unused {off : BitVec 8} (h : 0x50 ≤ off.toNat) : registerAt off = none := by
  rw [registerAt]
  split <;> simp_all

theorem registerDuty_unused {off : BitVec 8} {width : Width} (h : 0x50 ≤ off.toNat) (h8 : off.toNat % 8 = 0)
    (hw : width = .w32 ∨ width = .w64) : registerDuty off width = none := by
  simp [registerDuty, registerAt_unused h, h8, hw]

/-- Settles O51: the offsets of the table, or one that holds no register, break no duty. -/
theorem registerReads : Obligations.RegisterReads := by
  refine ⟨fun s rest off width v hb hh h => ?_, fun s rest hh => step_regRead hh (.inr rfl) rfl⟩
  obtain ⟨hd, hv⟩ : registerDuty off width = none ∧ readAt s off = v := by
    rcases h with h | ⟨h50, h8, hw, rfl⟩
    · simp only [List.mem_cons, Prod.mk.injEq, List.not_mem_nil, or_false] at h
      rcases h with ⟨rfl, rfl, rfl⟩ | ⟨rfl, rfl, rfl⟩ | ⟨rfl, rfl, rfl⟩ | ⟨rfl, rfl, rfl⟩ | ⟨rfl, rfl, rfl⟩ |
        ⟨rfl, rfl, rfl⟩ | ⟨rfl, rfl, rfl⟩ | ⟨rfl, rfl, rfl⟩ | ⟨rfl, rfl, rfl⟩ | ⟨rfl, rfl, rfl⟩ <;>
        exact ⟨rfl, rfl⟩
    · exact ⟨registerDuty_unused h50 h8 hw, by rw [readAt, registerAt_unused h50]; rfl⟩
  rw [step_regRead hh (.inl hb) hd, hv]

/-- Settles O52: the register at the offset, or none, decides what the write does. -/
theorem registerWrites : Obligations.RegisterWrites := by
  intro s rest v hb
  refine ⟨fun hh => step_regWrite hb hh rfl, fun hh => step_regWrite hb hh rfl, fun hh => step_regWrite hb hh rfl,
    fun off hoff hh => ?_, fun off width h50 h8 hw hh => ?_⟩
  · simp only [List.mem_cons, List.not_mem_nil, or_false] at hoff
    rcases hoff with rfl | rfl | rfl | rfl | rfl | rfl <;> exact step_regWrite hb hh rfl
  · rw [step_regWrite hb hh (registerDuty_unused h50 h8 hw), registerAt_unused h50]
    rfl

/-! ## The reset values -/

/-- A capacity held as the parameter less one is in the range of 00_scope.md R8. -/
theorem capacity_range (v : BitVec 56) : 1 ≤ (v.setWidth 64 + 1).toNat ∧ (v.setWidth 64 + 1).toNat ≤ 2 ^ 56 := by
  have hv := v.isLt
  have hsum : (v.setWidth 64 + 1).toNat = v.toNat + 1 := by
    rw [BitVec.toNat_add, BitVec.toNat_setWidth, show BitVec.toNat (1 : BitVec 64) = 1 from rfl]
    omega
  omega

/-- Settles O47: the reset state is a fresh session with empty buffers. -/
theorem resetMeetsTheInvariant : Obligations.ResetMeetsTheInvariant where
  busy := rfl
  inCap := capacity_range Config.inCapMinusOne
  outCap := capacity_range Config.outCapMinusOne
  inMem := ⟨List.Pairwise.nil, by simp [State.reset]⟩
  outMem := ⟨List.Pairwise.nil, by simp [State.reset]⟩
  outLen := Nat.zero_le _
  ecode := by simp [State.reset]
  session := ⟨rfl, ⟨rfl, fun sym => by simp [codeOf, codeLenOf, State.reset]⟩, ⟨rfl, rfl, rfl⟩, rfl, rfl⟩

/-- The reset input breaks no duty, BUSY = 1 included (70_reset_and_hazards.md R122). -/
theorem step_reset {s : State} {rest : List HostOp} (hh : s.host = .reset :: rest) :
    step s = .next (hostReset { s with host := rest }) := by
  rw [step_host hh]
  simp [hostStep, brokenDuty, allowedWhileBusy, hostAct]

/-- The reset state and a state after the reset input differ in the capacities, the draws and the host alone. -/
theorem eq_reset_of_reset {t : State}
    (h : t = State.reset ∨ ∃ (s : State) (rest : List HostOp), s.host = .reset :: rest ∧ step s = .next t) :
    t = { State.reset with
      inCap := t.inCap, outCap := t.outCap, inDraw := t.inDraw, outDraw := t.outDraw, host := t.host,
      hostData := t.hostData } := by
  rcases h with rfl | ⟨s, rest, hh, ht⟩
  · rfl
  · rw [step_reset hh] at ht; cases ht; rfl

/-- Settles O54: every field but those that `eq_reset_of_reset` leaves open is the one of `State.reset`. -/
theorem resetGivesTheResetState : Obligations.ResetGivesTheResetState := by
  refine ⟨⟨rfl, rfl⟩, fun t h => ?_⟩
  rw [eq_reset_of_reset h]
  exact ⟨rfl, rfl, rfl, rfl, statusWord_fresh rfl rfl rfl rfl, rfl, rfl, rfl, rfl, rfl, rfl, regGet_replicate 0, rfl,
    fun sym => ⟨regGet_replicate 0 sym, regGet_replicate [] sym⟩, rfl, rfl, rfl⟩

end Sys2Proof.Machine

/-! # The bit streams and the buffers -/

namespace Sys2Proof.Machine

/-! ## The bit writer and the bit reader -/

/-- Settles O39: each of the three writes appends its bits when the stream they make fits, and overflows otherwise. -/
theorem writerAppendsToTheStream : Obligations.WriterAppendsToTheStream := by
  intro s hs
  refine ⟨fun b h => ?_, fun b h => ?_, fun n v h => ?_, fun n v h => ?_, fun h => ?_, fun h => ?_⟩
  · obtain ⟨t, ht, hw⟩ := writeBit_ok b hs h
    exact ⟨t, ht, hw.stream, hw.others⟩
  · obtain ⟨t, ht, hf⟩ := writeBit_full b hs h
    exact ⟨t, ht, hf.others⟩
  · obtain ⟨t, ht, hw⟩ := writeString_ok (bs := msbFirst v) hs (by rwa [msbFirst_length])
    exact ⟨t, ht, hw.stream, hw.others⟩
  · obtain ⟨t, ht, hf⟩ := writeString_full (bs := msbFirst v) hs (by rwa [msbFirst_length])
    exact ⟨t, ht, hf.others⟩
  · obtain ⟨t, ht, hw, hcnt⟩ := flush_ok hs h
    exact ⟨t, ht, hw.stream, hcnt, hw.others⟩
  · obtain ⟨t, ht, hf⟩ := flush_full hs h
    exact ⟨t, ht, hf.others⟩

/-- Settles O40: ReadBit at the end of the input and before it, ReadBits with all its bits in the input and not. -/
theorem readerReadsTheStream : Obligations.ReaderReadsTheStream := by
  intro s e
  refine ⟨readBit_end, readBit_ok, fun n v hl hn hv => ?_, fun _ => readBits_end⟩
  rw [readBits_ok hl hn, ofNat_bitsInto_inStream hv]
  rfl

/-! ## The memory frame of every command -/

/-- What StoreByte alone can have done to the output between the states `s` and `t`: OUT_LEN has grown within OUT_CAP, and
no byte outside the stores has changed (20_memory.md R45, R50). -/
structure OutputFrame (s t : State) : Prop where
  grows : s.outLen.toNat ≤ t.outLen.toNat
  fits : t.outLen.toNat ≤ t.outCap.toNat
  outside : ∀ a, a < s.outLen.toNat ∨ t.outLen.toNat ≤ a → outByte t a = outByte s a

/-- The command, when it succeeds, does no more to the output than StoreByte can. -/
def StoresOnly {α : Type} (c : Cmd α) : Prop :=
  ∀ s a t, s.outLen.toNat ≤ s.outCap.toNat → c s = .ok a t → OutputFrame s t

/-- All that a read of OUT_MEM depends on, with OUT_LEN and OUT_CAP. -/
def outputView (s : State) : Memory × Nat × Reg × Reg := (s.outMem, s.outDraw, s.outLen, s.outCap)

theorem outByte_congr {s t : State} (hm : t.outMem = s.outMem) (hd : t.outDraw = s.outDraw) (a : Nat) :
    outByte t a = outByte s a := by
  rw [outByte, outByte, hm, hd]

theorem OutputFrame.of_outputView {s t : State} (hs : s.outLen.toNat ≤ s.outCap.toNat)
    (h : outputView t = outputView s) : OutputFrame s t := by
  simp only [outputView, Prod.mk.injEq] at h
  obtain ⟨hm, hd, hlen, hcap⟩ := h
  exact ⟨by rw [hlen], by rwa [hlen, hcap], fun a _ => outByte_congr hm hd a⟩

theorem OutputFrame.trans {s t u : State} (h : OutputFrame s t) (k : OutputFrame t u) : OutputFrame s u where
  grows := h.grows.trans k.grows
  fits := k.fits
  outside a ha := by
    have h1 := h.grows
    have h2 := k.grows
    rw [k.outside a (by omega), h.outside a (by omega)]

theorem WriteFrame.outputFrame {s t : State} (h : WriteFrame s t) (hs : s.outLen.toNat ≤ s.outCap.toNat) :
    OutputFrame s t :=
  ⟨h.grows, by rw [h.outCap]; exact h.fits hs, h.outside⟩

section StoresOnly
variable {α β : Type}

theorem StoresOnly.of_keeps {c : Cmd α} (hc : Keeps outputView c) : StoresOnly c :=
  fun _ _ _ hs h => .of_outputView hs (hc.ok h)

theorem StoresOnly.bind {c : Cmd α} {k : α → Cmd β} (hc : StoresOnly c) (hk : ∀ a, StoresOnly (k a)) :
    StoresOnly (c >>= k) := by
  intro s b u hs h
  obtain ⟨a, t, ht, hu⟩ := cmd_bind_eq_ok.1 h
  have hst := hc s a t hs ht
  exact hst.trans (hk a t b u hst.fits hu)

theorem storesOnly_storeByte (v : Byte) : StoresOnly (storeByte v) := by
  intro s a t hs h
  by_cases hfull : s.outLen = s.outCap
  · rw [storeByte_full v hfull] at h; cases h
  · have hlt : s.outLen.toNat < s.outCap.toNat := lt_of_le_of_ne hs fun e => hfull (BitVec.eq_of_toNat_eq e)
    obtain ⟨hok, hstored⟩ := storeByte_stored v hlt
    rw [hok] at h; cases h
    have hlen := hstored.outLen
    simp only [List.length_singleton] at hlen
    exact ⟨by omega, by rw [hstored.outCap]; omega, hstored.outside⟩

theorem storesOnly_writeString (bs : BitString) : StoresOnly (writeString bs) := by
  intro s a t hs h
  rcases Nat.lt_or_ge s.outCap.toNat ((streamLen s + bs.length) / 8) with hfull | hfits
  · obtain ⟨u, hu, -⟩ := writeString_full hs hfull
    rw [hu] at h; cases h
  · obtain ⟨u, hu, hw⟩ := writeString_ok hs hfits
    rw [hu] at h; cases h
    exact hw.outputFrame hs

theorem storesOnly_flush : StoresOnly flush := by
  intro s a t hs h
  rcases Nat.lt_or_ge s.outCap.toNat ((streamLen s + (padBits (streamLen s)).length) / 8) with hfull | hfits
  · obtain ⟨u, hu, -⟩ := flush_full hs hfull
    rw [hu] at h; cases h
  · obtain ⟨u, hu, hw, -⟩ := flush_ok hs hfits
    rw [hu] at h; cases h
    exact hw.outputFrame hs

theorem storesOnly_ser (t : HuffTree) : StoresOnly (ser t) := by
  rw [ser, serNode_eq]
  exact (storesOnly_writeString _).bind fun _ => .of_keeps (Keeps.modify fun _ => rfl)

theorem storesOnly_encWrite (n : Reg) (payload : BitString) : StoresOnly (encWrite n payload) :=
  (storesOnly_writeString _).bind fun _ => (storesOnly_writeString _).bind fun _ => storesOnly_flush.bind fun _ =>
    .of_keeps (Keeps.modify fun _ => rfl)

theorem storesOnly_enc : StoresOnly enc := by
  intro s a t hs h
  rw [enc] at h
  split at h
  · cases h
  split at h
  · cases h
  split at h
  · cases h
  have hcount : OutputFrame s (s.setNBits (BitVec.ofNat 64 (payloadCount s))) := .of_outputView hs rfl
  exact hcount.trans (storesOnly_encWrite _ _ _ a t hs h)

theorem storesOnly_decLoop (n : Nat) (cand : BitString) : StoresOnly (decLoop n cand) := by
  induction n generalizing cand with
  | zero =>
    rw [decLoop]
    split
    · exact .of_keeps (Keeps.pure ())
    · exact .of_keeps (Keeps.throw _)
  | succ n ih =>
    rw [decLoop]
    refine .bind (.of_keeps (keeps_readBit (fun _ => rfl) _)) fun b => .bind (.of_keeps Keeps.get) fun s => ?_
    split
    · exact (storesOnly_storeByte _).bind fun _ => ih _
    · exact ih _

theorem storesOnly_dec : StoresOnly dec := by
  intro s a t hs h
  rw [dec] at h
  split at h
  · cases h
  have hstream : StoresOnly decStream :=
    .bind (.of_keeps (keeps_readBits (fun _ => rfl) _ _)) fun n => .bind (.of_keeps (Keeps.modify fun _ => rfl)) fun _ =>
      (storesOnly_decLoop _ _).bind fun _ => .of_keeps (Keeps.modify fun _ => rfl)
  exact hstream s a t hs h

theorem StoresOnly.runCmd {c : Cmd Unit} {s t : State} (hc : StoresOnly c) (hs : s.outLen.toNat ≤ s.outCap.toNat)
    (hp : t.phase ≠ .error) (h : Machine.runCmd c s = .next t) : OutputFrame s t := by
  rcases runCmd_cases h with h | ⟨e, u, -, rfl⟩
  · exact hc s () t hs h
  · exact absurd rfl hp

end StoresOnly

/-- SER, ENC and DEC, the commands that store bytes, store from OUT_LEN on (20_memory.md R50). -/
theorem exec_outputFrame {i : Instr} {s t : State} (hi : i = .ser ∨ i = .enc ∨ i = .dec)
    (hs : s.outLen.toNat ≤ s.outCap.toNat) (h : exec i s = .next t) (hp : t.phase ≠ .error) : OutputFrame s t := by
  rcases exec_cases h with ⟨rfl, -⟩ | ⟨-, -, rfl⟩ | ⟨-, -, ⟨-, rfl⟩ | ⟨-, -, rfl⟩ | ⟨-, -, hb⟩⟩
  · simp at hi
  · exact .of_outputView hs rfl
  · exact absurd rfl hp
  · exact absurd rfl hp
  rcases hi with rfl | rfl | rfl
  · simp only [body] at hb
    split at hb
    · cases hb
    · exact (storesOnly_ser _).runCmd hs hp hb
  · exact storesOnly_enc.runCmd hs hp hb
  · exact storesOnly_dec.runCmd hs hp hb

/-- The commands that store nothing leave OUT_MEM as it is, CLR included (40_control.md R76; 20_memory.md R45). -/
theorem exec_outByte {i : Instr} {s t : State} (h : exec i s = .next t) (hp : t.phase ≠ .error) (hser : i ≠ .ser)
    (henc : i ≠ .enc) (hdec : i ≠ .dec) (a : Nat) : outByte t a = outByte s a := by
  by_cases hclr : i = .clr
  · subst hclr; cases h; rfl
  · obtain ⟨-, hm, hd⟩ := exec_output h hclr hp hser henc hdec
    exact outByte_congr hm hd a

/-- Settles O45: SER, ENC and DEC store from OUT_LEN on, the other commands nowhere. -/
theorem storesStayInTheStream : Obligations.StoresStayInTheStream := by
  intro i s t hinv h hp
  refine ⟨fun a hser henc hdec => exec_outByte h hp hser henc hdec a, fun a _ ha => ?_⟩
  by_cases hi : i = .ser ∨ i = .enc ∨ i = .dec
  · exact (exec_outputFrame hi hinv.outLen h hp).outside a ha
  · simp only [not_or] at hi
    obtain ⟨hser, henc, hdec⟩ := hi
    exact exec_outByte h hp hser henc hdec a

/-! ## Host accesses to IN and OUT -/

/-- A host action that breaks no duty is served (20_memory.md R57; 70_reset_and_hazards.md R125). -/
theorem step_served {s : State} {op : HostOp} {rest : List HostOp} (hh : s.host = op :: rest)
    (hd : brokenDuty op { s with host := rest } = none) : step s = hostAct op { s with host := rest } := by
  rw [step_host hh, hostStep, hd]

/-- The bytes of IN_MEM after a write of one (20_memory.md R44). -/
theorem inByte_memWrite (s : State) (a : Nat) (b : Byte) (j : Nat) :
    inByte { s with inMem := memWrite s.inMem a b } j = if j = a then b else inByte s j := by
  by_cases h : j = a
  · simp [inByte, h]
  · simp [inByte, memRead_memWrite_ne _ (Ne.symm h), h]

/-- Settles O53: below the capacities the four accesses break no duty. -/
theorem bufferAccess : Obligations.BufferAccess := by
  intro s rest a b hb
  refine ⟨fun hh ha => ⟨_, step_served hh ?_, rfl, inByte_memWrite { s with host := rest } a b⟩,
    fun hh ha => step_served hh ?_, fun hh ha => step_served hh ?_, fun hh ha => step_served hh ?_⟩
  all_goals simp [brokenDuty, hb, ha]

end Sys2Proof.Machine

/-! # The encoding and the dispatch of a command word

A word and its four fields determine each other (30_encoding.md R65), so a word decodes to a command exactly when it is that
command's encoding; the masks of R68, the reserved words of R71 and Dispatch (R70) follow from that. -/

namespace Sys2Proof

/-! ## The words of the commands -/

/-- A word is an assembled one exactly when its fields are those (30_encoding.md R65). -/
theorem eq_assemble_iff {w : Word} {opc sym sel : BitVec 8} : w = assemble opc sym sel ↔
    opcField w = opc ∧ symField w = sym ∧ selField w = sel ∧ rsvField w = 0 := by
  constructor
  · rintro rfl; exact Laws.RoundTrip.assemble_fields opc sym sel
  · rintro ⟨rfl, rfl, rfl, hr⟩; apply word_ext <;> simp [Laws.RoundTrip.assemble_fields, hr]

theorem decode_encode {i : Instr} (hw : i.wellFormed = true) : decode (encode i) = .instr i := by
  cases i with
  | clr => exact Laws.RoundTrip.clr hw
  | ldf sym => exact Laws.RoundTrip.ldf sym hw
  | bld => exact Laws.RoundTrip.bld hw
  | map => exact Laws.RoundTrip.map hw
  | ser => exact Laws.RoundTrip.ser hw
  | enc => exact Laws.RoundTrip.enc hw
  | dsr => exact Laws.RoundTrip.dsr hw
  | dec => exact Laws.RoundTrip.dec hw
  | rdl sym => exact Laws.RoundTrip.rdl sym hw
  | rdc sym w => exact Laws.RoundTrip.rdc sym w hw

/-- Settles O1: one lemma per command says it. -/
theorem decodeEncodeRoundTrip : Obligations.DecodeEncodeRoundTrip := fun _ => decode_encode

theorem eq_encode_of_decode {w : Word} {i : Instr} (h : decode w = .instr i) :
    i.wellFormed = true ∧ w = encode i := by
  rcases decode_opcode.1 h with ⟨hr, ⟨ho, hy, hl, rfl⟩ | ⟨ho, hl, rfl⟩ | ⟨ho, hy, hl, rfl⟩ | ⟨ho, hy, hl, rfl⟩ |
    ⟨ho, hy, hl, rfl⟩ | ⟨ho, hy, hl, rfl⟩ | ⟨ho, hy, hl, rfl⟩ | ⟨ho, hy, hl, rfl⟩ | ⟨ho, hl, rfl⟩ | ⟨ho, hl, rfl⟩⟩
  on_goal 10 => exact ⟨decide_eq_true hl, eq_assemble_iff.2 ⟨ho, rfl, rfl, hr⟩⟩
  all_goals exact ⟨rfl, eq_assemble_iff.2 (by simp only [*, and_self])⟩

/-- Settles O2: the four fields that the decoder looked at are the whole word. -/
theorem encodeDecodeRoundTrip : Obligations.EncodeDecodeRoundTrip := fun _ _ h =>
  ⟨(eq_encode_of_decode h).1, (eq_encode_of_decode h).2.symm⟩

/-- The decoder answers a command on its encoding alone (30_encoding.md R68). -/
theorem decode_eq_instr_iff {w : Word} {i : Instr} : decode w = .instr i ↔ i.wellFormed = true ∧ w = encode i :=
  ⟨eq_encode_of_decode, by rintro ⟨hw, rfl⟩; exact decode_encode hw⟩

/-- Settles O4: the decoder computes each word. -/
theorem commandWordsOfTheSpec : Obligations.CommandWordsOfTheSpec := by
  unfold Obligations.CommandWordsOfTheSpec
  decide

/-! ## The rows of 30_encoding.md R68 -/

/-- The row of a command without operands. -/
theorem decode_plain_row {i : Instr} (hw : i.wellFormed = true) (w : Word) :
    decode w = .instr i ↔ w &&& 0xFFFFFFFF#32 = encode i := by
  rw [decode_eq_instr_iff, mask_plain, and_iff_right hw]

/-- The row of a command whose word has the symbol operand free. -/
theorem decode_sym_row {f : Symbol → Instr} {opc : BitVec 8} (hf : ∀ sym, (f sym).wellFormed = true)
    (he : ∀ sym, encode (f sym) = assemble opc sym 0) (w : Word) (sym : Symbol) :
    decode w = .instr (f sym) ↔ w &&& 0xFFFF00FF#32 = assemble opc 0 0 ∧ sym = symField w := by
  rw [decode_eq_instr_iff, he, hf, eq_assemble_iff, mask_sym w _ (by simp [Laws.RoundTrip.assemble_fields]),
    eq_comm (a := sym)]
  simp only [Laws.RoundTrip.assemble_fields, true_and]
  tauto

theorem decode_ldf_row (w : Word) (sym : Symbol) :
    decode w = .instr (.ldf sym) ↔ w &&& 0xFFFF00FF#32 = 0x00000002#32 ∧ sym = symField w :=
  decode_sym_row (opc := 0x02) (fun _ => rfl) (fun _ => rfl) w sym

theorem decode_rdl_row (w : Word) (sym : Symbol) :
    decode w = .instr (.rdl sym) ↔ w &&& 0xFFFF00FF#32 = 0x00000009#32 ∧ sym = symField w :=
  decode_sym_row (opc := 0x09) (fun _ => rfl) (fun _ => rfl) w sym

/-- A selector of at most 3 is held in the two bits that RDC's mask leaves free. -/
theorem selField_of_le {w : Word} (h : selField w ≤ 3) : (w.extractLsb' 16 2).setWidth 8 = selField w := by
  have hlt : (selField w).toNat ≤ 3 := BitVec.le_def.1 h
  apply BitVec.eq_of_toNat_eq
  simp only [selField, BitVec.extractLsb'_toNat, BitVec.toNat_setWidth] at hlt ⊢
  omega

/-- The row of RDC. -/
theorem decode_rdc_row (w : Word) (sym : Symbol) (k : BitVec 8) : decode w = .instr (.rdc sym k) ↔
    w &&& 0xFFFC00FF#32 = 0x0000000A#32 ∧ sym = symField w ∧ k = (w.extractLsb' 16 2).setWidth 8 := by
  rw [decode_eq_instr_iff, encode, eq_assemble_iff, mask_symSel w _ (by decide) (by decide)]
  simp only [Instr.wellFormed, decide_eq_true_eq]
  constructor
  · rintro ⟨hk, ho, rfl, rfl, hr⟩
    exact ⟨⟨ho, hk, hr⟩, rfl, (selField_of_le hk).symm⟩
  · rintro ⟨⟨ho, hl, hr⟩, rfl, rfl⟩
    rw [selField_of_le hl]
    exact ⟨hl, ho, rfl, rfl, hr⟩

end Sys2Proof

namespace Sys2Proof.Machine

/-! ## A word that is no command -/

theorem exists_illegal {w : Word} (h : ∀ i, decode w ≠ .instr i) : ∃ r, decode w = .illegal r := by
  cases hw : decode w with
  | instr i => exact absurd hw (h i)
  | illegal r => exact ⟨r, rfl⟩

section NoCommand
variable {w : Word} {s : State} {rest : List HostOp} (hb : s.busy = false) (hh : s.host = cmdWrite w :: rest)
  (hw : ∀ i, decode w ≠ .instr i)
include hb hh hw

theorem step_noCommand (hp : s.phase ≠ .error) :
    ∃ t, step s = .next t ∧ EntersError .illegalCommand { s with host := rest } t := by
  obtain ⟨r, hr⟩ := exists_illegal hw
  exact ⟨_, (step_cmd hb hh).trans ((issue_illegal hr _).2 hp), errorEntry_enters _ _⟩

theorem step_noCommand_error (hp : s.phase = .error) : step s = .next { s with host := rest } := by
  obtain ⟨r, hr⟩ := exists_illegal hw
  exact (step_cmd hb hh).trans ((issue_illegal hr _).1 hp)

end NoCommand

/-- Settles O3: the rows, and a word that decoded to a command would match the command's row. -/
theorem decodeFollowsMatchAndMask : Obligations.DecodeFollowsMatchAndMask := by
  refine ⟨fun w => ⟨decode_plain_row rfl w, decode_ldf_row w, decode_plain_row rfl w, decode_plain_row rfl w,
    decode_plain_row rfl w, decode_plain_row rfl w, decode_plain_row rfl w, decode_plain_row rfl w, decode_rdl_row w,
    decode_rdc_row w⟩, fun w s rest hb hp hh hplain hldf hrdl hrdc => step_noCommand hb hh (fun i hi => ?_) hp⟩
  cases i with
  | ldf sym => exact hldf ((decode_ldf_row w sym).1 hi).1
  | rdl sym => exact hrdl ((decode_rdl_row w sym).1 hi).1
  | rdc sym k => exact hrdc ((decode_rdc_row w sym k).1 hi).1
  | _ =>
    obtain ⟨-, rfl⟩ := eq_encode_of_decode hi
    exact hplain (by decide)

/-! ## Reserved words -/

/-- The word has a reserved OPC, a nonzero RSV, or a nonzero field that its command does not use (30_encoding.md R71). -/
def ReservedWord (w : Word) : Prop :=
  opcField w = 0#8 ∨ 0x0A#8 < opcField w ∨ rsvField w ≠ 0#8 ∨
    (opcField w ∉ [0x02#8, 0x09#8, 0x0A#8] ∧ (symField w ≠ 0#8 ∨ selField w ≠ 0#8)) ∨
    (opcField w ∈ [0x02#8, 0x09#8] ∧ selField w ≠ 0#8) ∨
    (opcField w = 0x0A#8 ∧ 3#8 < selField w)

theorem not_reservedWord_encode {i : Instr} (hw : i.wellFormed = true) : ¬ ReservedWord (encode i) := by
  cases i with
  | rdc sym k =>
    have hk : ¬ 3#8 < k := BitVec.not_lt.2 (of_decide_eq_true hw)
    simp [ReservedWord, encode, Laws.RoundTrip.assemble_fields, hk]
  | _ => simp [ReservedWord, encode, Laws.RoundTrip.assemble_fields]

/-- Settles O5: no command is encoded by a reserved word. -/
theorem reservedWordsAreIllegal : Obligations.ReservedWordsAreIllegal := by
  intro w s rest hb hh hres
  have hnone : ∀ i, decode w ≠ .instr i := by
    intro i hi
    obtain ⟨hw, rfl⟩ := eq_encode_of_decode hi
    exact not_reservedWord_encode hw hres
  exact ⟨step_noCommand hb hh hnone, step_noCommand_error hb hh hnone⟩

/-! ## Dispatch -/

/-- Settles O7: the write to CMD, by what the word decodes to. -/
theorem dispatchOrder : Obligations.DispatchOrder := by
  intro w s rest hb hh
  have hrun : ∀ {i}, decode w = .instr i → step s = exec i { s with host := rest } := fun hi =>
    (step_cmd hb hh).trans (issue_instr hi _)
  refine ⟨fun hclr => hrun (hclr ▸ decode_encode (i := .clr) rfl), fun hclr hp => ?_, fun r hp hr => ?_,
    fun i hp hi hl => ?_, fun i _ hi _ => hrun hi⟩
  · cases hw : decode w with
    | illegal r => exact step_noCommand_error hb hh (by simp [hw]) hp
    | instr i =>
      have hi : i ≠ .clr := by
        rintro rfl
        exact hclr (eq_encode_of_decode hw).2
      rw [hrun hw]
      exact exec_error hi hp
  · exact step_noCommand hb hh (by simp [hr]) hp
  · exact ⟨_, (hrun hi).trans (exec_sequence (eq_encode_of_decode hi).1 hp hl), errorEntry_enters _ _⟩

/-! ## The legality table -/

/-- How a command legal in the state ends, in a state of the invariant: without an error, in the PHASE and DIR of the table,
or in the entry of an error other than SEQUENCE (30_encoding.md R69; 60_exceptions.md R109). -/
theorem exec_legal_end {i : Instr} {s t : State} (h : Inv s) (hp : s.phase ≠ .error)
    (hl : legalTable i s.phase s.dir = true) (ht : exec i s = .next t) :
    (t.ecode = .none ∧ t.phase = phaseAfter i s.phase ∧ (i = .bld → t.dir = .compress) ∧
        (i = .dsr → t.dir = .decompress)) ∨
      ∃ e u, e ≠ .sequence ∧ t = errorEntry e u := by
  rcases exec_cases ht with ⟨rfl, rfl⟩ | ⟨-, he, -⟩ | ⟨hi, -, ⟨-, rfl⟩ | ⟨-, hl', -⟩ | ⟨-, -, hb⟩⟩
  · exact .inl ⟨rfl, rfl, nofun, nofun⟩
  · exact absurd he hp
  · exact .inr ⟨_, _, by decide, rfl⟩
  · rw [hl] at hl'; cases hl'
  rcases body_end hl hb with ⟨hphase, hecode, hdir⟩ | ⟨e, u, he, rfl⟩
  · exact .inl ⟨(hecode hi).trans (h.ecode.2 hp), hphase, hdir⟩
  · exact .inr ⟨e, u, (ownErrors_codes he).1, rfl⟩

/-- Settles O8: Dispatch turns the command away, or the command ends by `exec_legal_end`. -/
theorem legalityTable : Obligations.LegalityTable := by
  refine ⟨fun i s hw hp hl => ⟨_, exec_sequence hw hp hl, errorEntry_enters _ _⟩, fun i s t h hp hl ht => ?_,
    fun s => ⟨_, rfl, rfl⟩, fun s h hp => ?_⟩
  · rcases exec_legal_end h hp hl ht with ⟨hecode, hend⟩ | ⟨e, u, he, rfl⟩
    · exact ⟨by simp [hecode], fun _ => hend⟩
    · exact ⟨he, fun hne => absurd rfl hne⟩
  · rcases hp with hp | hp
    · exact (h.idle hp).1
    · exact (h.treeWritten hp).1

end Sys2Proof.Machine

/-! # Session control and read-back

CLR, LDF, RDL and RDC (40_control.md): each is turned away by Dispatch or is one update of the state. -/

namespace Sys2Proof.Machine

/-! ## A command turned away -/

theorem exec_enters_sequence {i : Instr} {s : State} (hw : i.wellFormed = true) (hp : s.phase ≠ .error)
    (hl : legalTable i s.phase s.dir = false) : ∃ t, exec i s = .next t ∧ EntersError .sequence s t :=
  ⟨_, exec_sequence hw hp hl, errorEntry_enters _ _⟩

/-! ## CLR -/

theorem clearSession_entries (s : State) (sym : Symbol) :
    freqOf (clearSession s) sym = 0 ∧ codeLenOf (clearSession s) sym = 0 ∧ codeOf (clearSession s) sym = [] := by
  simp [freqOf, codeLenOf, codeOf]

theorem regFile_eq_replicate {α : Type} {f : RegFile α} {a : α} (h : ∀ sym, regGet f sym = a) :
    f = Vector.replicate 256 a :=
  regFile_ext fun sym => (h sym).trans (regGet_replicate a sym).symm

/-- In IDLE the invariant leaves only FREQ and RESULT for CLR to change (40_control.md R76). -/
theorem clearSession_fresh {s : State} (h : Inv s) (hp : s.phase = .idle) (hfreq : ∀ sym, freqOf s sym = 0) :
    clearSession s = { s with result := 0 } := by
  obtain ⟨hdir, htree, ⟨hdmap, hcodes⟩, ⟨houtLen, hwbuf, hwcnt⟩, hrpos, hnBits⟩ := h.idle hp
  have hecode : s.ecode = .none := h.ecode.2 (by simp [hp])
  have hfreq : s.freq = Vector.replicate 256 0 := regFile_eq_replicate hfreq
  have hcode : s.code = Vector.replicate 256 [] := regFile_eq_replicate fun sym => (hcodes sym).1
  have hcodeLen : s.codeLen = Vector.replicate 256 0 := regFile_eq_replicate fun sym => (hcodes sym).2
  simp only [clearSession, hecode, hp, hdir, houtLen, hnBits, hrpos, hfreq, hcodeLen, hcode, htree, hdmap, hwbuf, hwcnt]

/-- Settles O11: `clearSession` field by field, and in ERROR every other command leaves the state as it is. -/
theorem clrClearsTheSession : Obligations.ClrClearsTheSession := by
  refine ⟨fun w => ?_, fun s => ?_, fun i s t hp ht hne => ?_, fun s h hp hfreq => ?_⟩
  · exact decode_eq_instr_iff.trans (and_iff_right rfl)
  · refine ⟨clearSession s, rfl, rfl, rfl, rfl, rfl, rfl, rfl, rfl, clearSession_entries s, rfl, rfl, rfl, rfl, rfl,
      rfl, rfl, rfl, rfl, rfl, rfl, rfl, rfl, rfl, rfl, fun hb => statusWord_fresh hb rfl rfl rfl⟩
  · by_contra hi
    rw [exec_error hi hp] at ht
    cases ht
    exact hne hp
  · exact congrArg _ (clearSession_fresh h hp hfreq)

/-! ## LDF -/

theorem freqOf_setFreq_same (s : State) (sym : Symbol) (v : Reg) : freqOf (s.setFreq sym v) sym = v :=
  regGet_regSet_same s.freq sym v

theorem freqOf_setFreq_ne (s : State) {sym other : Symbol} (h : other ≠ sym) (v : Reg) :
    freqOf (s.setFreq sym v) other = freqOf s other :=
  regGet_regSet_ne s.freq h.symm v

theorem exec_ldf {s : State} (sym : Symbol) (hp : s.phase = .idle) :
    exec (.ldf sym) s = .next (s.setFreq sym s.arg) :=
  exec_legal rfl (by simp [hp]) (decide_eq_true hp)

/-- Settles O12: in IDLE the command is `setFreq`. -/
theorem ldfLoadsArg : Obligations.LdfLoadsArg := by
  refine fun sym => ⟨fun w => ?_, fun s hp => ?_, fun s hp he => ?_⟩
  · exact (decode_ldf_row w sym).trans (and_congr_right' eq_comm)
  · exact ⟨_, exec_ldf sym hp, freqOf_setFreq_same s sym _, fun other ho => freqOf_setFreq_ne s ho _, rfl⟩
  · exact exec_enters_sequence rfl he (decide_eq_false hp)

/-! ## RDL and RDC -/

/-- The row that RDL and RDC share in the legality table, where they run (30_encoding.md R69). -/
theorem readBack_legal {p : Phase} (h : p = .mapReady ∨ p = .treeWritten ∨ p = .done) :
    p ≠ .error ∧ decide (p ∈ [.mapReady, .treeWritten, .done]) = true := by
  rcases h with rfl | rfl | rfl <;> decide

/-- The same row, where they are turned away. -/
theorem readBack_illegal {p : Phase} (h : p ∉ [.mapReady, .treeWritten, .done, .error]) :
    p ≠ .error ∧ decide (p ∈ [.mapReady, .treeWritten, .done]) = false := by
  simp only [List.mem_cons, List.not_mem_nil, or_false, not_or] at h
  obtain ⟨hmap, hwritten, hdone, herror⟩ := h
  exact ⟨herror, by simp [hmap, hwritten, hdone]⟩

section ReadBack
variable {s : State} (sym : Symbol) (hp : s.phase = .mapReady ∨ s.phase = .treeWritten ∨ s.phase = .done)
include hp

theorem exec_rdl : exec (.rdl sym) s = .next (s.setResult ((codeLenOf s sym).setWidth 64)) :=
  exec_legal rfl (readBack_legal hp).1 (readBack_legal hp).2

theorem exec_rdc {w : BitVec 8} (hw : w ≤ 3) : exec (.rdc sym w) s = .next (s.setResult (codeWindow s sym w)) :=
  exec_legal (decide_eq_true hw) (readBack_legal hp).1 (readBack_legal hp).2

end ReadBack

/-- Settles O14: in its states the command is `setResult` of the window, whose bits are those of the code. -/
theorem rdcReadsTheWindow : Obligations.RdcReadsTheWindow := by
  refine fun sym w s => ⟨fun v => ?_, fun hw hp => ?_, fun hw hp => ?_, fun hw hp => ?_⟩
  · exact (decode_rdc_row v sym w).trans (and_congr_right' (and_congr eq_comm eq_comm))
  · exact ⟨_, exec_rdc sym hp hw, rfl, fun k hk => codeWindow_getLsbD hw hk⟩
  · exact exec_enters_sequence (decide_eq_true hw) (readBack_illegal hp).1 (readBack_illegal hp).2
  · exact ⟨_, exec_illegal (decide_eq_false hw) hp, errorEntry_enters _ _⟩

/-- Settles O13: in its states the command is `setResult` of the length, which loses nothing in 64 bits. -/
theorem rdlReadsTheLength : Obligations.RdlReadsTheLength := by
  refine fun sym => ⟨fun w => ?_, fun s hp => ?_, fun s hp => ?_⟩
  · exact (decode_rdl_row w sym).trans (and_congr_right' eq_comm)
  · refine ⟨exec_rdl sym hp, fun tr ⟨_, hcodes⟩ => ?_⟩
    rw [BitVec.toNat_setWidth_of_le (by decide)]
    exact (hcodes sym).2
  · exact exec_enters_sequence rfl (readBack_illegal hp).1 (readBack_illegal hp).2

end Sys2Proof.Machine

/-! # The tree builder

BLD (41_tree_builder.md) in IDLE is EMPTY_INPUT or one update of the state, and its tree is pinned by the merges: what the
leaves are, that FREQ alone decides it, and the tree of a single symbol follow from that. -/

namespace Sys2Proof.Machine

/-! ## What BLD does in IDLE -/

section Idle
variable {s : State} (hp : s.phase = .idle)
include hp

theorem exec_bld_idle : exec .bld s = runCmd bld s :=
  exec_legal rfl (by simp [hp]) (decide_eq_true hp)

theorem exec_bld_empty (h : ∀ sym, freqOf s sym = 0) : exec .bld s = .next (errorEntry .emptyInput s) :=
  (exec_bld_idle hp).trans (runCmd_error (bld_empty h))

theorem exec_bld_ok (h : ∃ sym, freqOf s sym ≠ 0) : ∃ tr, exec .bld s = .next (s.treeBuilt tr) ∧
    Merges (weightedLeaves s) tr ∧ (leafSymbols tr).Perm (presentSymbols s) := by
  obtain ⟨tr, hok, hmerges, hleaves⟩ := bld_ok h
  exact ⟨tr, (exec_bld_idle hp).trans (runCmd_ok hok), hmerges, hleaves⟩

/-- A BLD that ends in TREE_READY has put a tree of the present symbols, each once, into TREE (41_tree_builder.md R85). -/
theorem exec_bld_builtTree {t : State} (h : exec .bld s = .next t) (hr : t.phase = .treeReady) :
    ∃ tr, t = s.treeBuilt tr ∧ BuiltTree tr t := by
  by_cases hs : ∃ sym, freqOf s sym ≠ 0
  · obtain ⟨tr, hbld, -, hleaves⟩ := exec_bld_ok hp hs
    rw [hbld] at h; cases h
    exact ⟨tr, rfl, rfl, hleaves.nodup_iff.2 (presentSymbols_nodup s),
      fun sym => hleaves.mem_iff.trans (mem_presentSymbols s sym)⟩
  · simp only [not_exists, not_not] at hs
    rw [exec_bld_empty hp hs] at h; cases h
    cases hr

end Idle

/-! ## The tree BLD builds -/

/-- However the present symbols are listed, the leaves are the same set (41_tree_builder.md R86). -/
theorem weightedLeaves_perm {s : State} {syms : List Symbol} (hn : syms.Nodup)
    (hm : ∀ sym, sym ∈ syms ↔ freqOf s sym ≠ 0) :
    (weightedLeaves s).Perm (syms.map fun sym => ((freqOf s sym).toNat, .leaf sym)) :=
  ((List.perm_ext_iff_of_nodup (presentSymbols_nodup s) hn).2 fun sym =>
    (mem_presentSymbols s sym).trans (hm sym).symm).map _

/-- Merges look at the set of nodes, not at its order (41_tree_builder.md R86). -/
theorem Merges.perm {cs cs' : List (Nat × HuffTree)} {t : HuffTree} (h : Merges cs t) (hp : cs.Perm cs') :
    Merges cs' t := by
  cases h with
  | one c =>
    obtain rfl := List.singleton_perm.1 hp
    exact .one c
  | merge hcs ha hb ht => exact .merge (hp.symm.trans hcs) ha hb ht

/-- Settles O15: the merges from the leaves in ascending order are those from any list of the same leaves. -/
theorem bldBuildsTheMergeTree : Obligations.BldBuildsTheMergeTree := by
  refine ⟨fun w => ?_, fun s hp he => ?_, fun s hp h => ?_, fun s hp h => ?_⟩
  · exact decode_eq_instr_iff.trans (and_iff_right rfl)
  · exact exec_enters_sequence rfl he (decide_eq_false hp)
  · exact ⟨_, exec_bld_empty hp h, errorEntry_enters _ _⟩
  · obtain ⟨tr, hbld, hmerges, -⟩ := exec_bld_ok hp h
    refine ⟨tr, hbld, fun syms hn hm => ?_⟩
    have hleaves := weightedLeaves_perm hn hm
    exact ⟨hmerges.perm hleaves, fun tr' h' => merges_unique h' hmerges hleaves.symm⟩

/-- Settles O16: a tree without repeated symbols has at most 256 leaves, and a path passes each internal node once. -/
theorem builtTreeShape : Obligations.BuiltTreeShape := by
  intro s t hp h hr
  obtain ⟨tr, rfl, htree, hnodup, hleaves⟩ := exec_bld_builtTree hp h hr
  exact ⟨tr, htree, hnodup, hleaves, (leafSymbols_length tr).symm, (leafCount_eq tr).symm,
    internalCount_le_of_nodup hnodup, fun p v hleaf => leafPaths_length_le ((mem_leafPaths tr p v).2 hleaf)⟩

/-- Settles O17: equal FREQ gives equal leaves, and the merges give one tree only. -/
theorem bldDependsOnFreqOnly : Obligations.BldDependsOnFreqOnly := by
  intro s s' t t' hp hp' hfreq ht ht'
  have hf : freqOf s' = freqOf s := by funext sym; rw [freqOf, freqOf, hfreq]
  by_cases h : ∃ sym, freqOf s sym ≠ 0
  · obtain ⟨tr, hbld, hmerges, -⟩ := exec_bld_ok hp h
    obtain ⟨tr', hbld', hmerges', -⟩ := exec_bld_ok hp' (hf ▸ h)
    rw [hbld] at ht; cases ht
    rw [hbld'] at ht'; cases ht'
    have hleaves : weightedLeaves s = weightedLeaves s' := by simp only [weightedLeaves, presentSymbols, hf]
    exact ⟨rfl, fun _ => congrArg some (merges_unique hmerges hmerges' (.of_eq hleaves))⟩
  · simp only [not_exists, not_not] at h
    rw [exec_bld_empty hp h] at ht; cases ht
    rw [exec_bld_empty hp' (hf ▸ h)] at ht'; cases ht'
    exact ⟨rfl, nofun⟩

/-! ## One symbol -/

/-- With one symbol present no merge happens (41_tree_builder.md R84). -/
theorem exec_bld_single {s : State} {sym : Symbol} (hp : s.phase = .idle) (hsym : freqOf s sym ≠ 0)
    (hother : ∀ other, other ≠ sym → freqOf s other = 0) : exec .bld s = .next (s.treeBuilt (.leaf sym)) := by
  obtain ⟨tr, hbld, hmerges, -⟩ := exec_bld_ok hp ⟨sym, hsym⟩
  have hm : ∀ v, v ∈ [sym] ↔ freqOf s v ≠ 0 := fun v => by
    rw [List.mem_singleton]
    exact ⟨by rintro rfl; exact hsym, fun h => not_not.1 fun hne => h (hother v hne)⟩
  have hleaf : tr = .leaf sym := merges_unique hmerges (.one _) (weightedLeaves_perm (List.nodup_singleton sym) hm)
  rw [hbld, hleaf]

theorem exec_map_ok {s : State} {tr : HuffTree} (hp : s.phase = .treeReady) (ht : s.tree = some tr) :
    exec .map s = .next (deriveMaps tr s) :=
  calc exec .map s = body .map s := exec_legal rfl (by simp [hp]) (decide_eq_true hp)
    _ = .next (deriveMaps tr s) := by simp only [body, ht]

/-- SER in a session, when the tree fits: the stream is the serialization (43_tree_serializer.md R92). -/
theorem exec_ser_ok {s : State} {tr : HuffTree} (h : Inv s) (hp : s.phase = .mapReady) (hd : s.dir = .compress)
    (ht : s.tree = some tr) (hfits : treeBits tr / 8 ≤ s.outCap.toNat) :
    ∃ u, exec .ser s = .next u.treeWritten ∧ Wrote s u (serBits tr) ∧ outStream u.treeWritten = serBits tr := by
  obtain ⟨-, hempty, -⟩ := h.mapReady hp
  obtain ⟨hlen, hstream⟩ := streamLen_empty hempty
  obtain ⟨u, hu, hwrote⟩ := ser_ok (t := tr) h.outLen (by rwa [hlen, Nat.zero_add])
  refine ⟨u, ?_, hwrote, ?_⟩
  · calc exec .ser s = body .ser s := exec_legal rfl (by simp [hp]) (decide_eq_true ⟨hp, hd⟩)
      _ = runCmd (ser tr) s := by simp only [body, ht]
      _ = .next u.treeWritten := runCmd_ok hu
  · calc outStream u.treeWritten = outStream s ++ serBits tr := hwrote.stream
      _ = serBits tr := by rw [hstream, List.nil_append]

/-- Settles O18: BLD, MAP and SER in turn; the 9 bits need one byte of OUT_MEM, and OUT_CAP is at least 1. -/
theorem singleSymbolSession : Obligations.SingleSymbolSession := by
  intro s sym hinv hp hsym hother
  have hbld := exec_bld_single hp hsym hother
  have hmap : exec .map (s.treeBuilt (.leaf sym)) = _ := exec_map_ok rfl rfl
  have hinvMap : Inv (deriveMaps (.leaf sym) (s.treeBuilt (.leaf sym))) := (hinv.exec hbld).exec hmap
  obtain ⟨-, hcodes⟩ := deriveMaps_codes (t := .leaf sym) (Nat.zero_le _) (s.treeBuilt (.leaf sym))
  have hframe := deriveMaps_frame (.leaf sym) (s.treeBuilt (.leaf sym))
  generalize deriveMaps (.leaf sym) (s.treeBuilt (.leaf sym)) = u at hmap hinvMap hcodes hframe
  have hcode : codeOf u sym = [true] := (hcodes sym).1.trans (by simp [lastCode, leafCodes])
  have hbits : treeBits (.leaf sym) = 9 := treeBits_eq _
  obtain ⟨v, hser, -, hstream⟩ := exec_ser_ok (tr := .leaf sym) hinvMap (by rw [hframe]) (by rw [hframe]; rfl)
    (by rw [hframe]; rfl) (by rw [hbits]; exact hinvMap.outCap.1)
  refine ⟨_, u, _, hbld, rfl, hmap, hcode, hser, rfl, hstream, ?_⟩
  rw [← outStream_length, hstream, serBits_length, hbits]

end Sys2Proof.Machine

/-! # The code map generator

MAP (42_code_map.md) in TREE_READY is `deriveMaps` of TREE, which leaves the code map of that tree (`CodesOf`); what the
statements say of CODE, CODE_LEN and DMAP is then a fact about the tree's leaves and their paths. -/

namespace Sys2Proof.Machine

/-! ## The codes of a tree's leaves -/

/-- The last leaf of a symbol gives it its code (42_code_map.md R89). -/
theorem lastCode_of_last {t : HuffTree} {before after : List (BitString × Symbol)} {p : BitString} {sym : Symbol}
    (h : leafCodes t = before ++ (p, sym) :: after) (hlast : sym ∉ after.map Prod.snd) : lastCode t sym = p := by
  have hafter : (after.filter fun c => c.2 = sym) = [] := List.filter_eq_nil_iff.2 fun c hc heq =>
    hlast (of_decide_eq_true heq ▸ List.mem_map_of_mem hc)
  simp [lastCode, h, List.filter_append, hafter]

theorem lastCode_nil {t : HuffTree} {sym : Symbol} (h : sym ∉ leafSymbols t) : lastCode t sym = [] :=
  not_not.1 (mt (lastCode_ne_nil t sym).1 h)

/-- Without repeated symbols the leaves' codes are those of the leaf symbols (42_code_map.md R90 item 4). -/
theorem mem_leafCodes_of_nodup {t : HuffTree} (ht : (leafSymbols t).Nodup) {c : BitString} {v : Symbol} :
    (c, v) ∈ leafCodes t ↔ v ∈ leafSymbols t ∧ lastCode t v = c := by
  constructor
  · intro h
    exact ⟨leafCodes_map_snd t ▸ List.mem_map_of_mem h, lastCode_of_nodup ht h⟩
  · rintro ⟨hv, rfl⟩
    exact lastCode_mem ((lastCode_ne_nil t v).2 hv)

/-- Bits enough for the deepest path lead to a leaf (42_code_map.md R90 item 3). -/
theorem exists_leafPath_prefix (t : HuffTree) {bits : BitString} (h : internalCount t ≤ bits.length) :
    ∃ a v, (a, v) ∈ leafPaths t [] ∧ a <+: bits := by
  simp only [mem_leafPaths]
  induction t generalizing bits with
  | leaf s => exact ⟨[], s, rfl, List.nil_prefix⟩
  | node l r ihl ihr =>
    cases bits with
    | nil => simp [internalCount] at h
    | cons b bits =>
      simp only [internalCount, List.length_cons] at h
      have hchild : ∃ a v, subtreeAt (if b then r else l) a = some (.leaf v) ∧ a <+: bits := by
        cases b with
        | false => exact ihl (by omega)
        | true => exact ihr (by omega)
      obtain ⟨a, v, hleaf, hpre⟩ := hchild
      exact ⟨b :: a, v, hleaf, List.cons_prefix_cons.2 ⟨rfl, hpre⟩⟩

theorem exists_leafCode_prefix {t : HuffTree} (ht : 2 ≤ leafCount t) {bits : BitString}
    (h : internalCount t ≤ bits.length) : ∃ a v, (a, v) ∈ leafCodes t ∧ a <+: bits := by
  cases t with
  | leaf s => simp [leafCount] at ht
  | node l r => exact exists_leafPath_prefix _ h

/-- At most one leaf's code begins a bit string (42_code_map.md R90 item 2). -/
theorem leafCode_prefix_unique {t : HuffTree} {a b bits : BitString} {v w : Symbol} (ha : (a, v) ∈ leafCodes t)
    (hb : (b, w) ∈ leafCodes t) (hpa : a <+: bits) (hpb : b <+: bits) : b = a := by
  rcases List.prefix_or_prefix_of_prefix hpb hpa with h | h
  · exact (leafCodes_prefixFree hb ha h).1
  · exact (leafCodes_prefixFree ha hb h).1.symm

theorem eq_leaf_of_leafCount {t : HuffTree} (h : leafCount t = 1) : ∃ v, t = .leaf v := by
  cases t with
  | leaf v => exact ⟨v, rfl⟩
  | node l r =>
    have hl := leafCount_pos l
    have hr := leafCount_pos r
    simp only [leafCount] at h
    omega

theorem singleton_prefix_iff {α : Type} {a : α} {l : List α} : [a] <+: l ↔ l.head? = some a := by
  cases l <;> simp [eq_comm]

/-! ## What MAP leaves -/

section CodesOf
variable {t : HuffTree} {s : State} (h : CodesOf t s)
include h

theorem CodesOf.dmapFind {p : BitString} {v : Symbol} : dmapFind s.dmap p = some v ↔ (p, v) ∈ leafCodes t := by
  rw [h.1]
  exact dmapFind_eq_some (leafCodes_nodup t) p v

theorem CodesOf.code (sym : Symbol) : codeOf s sym = lastCode t sym := (h.2 sym).1

theorem CodesOf.codeLen (sym : Symbol) : (codeLenOf s sym).toNat = (codeOf s sym).length :=
  (h.2 sym).2.trans (congrArg _ (h.code sym).symm)

theorem CodesOf.codeLen_eq_ofNat (sym : Symbol) : codeLenOf s sym = BitVec.ofNat 8 (codeOf s sym).length := by
  rw [← h.codeLen, BitVec.ofNat_toNat, BitVec.setWidth_eq]

theorem CodesOf.code_nil {sym : Symbol} (hs : sym ∉ leafSymbols t) : codeOf s sym = [] :=
  (h.code sym).trans (lastCode_nil hs)

end CodesOf

theorem exec_map_codes {s t : State} {tr : HuffTree} (hp : s.phase = .treeReady) (ht : s.tree = some tr)
    (hi : internalCount tr ≤ 255) (h : exec .map s = .next t) : CodesOf tr t := by
  rw [exec_map_ok hp ht] at h
  cases h
  exact deriveMaps_codes hi s

/-- Settles O19: the command is `deriveMaps`, which leaves the code map of TREE and changes nothing else. -/
theorem mapDerivesTheMaps : Obligations.MapDerivesTheMaps := by
  refine ⟨fun w => ?_, fun s hp he => ?_, fun s tr hp ht hi => ?_⟩
  · exact decode_eq_instr_iff.trans (and_iff_right rfl)
  · exact exec_enters_sequence rfl he (decide_eq_false hp)
  · have hcodes := deriveMaps_codes hi s
    refine ⟨_, exec_map_ok hp ht, deriveMaps_frame tr s, fun p v => hcodes.dmapFind,
      fun sym => ⟨hcodes.code sym, hcodes.codeLen sym⟩, fun sym hs => ⟨hcodes.code_nil hs, ?_⟩⟩
    rw [hcodes.codeLen_eq_ofNat, hcodes.code_nil hs]; rfl

/-- Settles O20: the code map of a single leaf. -/
theorem singleLeafCode : Obligations.SingleLeafCode := by
  intro s sym hp ht
  have hcodes : CodesOf (.leaf sym) (deriveMaps (.leaf sym) s) := deriveMaps_codes (Nat.zero_le _) s
  have hcode : codeOf (deriveMaps (.leaf sym) s) sym = [true] :=
    (hcodes.code sym).trans (lastCode_of_last (before := []) rfl List.not_mem_nil)
  refine ⟨_, exec_map_ok hp ht, hcode, ?_, hcodes.1⟩
  rw [hcodes.codeLen_eq_ofNat, hcode]; rfl

/-- Settles O21: DMAP is the list of the leaves' codes, and the encode map follows its last entry of a symbol. -/
theorem repeatedSymbolCodes : Obligations.RepeatedSymbolCodes := by
  intro s t tr hp ht hi h
  have hcodes := exec_map_codes hp ht hi h
  refine ⟨?_, fun c hc => hcodes.dmapFind.2 hc, fun before p sym after hsplit hlast => ?_⟩
  · calc t.dmap.length = ((leafCodes tr).map Prod.snd).length := by rw [hcodes.1, List.length_map]
      _ = leafCount tr := by rw [leafCodes_map_snd, leafSymbols_length]
  · have hcode : codeOf t sym = p := (hcodes.code sym).trans (lastCode_of_last hsplit hlast)
    exact ⟨hcode, hcode ▸ hcodes.codeLen sym⟩

/-- In TREE_READY the invariant bounds TREE, and after BLD its leaves are the present symbols (10_state.md R35). -/
theorem Inv.treeReady_tree {s : State} {tr : HuffTree} (h : Inv s) (hp : s.phase = .treeReady) (ht : s.tree = some tr) :
    internalCount tr ≤ 255 ∧ (s.dir = .compress → BuiltTree tr s) := by
  obtain ⟨⟨tr', htree, hi, hbuilt, -⟩, -⟩ := h.treeReady hp
  obtain rfl : tr' = tr := Option.some.inj (htree.symm.trans ht)
  exact ⟨hi, fun hd => (hbuilt hd).1⟩

/-- Settles O22: DMAP's entries are the leaves' codes: none begins another, one begins every long enough bit string, and in a
tree of BLD each present symbol is one leaf. -/
theorem codesArePrefixFree : Obligations.CodesArePrefixFree := by
  intro s t tr hinv hp ht h
  obtain ⟨hi, hbuilt⟩ := hinv.treeReady_tree hp ht
  have hcodes := exec_map_codes hp ht hi h
  simp only [hcodes.dmapFind]
  refine ⟨hcodes.1 ▸ leafCodes_map_snd tr, hcodes.1 ▸ leafCodes_nodup tr,
    fun a b v w ha hb hab => (leafCodes_prefixFree ha hb hab).1, fun hl bits hbits => ?_, fun hl bits => ?_,
    fun hd sym a => ?_⟩
  · obtain ⟨a, v, ha, hpa⟩ := exists_leafCode_prefix hl (hi.trans hbits)
    exact ⟨a, v, ha, hpa, fun b w hb hpb => leafCode_prefix_unique ha hb hpa hpb⟩
  · obtain ⟨sym, rfl⟩ := eq_leaf_of_leafCount hl
    simp [leafCodes, singleton_prefix_iff]
  · obtain ⟨-, hnodup, hpresent⟩ := hbuilt hd
    rw [mem_leafCodes_of_nodup hnodup, hpresent, hcodes.code]
    exact ⟨Iff.rfl, fun habsent => lastCode_nil fun hs => (hpresent sym).1 hs habsent⟩

/-! ## No tree -/

/-- Settles O23: both commands are legal in their states and stop on TREE = NONE. -/
theorem missingTreeStops : Obligations.MissingTreeStops := by
  refine ⟨fun s hp ht => ?_, fun s hp hd ht => ?_⟩
  · calc exec .map s = body .map s := exec_legal rfl (by simp [hp]) (decide_eq_true hp)
      _ = .fault .treeMissing := by simp only [body, ht]
  · calc exec .ser s = body .ser s := exec_legal rfl (by simp [hp]) (decide_eq_true ⟨hp, hd⟩)
      _ = .fault .treeMissing := by simp only [body, ht]

end Sys2Proof.Machine

/-! # The tree serializer

SER and DSR (43_tree_serializer.md): SER writes the bit string `serBits` of TREE, and DSR reads the one tree whose bit string
stands at the head of the input; the limit of R95 and the round trip of R97 follow from the two. -/

namespace Sys2Proof.Machine

/-! ## SER -/

theorem exec_ser_body {s : State} {tr : HuffTree} (hp : s.phase = .mapReady) (hd : s.dir = .compress)
    (ht : s.tree = some tr) : exec .ser s = runCmd (ser tr) s :=
  calc exec .ser s = body .ser s := exec_legal rfl (by simp [hp]) (decide_eq_true ⟨hp, hd⟩)
    _ = runCmd (ser tr) s := by simp only [body, ht]

/-- SER in a session, when the tree does not fit: the bytes written before the overflow are behind the error entry
(43_tree_serializer.md R92; 60_exceptions.md R110). -/
theorem exec_ser_full {s : State} {tr : HuffTree} (h : Inv s) (hp : s.phase = .mapReady) (hd : s.dir = .compress)
    (ht : s.tree = some tr) (hfull : s.outCap.toNat < treeBits tr / 8) :
    ∃ t, exec .ser s = .next t ∧ EntersError .outputOverflow s t := by
  obtain ⟨-, hempty, -⟩ := h.mapReady hp
  obtain ⟨u, hu, hframe⟩ := ser_full (t := tr) h.outLen (by rwa [(streamLen_empty hempty).1, Nat.zero_add])
  exact ⟨_, (exec_ser_body hp hd ht).trans (runCmd_error hu), hframe.enters _⟩

theorem exec_ser_illegal {s : State} (hl : ¬ (s.phase = .mapReady ∧ s.dir = .compress)) (he : s.phase ≠ .error) :
    ∃ t, exec .ser s = .next t ∧ EntersError .sequence s t :=
  exec_enters_sequence rfl he (decide_eq_false hl)

/-- Settles O24: SER writes `serBits` to an empty stream, whose length OUT_LEN and WCNT then count. -/
theorem serWritesTheTree : Obligations.SerWritesTheTree := by
  refine ⟨fun w => ?_, fun s => exec_ser_illegal, fun s tr h hp hd ht => ⟨fun hfits => ?_, exec_ser_full h hp hd ht⟩⟩
  · exact decode_eq_instr_iff.trans (and_iff_right rfl)
  · obtain ⟨u, hser, hwrote, hstream⟩ := exec_ser_ok h hp hd ht hfits
    have hlen : streamLen u.treeWritten = treeBits tr := by rw [← outStream_length, hstream, serBits_length]
    obtain ⟨houtLen, hwcnt⟩ := stream_div hlen
    exact ⟨_, hser, hstream, houtLen, hwcnt, congrArg State.treeWritten hwrote.others,
      fun a ha => hwrote.outside a (.inr ha)⟩

/-- Settles O25: SerNode is `writeString` of `serBits`, wherever the stream stands. -/
theorem treeSize : Obligations.TreeSize := by
  intro tr s hs hroom
  have hbits : (serBits tr).length = 10 * leafCount tr - 1 := serBits_length tr
  obtain ⟨t, ht, hwrote⟩ := writeString_ok (bs := serBits tr) hs (by rwa [hbits])
  exact ⟨(leafCount_eq tr).symm, hbits, t, by rw [serNode_eq, ht], by rw [hwrote.streamLen, hbits]⟩

/-! ## DSR -/

section DsrIdle
variable {s : State}

theorem exec_dsr_idle (hp : s.phase = .idle) : exec .dsr s = runCmd dsr s :=
  exec_legal rfl (by simp [hp]) (decide_eq_true hp)

theorem exec_dsr_range (hp : s.phase = .idle) (hl : s.inCap < s.inLen) :
    exec .dsr s = .next (errorEntry .lengthRange s) :=
  (exec_dsr_idle hp).trans (runCmd_error (dsr_range hl))

variable (h : Inv s) (hp : s.phase = .idle) (hl : s.inLen ≤ s.inCap)
include h hp hl

/-- DSR reads a serialized tree at the head of the input (43_tree_serializer.md R94). -/
theorem exec_dsr_ok {tr : HuffTree} (hi : internalCount tr ≤ 255) (hn : treeBits tr ≤ 8 * s.inLen.toNat)
    (hin : inStream s 0 (treeBits tr) = serBits tr) :
    exec .dsr s = .next ((s.readTo (treeBits tr)).treeRead tr) := by
  obtain ⟨-, -, -, -, hrpos, -⟩ := h.idle hp
  exact (exec_dsr_idle hp).trans (runCmd_ok (dsr_ok hl (h.inLen_lt hl) hrpos hi hn hin))

/-- The two ways DSR ends in IDLE once IN_LEN is in range: a tree read, or MALFORMED_STREAM at the end of the input or at the
first bit that no tree within the limit explains (43_tree_serializer.md R94, R95). -/
theorem exec_dsr_cases :
    (∃ tr, exec .dsr s = .next ((s.readTo (treeBits tr)).treeRead tr) ∧ internalCount tr ≤ 255 ∧
      treeBits tr ≤ 8 * s.inLen.toNat ∧ inStream s 0 (treeBits tr) = serBits tr) ∨
    (∃ p, exec .dsr s = .next (errorEntry .malformedStream (s.readTo p)) ∧ p ≤ 8 * s.inLen.toNat ∧
      (∀ q, q < p → BeginsTree 0 (inStream s 0 q)) ∧ (p = 8 * s.inLen.toNat ∨ ¬ BeginsTree 0 (inStream s 0 p))) := by
  obtain ⟨-, -, -, -, hrpos, -⟩ := h.idle hp
  rw [exec_dsr_idle hp]
  rcases dsr_cases hl (h.inLen_lt hl) hrpos with ⟨tr, hok, htree⟩ | ⟨p, herr, hple⟩
  · exact .inl ⟨tr, runCmd_ok hok, htree⟩
  · exact .inr ⟨p, runCmd_error herr, hple, dsr_error hl (h.inLen_lt hl) hrpos herr hple⟩

/-- A run of zeros at the head of the input is refused at the limit of internal nodes or at the end of the input
(43_tree_serializer.md R95). -/
theorem exec_dsr_zeros (hz : ∀ p, p < 256 → p < 8 * s.inLen.toNat → inBit s p = false) :
    exec .dsr s = .next (errorEntry .malformedStream (s.readTo (min 256 (8 * s.inLen.toNat)))) := by
  obtain ⟨-, -, -, -, hrpos, -⟩ := h.idle hp
  have h0 : s.rpos.toNat = 0 := by rw [hrpos]; rfl
  have hzeros := dsrNode_zeros 256 0 s (by decide) (by decide) (h.inLen_lt hl) (by rw [h0]; exact Nat.zero_le _)
    fun p _ hp256 => hz p (by simpa [h0, maxInternal] using hp256)
  rw [h0] at hzeros
  exact (exec_dsr_idle hp).trans (runCmd_error (by rw [dsr_body hl, dsrTree, cmd_bind_error hzeros]; rfl))

end DsrIdle

/-- Settles O26: a tree at the head of the input is read, and without one only the second case of `exec_dsr_cases` is left. -/
theorem dsrReadsTheTree : Obligations.DsrReadsTheTree := by
  refine ⟨fun w => ?_, fun s hp he => ?_, fun s h hp => ⟨fun hl => ?_, fun tr hl hi hn hin => ?_, fun hl hno => ?_⟩⟩
  · exact decode_eq_instr_iff.trans (and_iff_right rfl)
  · exact exec_enters_sequence rfl he (decide_eq_false hp)
  · exact ⟨_, exec_dsr_range hp hl, errorEntry_enters _ _⟩
  · exact exec_dsr_ok h hp hl hi hn hin
  · rcases exec_dsr_cases h hp hl with ⟨tr, -, hi, hn, hin⟩ | ⟨p, hdsr, hple, hbegins, hstop⟩
    · exact absurd hin (hno tr hi hn)
    · exact ⟨p, _, hdsr, hple, hbegins, hstop, errorEntry_enters _ _⟩

/-- The position after a tree within the limit fits in RPOS (43_tree_serializer.md R95). -/
theorem treeRead_rpos (s : State) {tr : HuffTree} (hi : internalCount tr ≤ 255) :
    ((s.readTo (treeBits tr)).treeRead tr).rpos.toNat = treeBits tr := by
  have hbits := treeBits_eq tr
  exact readTo_rpos s (by omega)

/-- Settles O27: a DSR that ends in TREE_READY is the first case of `exec_dsr_cases`, and 32 zero bytes are 256 zero bits. -/
theorem dsrLimitsInternalNodes : Obligations.DsrLimitsInternalNodes := by
  refine ⟨fun s t h hp ht hready => ?_, fun s h hp hl hz => ?_⟩
  · by_cases hl : s.inLen ≤ s.inCap
    · rcases exec_dsr_cases h hp hl with ⟨tr, hdsr, hi, -⟩ | ⟨p, hdsr, -⟩
      · rw [hdsr] at ht; cases ht
        have hleaves := leafCount_eq tr
        exact ⟨tr, rfl, hi, by omega, treeRead_rpos s hi⟩
      · rw [hdsr] at ht; cases ht
        cases hready
    · rw [exec_dsr_range hp (BitVec.not_le.1 hl)] at ht; cases ht
      cases hready
  · refine ⟨_, exec_dsr_zeros h hp hl fun p hp256 hpin => ?_, errorEntry_enters _ _⟩
    rw [inBit, hz (p / 8) (by omega) (by omega)]
    exact BitVec.getLsbD_zero

/-! ## The round trip of the tree segment -/

/-- A SER that ends in TREE_WRITTEN has written TREE (43_tree_serializer.md R92). -/
theorem exec_ser_stream {s t : State} {tr : HuffTree} (h : Inv s) (hp : s.phase = .mapReady) (ht : s.tree = some tr)
    (hser : exec .ser s = .next t) (hw : t.phase = .treeWritten) : outStream t = serBits tr := by
  have hno : ∀ {e}, ¬ ∃ t', exec .ser s = .next t' ∧ EntersError e s t' := by
    rintro e ⟨t', hser', herr⟩
    rw [hser] at hser'; cases hser'
    rw [herr.phase] at hw; cases hw
  have hd : s.dir = .compress := by
    by_contra hd
    exact hno (exec_ser_illegal (fun hl => hd hl.2) (by simp [hp]))
  by_cases hfits : treeBits tr / 8 ≤ s.outCap.toNat
  · obtain ⟨u, hok, -, hstream⟩ := exec_ser_ok h hp hd ht hfits
    rw [hser] at hok; cases hok
    exact hstream
  · exact absurd (exec_ser_full h hp hd ht (Nat.lt_of_not_le hfits)) hno

/-- An input that holds the bits of a stream from bit 0 (20_memory.md R46). -/
theorem inStream_eq_outStream {c d : State} (h : ∀ p, p < streamLen c → inBit d p = outBit c p) :
    inStream d 0 (streamLen c) = outStream c :=
  List.map_congr_left fun p hp => by rw [Nat.zero_add]; exact h p (List.mem_range.1 hp)

/-- Settles O28: the input holds `serBits` of TREE, which in MAP_READY is within DSR's limit. -/
theorem treeSegmentRoundTrip : Obligations.TreeSegmentRoundTrip := by
  intro c c' d tr hc hp ht hser hw hd hidle hl hn hbits
  have hstream := exec_ser_stream hc hp ht hser hw
  have hlen : streamLen c' = treeBits tr := by rw [← outStream_length, hstream, serBits_length]
  have hin : inStream d 0 (treeBits tr) = serBits tr := by
    rw [← hlen, ← hstream]
    exact inStream_eq_outStream (hlen ▸ hbits)
  obtain ⟨⟨tr', htree, hi, -⟩, -⟩ := hc.mapReady hp
  obtain rfl : tr' = tr := Option.some.inj (htree.symm.trans ht)
  exact ⟨_, exec_dsr_ok hd hidle hl hi hn hin, rfl, rfl, treeRead_rpos d hi⟩

end Sys2Proof.Machine

/-! # The bit stream encoder

ENC in TREE_WRITTEN (44_encoder.md): its checks raise their errors before anything is written, and its writes append the
count, the payload and the pad to the serialized tree. -/

namespace Sys2Proof.Machine

/-! ## ENC's checks -/

section EncTreeWritten
variable {s : State} (hp : s.phase = .treeWritten)
include hp

theorem exec_enc_treeWritten : exec .enc s = runCmd enc s :=
  exec_legal rfl (by simp [hp]) (decide_eq_true hp)

/-- An error that ENC raises where it began (44_encoder.md R98). -/
theorem exec_enc_enters {e : ErrorCode} (he : enc s = .error e s) :
    ∃ t, exec .enc s = .next t ∧ EntersError e s t :=
  ⟨_, (exec_enc_treeWritten hp).trans (runCmd_error he), errorEntry_enters e s⟩

/-- In TREE_WRITTEN the code map and the stream so far are those of TREE (10_state.md R19). -/
theorem Inv.treeWritten_tree {tr : HuffTree} (h : Inv s) (ht : s.tree = some tr) :
    CodesOf tr s ∧ outStream s = serBits tr ∧ streamLen s = treeBits tr := by
  obtain ⟨-, ⟨tr', ⟨htree, -⟩, hcodes, hstream⟩, -⟩ := h.treeWritten hp
  obtain rfl : tr' = tr := Option.some.inj (htree.symm.trans ht)
  exact ⟨hcodes, hstream, by rw [← outStream_length, hstream, serBits_length]⟩

end EncTreeWritten

/-- Settles O29: each check is one branch of `enc`, and it raises in the state ENC began in. -/
theorem encChecksInOrder : Obligations.EncChecksInOrder := fun _ hp =>
  ⟨fun hl => exec_enc_enters hp (enc_range hl), fun hl h0 => exec_enc_enters hp (enc_empty hl h0),
    fun hl h0 hu => exec_enc_enters hp (enc_unmapped hl h0 hu)⟩

/-! ## The payload count -/

/-- A sum over a list of symbols, collected by symbol. -/
theorem sum_map_eq_sum_alphabet (l : List Symbol) (f : Symbol → Nat) :
    (l.map f).sum = (alphabet.map fun sym => l.count sym * f sym).sum := by
  have hsub : l.toFinset ⊆ alphabet.toFinset := fun sym _ => List.mem_toFinset.2 (mem_alphabet sym)
  calc (l.map f).sum = ∑ sym ∈ l.toFinset, l.count sym * f sym := Finset.sum_list_map_count l f
    _ = ∑ sym ∈ alphabet.toFinset, l.count sym * f sym :=
      Finset.sum_subset hsub fun sym _ hsym => by
        rw [List.count_eq_zero_of_not_mem (mt List.mem_toFinset.2 hsym), Nat.zero_mul]
    _ = (alphabet.map fun sym => l.count sym * f sym).sum := List.sum_toFinset _ alphabet_nodup

/-- The count is at most the code limit for each of the most bytes an input can have (44_encoder.md R99). -/
theorem Inv.payloadCount_le {s : State} (h : Inv s) (hl : s.inLen ≤ s.inCap) : payloadCount s ≤ 255 * 2 ^ 56 :=
  (Machine.payloadCount_le s).trans (Nat.mul_le_mul_left 255 ((BitVec.le_def.1 hl).trans h.inCap.2))

/-- Settles O31: the sum of the code lengths is the length of the concatenated codes, and collected by symbol it counts each
code length as often as its symbol occurs. -/
theorem payloadCountIsExact : Obligations.PayloadCountIsExact := by
  intro s h hp hl
  obtain ⟨-, ⟨tr, -, hcodes, -⟩, -⟩ := h.treeWritten hp
  refine ⟨h.payloadCount_le hl, h.payloadCount_lt hl, payloadCount_eq hcodes, fun hfreq => ?_⟩
  simp only [hfreq]
  exact sum_map_eq_sum_alphabet (inputBytes s) fun sym => (codeLenOf s sym).toNat

/-! ## The writes of ENC -/

/-- The payload's length as ENC writes it to N_BITS (44_encoder.md R98). -/
def payloadReg (s : State) : Reg := BitVec.ofNat 64 (payloadBits s).length

@[simp] theorem outStream_setNBits (s : State) (n : Reg) : outStream (s.setNBits n) = outStream s := rfl

@[simp] theorem streamLen_setNBits (s : State) (n : Reg) : streamLen (s.setNBits n) = streamLen s := rfl

section EncWrites
variable {s : State} {tr : HuffTree} (h : Inv s) (hp : s.phase = .treeWritten) (ht : s.tree = some tr)
  (hl : s.inLen ≤ s.inCap)
include h hp ht hl

theorem payloadReg_toNat : (payloadReg s).toNat = (payloadBits s).length := by
  obtain ⟨hcodes, -⟩ := h.treeWritten_tree hp ht
  rw [payloadReg, BitVec.toNat_ofNat, ← payloadCount_eq hcodes, Nat.mod_eq_of_lt (h.payloadCount_lt hl)]

variable (h0 : s.inLen ≠ 0) (hm : ∀ i, i < s.inLen.toNat → codeLenOf s (inByte s i) ≠ 0)
include h0 hm

theorem enc_encWrite : enc s = encWrite (payloadReg s) (payloadBits s) (s.setNBits (payloadReg s)) := by
  obtain ⟨hcodes, -⟩ := h.treeWritten_tree hp ht
  rw [enc_body hl h0 hm, payloadCount_eq hcodes, payloadReg]

/-- ENC past its checks, when the whole stream fits (44_encoder.md R98). -/
theorem exec_enc_ok (hfits : (treeBits tr + 64 + (payloadBits s).length + 7) / 8 ≤ s.outCap.toNat) :
    ∃ u, exec .enc s = .next u.finished ∧ u.wcnt = 0 ∧ Wrote (s.setNBits (payloadReg s)) u
      (msbFirst (payloadReg s) ++ payloadBits s ++ padBits (treeBits tr + 64 + (payloadBits s).length)) := by
  obtain ⟨-, -, hlen⟩ := h.treeWritten_tree hp ht
  obtain ⟨u, hu, hwcnt, hwrote⟩ := encWrite_ok (n := payloadReg s) (payload := payloadBits s)
    (s := s.setNBits (payloadReg s)) h.outLen (by rwa [streamLen_setNBits, hlen])
  rw [streamLen_setNBits, hlen] at hwrote
  exact ⟨u, (exec_enc_treeWritten hp).trans (runCmd_ok ((enc_encWrite h hp ht hl h0 hm).trans hu)), hwcnt, hwrote⟩

/-- ENC past its checks, when the stream does not fit: N_BITS is written, and the bytes stored before the overflow are behind
the error entry (44_encoder.md R98; 60_exceptions.md R110). -/
theorem exec_enc_full (hfull : s.outCap.toNat < (treeBits tr + 64 + (payloadBits s).length + 7) / 8) :
    ∃ t, exec .enc s = .next t ∧ EntersError .outputOverflow (s.setNBits (payloadReg s)) t := by
  obtain ⟨-, -, hlen⟩ := h.treeWritten_tree hp ht
  obtain ⟨u, hu, hframe⟩ := encWrite_full (n := payloadReg s) (payload := payloadBits s)
    (s := s.setNBits (payloadReg s)) h.outLen (by rwa [streamLen_setNBits, hlen])
  exact ⟨_, (exec_enc_treeWritten hp).trans (runCmd_error ((enc_encWrite h hp ht hl h0 hm).trans hu)), hframe.enters _⟩

end EncWrites

/-- Settles O30: ENC appends the count, the payload and the pad to a stream that holds `serBits` of TREE, and the pad ends it
at the byte boundary that OUT_LEN counts. -/
theorem encWritesTheStream : Obligations.EncWritesTheStream := by
  intro s tr payload h hp ht hl h0 hm hpayload
  obtain rfl : payload = payloadBits s := hpayload.trans (payloadBits_eq s).symm
  refine ⟨fun hfits => ?_, exec_enc_full h hp ht hl h0 hm⟩
  obtain ⟨u, henc, hwcnt, hwrote⟩ := exec_enc_ok h hp ht hl h0 hm hfits
  obtain ⟨-, hstream, hlen⟩ := h.treeWritten_tree hp ht
  have hnBits : u.finished.nBits = payloadReg s := congrArg State.nBits hwrote.others
  refine ⟨u.finished, henc, rfl, ?_, hwcnt, ?_, ?_, ?_, hwrote.outside⟩
  · rw [hnBits, payloadReg_toNat h hp ht hl]
  · obtain ⟨houtLen, -⟩ := stream_div hwrote.streamLen
    rwa [streamLen_setNBits, hlen, List.length_append, List.length_append, msbFirst_length, ← Nat.add_assoc,
      ← Nat.add_assoc, pad_div] at houtLen
  · have happend : outStream u.finished = _ := hwrote.stream
    rw [happend, outStream_setNBits, hstream, hnBits]
    simp only [List.append_assoc]
  · rw [hnBits]
    exact congrArg State.finished hwrote.others

end Sys2Proof.Machine

/-! # The bit stream decoder

DEC in MAP_READY of a decompression (45_decoder.md): past its checks it is `decLoop` from the state that has read the count,
and what that loop does with a sequence of codes, and with bits that are none, decides how the command ends. -/

namespace Sys2Proof.Machine

/-! ## DEC's checks and its count -/

/-- The state in which DEC has read its count `n`, the reader at the payload's first bit (45_decoder.md R101). -/
def State.counted (s : State) (n : Reg) : State := (s.readTo (s.rpos.toNat + 64)).setNBits n

theorem exec_dec_mapReady {s : State} (hp : s.phase = .mapReady) (hd : s.dir = .decompress) :
    exec .dec s = runCmd dec s :=
  exec_legal rfl (by simp [hp]) (decide_eq_true ⟨hp, hd⟩)

/-- In MAP_READY the code map is that of TREE (10_state.md R19). -/
theorem Inv.mapReady_codes {s : State} {tr : HuffTree} (h : Inv s) (hp : s.phase = .mapReady) (ht : s.tree = some tr) :
    CodesOf tr s := by
  obtain ⟨⟨tr', htree, -, hcodes, -⟩, -⟩ := h.mapReady hp
  obtain rfl : tr' = tr := Option.some.inj (htree.symm.trans ht)
  exact hcodes

theorem Inv.mapReady_outLen {s : State} (h : Inv s) (hp : s.phase = .mapReady) : s.outLen = 0 := by
  obtain ⟨-, ⟨houtLen, -⟩, -⟩ := h.mapReady hp
  exact houtLen

theorem Inv.counted_outLen {s : State} {n : Reg} (h : Inv s) (hp : s.phase = .mapReady) :
    (s.counted n).outLen.toNat = 0 :=
  congrArg BitVec.toNat (h.mapReady_outLen hp)

/-- Settles O33: both errors are raised before N_BITS is written. -/
theorem decEarlyErrors : Obligations.DecEarlyErrors := fun _ h hp hd =>
  ⟨fun hl => ⟨_, (exec_dec_mapReady hp hd).trans (runCmd_error (dec_range hl)), errorEntry_enters _ _⟩,
    fun hl hshort => ⟨_, (exec_dec_mapReady hp hd).trans (runCmd_error (dec_short hl (h.inLen_lt hl) hshort)),
      errorEntry_enters _ _⟩⟩

/-- An error raised after storing and reading alone leaves the host-visible state as it was, but for RPOS. -/
theorem Stored.enters {s u : State} {syms : List Symbol} (h : Stored s u syms) (e : ErrorCode) :
    EntersError e { s with rpos := u.rpos } (errorEntry e u) := by
  have henters := errorEntry_enters e u
  rw [h.others] at henters ⊢
  exact { henters with }

section Counted
variable {s : State} {n : Reg} (hp : s.phase = .mapReady) (hd : s.dir = .decompress) (hl : s.inLen ≤ s.inCap)
  (hlt : 8 * s.inLen.toNat < 2 ^ 64) (hcount : s.rpos.toNat + 64 ≤ 8 * s.inLen.toNat)

include hlt hcount in
theorem counted_rpos : (s.counted n).rpos.toNat = s.rpos.toNat + 64 := rpos_lt_of_le hlt hcount

variable (hn : inStream s s.rpos.toNat 64 = msbFirst n)
include hp hd hl hlt hcount hn

/-- DEC once its count is known (45_decoder.md R101). -/
theorem exec_dec_counted :
    exec .dec s = runCmd (decLoop n.toNat [] >>= fun _ => modify State.finished) (s.counted n) := by
  rw [exec_dec_mapReady hp hd, runCmd, runCmd, dec_count hl hlt hcount hn, State.counted]

theorem exec_dec_done {u : State} (hloop : decLoop n.toNat [] (s.counted n) = .ok () u) :
    exec .dec s = .next u.finished :=
  (exec_dec_counted hp hd hl hlt hcount hn).trans (runCmd_ok (cmd_bind_ok hloop))

theorem exec_dec_enters {u : State} {e : ErrorCode} {syms : List Symbol} {p : Nat}
    (hloop : decLoop n.toNat [] (s.counted n) = .error e u) (hstored : Stored (s.counted n) u syms)
    (hrpos : u.rpos.toNat = p) :
    ∃ t, exec .dec s = .next t ∧ EntersError e { s with nBits := n, rpos := BitVec.ofNat 64 p } t := by
  refine ⟨_, (exec_dec_counted hp hd hl hlt hcount hn).trans (runCmd_error (cmd_bind_error hloop)), ?_⟩
  rw [← hrpos, BitVec.ofNat_toNat, BitVec.setWidth_eq]
  exact hstored.enters e

end Counted

/-! ## A payload of codes -/

section Payload
variable {s : State} {tr : HuffTree} {n : Reg} {codes : List (BitString × Symbol)} (h : Inv s) (hp : s.phase = .mapReady)
  (ht : s.tree = some tr) (hl : s.inLen ≤ s.inCap) (hcodes : ∀ c ∈ codes, c ∈ leafCodes tr)
  (hroom : codes.length ≤ s.outCap.toNat)
include h hp ht hl hcodes hroom

/-- From the count on, DEC's loop stores the symbols of a sequence of codes that fits (45_decoder.md R101). -/
theorem decLoop_counted_codes {m : Nat}
    (hend : s.rpos.toNat + 64 + (codes.flatMap Prod.fst).length ≤ 8 * s.inLen.toNat)
    (hin : inStream s (s.rpos.toNat + 64) (codes.flatMap Prod.fst).length = codes.flatMap Prod.fst) :
    ∃ u, decLoop ((codes.flatMap Prod.fst).length + m) [] (s.counted n) = decLoop m [] u ∧
      Stored (s.counted n) u (codes.map Prod.snd) ∧
      u.rpos.toNat = s.rpos.toNat + 64 + (codes.flatMap Prod.fst).length := by
  have hrpos : (s.counted n).rpos.toNat = s.rpos.toNat + 64 := counted_rpos (h.inLen_lt hl) (by omega)
  have hloop := decLoop_codes (s := s.counted n) (n := m) (h.mapReady_codes hp ht).1 hcodes (h.inLen_lt hl)
    (by rw [hrpos]; exact hend) (by rw [hrpos]; exact hin) (by rw [h.counted_outLen hp, Nat.zero_add]; exact hroom)
  rwa [hrpos] at hloop

/-- Bits that no code begins, after such a sequence, leave the loop with them as its candidate (45_decoder.md R101). -/
theorem decLoop_counted_rest {rest : BitString} {m : Nat}
    (hend : s.rpos.toNat + 64 + (codes.flatMap Prod.fst).length + rest.length ≤ 8 * s.inLen.toNat)
    (hin : inStream s (s.rpos.toNat + 64) ((codes.flatMap Prod.fst).length + rest.length) =
      codes.flatMap Prod.fst ++ rest)
    (hrest : ∀ c ∈ leafCodes tr, ¬ c.1 <+: rest) :
    ∃ u, decLoop ((codes.flatMap Prod.fst).length + rest.length + m) [] (s.counted n) = decLoop m rest u ∧
      Stored (s.counted n) u (codes.map Prod.snd) ∧
      u.rpos.toNat = s.rpos.toNat + 64 + (codes.flatMap Prod.fst).length + rest.length := by
  rw [inStream_add] at hin
  obtain ⟨hinCodes, hinRest⟩ := List.append_inj hin (inStream_length _ _ _)
  obtain ⟨u, hu, hstored, hrpos⟩ := decLoop_counted_codes (n := n) (m := rest.length + m) h hp ht hl hcodes hroom
    (by omega) hinCodes
  have hlt : 8 * u.inLen.toNat < 2 ^ 64 := hstored.inLen ▸ h.inLen_lt hl
  have hle : u.rpos.toNat + rest.length ≤ 8 * u.inLen.toNat := by rw [hstored.inLen, hrpos]; exact hend
  have hnone : ∀ k, k ≠ [] → k <+: rest → dmapFind (leafCodes tr) ([] ++ k) = none := by
    intro k _ hpre
    rw [List.nil_append, dmapFind_eq_none]
    intro hk
    obtain ⟨c, hc, rfl⟩ := List.mem_map.1 hk
    exact hrest c hc hpre
  have hloop := decLoop_rest (n := m) (cand := []) (hstored.dmap.trans (h.mapReady_codes hp ht).1) hnone hlt
    hle (by rw [hrpos, hstored.inStream]; exact hinRest)
  refine ⟨u.readTo (u.rpos.toNat + rest.length), ?_, hstored.readTo _, ?_⟩
  · rw [Nat.add_assoc, hu, hloop, List.nil_append]
  · rw [rpos_lt_of_le hlt hle, hrpos]

omit hroom in
/-- A further code, when OUT_MEM is full, raises OUTPUT_OVERFLOW at its last bit (45_decoder.md R101). -/
theorem decLoop_counted_full {c : BitString × Symbol} {m : Nat} (hc : c ∈ leafCodes tr)
    (hfull : codes.length = s.outCap.toNat)
    (hend : s.rpos.toNat + 64 + (codes.flatMap Prod.fst).length + c.1.length ≤ 8 * s.inLen.toNat)
    (hin : inStream s (s.rpos.toNat + 64) ((codes.flatMap Prod.fst).length + c.1.length) =
      codes.flatMap Prod.fst ++ c.1) :
    ∃ u, decLoop ((codes.flatMap Prod.fst).length + c.1.length + m) [] (s.counted n) = .error .outputOverflow u ∧
      Stored (s.counted n) u (codes.map Prod.snd) ∧
      u.rpos.toNat = s.rpos.toNat + 64 + (codes.flatMap Prod.fst).length + c.1.length := by
  rw [inStream_add] at hin
  obtain ⟨hinCodes, hinCode⟩ := List.append_inj hin (inStream_length _ _ _)
  obtain ⟨u, hu, hstored, hrpos⟩ := decLoop_counted_codes (n := n) (m := c.1.length + m) h hp ht hl hcodes hfull.le
    (by omega) hinCodes
  have hlt : 8 * u.inLen.toNat < 2 ^ 64 := hstored.inLen ▸ h.inLen_lt hl
  have hle : u.rpos.toNat + c.1.length ≤ 8 * u.inLen.toNat := by rw [hstored.inLen, hrpos]; exact hend
  have hlast := decLoop_code (n := m) (cand := []) (rest := c.1)
    (hstored.dmap.trans (h.mapReady_codes hp ht).1) hc (leafCodes_ne_nil hc) hlt hle
    (by rw [hrpos, hstored.inStream]; exact hinCode)
  have hno : u.outLen = u.outCap := BitVec.eq_of_toNat_eq (by
    rw [hstored.outLen, h.counted_outLen hp, List.length_map, Nat.zero_add, hfull, hstored.outCap]; rfl)
  refine ⟨u.readTo (u.rpos.toNat + c.1.length), ?_, hstored.readTo _, ?_⟩
  · rw [Nat.add_assoc, hu, hlast]
    exact cmd_bind_error (storeByte_full c.2 hno)
  · rw [rpos_lt_of_le hlt hle, hrpos]

end Payload

/-- Settles O32: the codes use up the budget, and the loop ends with an empty candidate. -/
theorem decDecodesThePayload : Obligations.DecDecodesThePayload := by
  intro s tr n codes h hp hd ht hl hend hn hcodes hin hroom
  have hbudget : n.toNat = (codes.flatMap Prod.fst).length := by rw [← hin, inStream_length]
  rw [hbudget] at hin hend
  obtain ⟨u, hu, hstored, hrpos⟩ := decLoop_counted_codes (n := n) (m := 0) h hp ht hl hcodes hroom hend hin
  have hdone : exec .dec s = .next u.finished :=
    exec_dec_done hp hd hl (h.inLen_lt hl) (by omega) hn (by rw [hbudget]; exact hu)
  have houtLen : u.outLen.toNat = codes.length := by rw [hstored.outLen, h.counted_outLen hp, List.length_map, Nat.zero_add]
  have hnBits : u.nBits = n := congrArg State.nBits hstored.others
  refine ⟨_, hdone, hnBits, by rw [hbudget]; exact hrpos, houtLen, fun k hk => ?_, ?_, fun a ha => ?_⟩
  · have hbyte := hstored.bytes k (by rwa [List.length_map])
    rw [h.counted_outLen hp, Nat.zero_add, List.getElem_map] at hbyte
    exact hbyte
  · rw [show u.finished.nBits = n from hnBits]
    exact congrArg State.finished hstored.others
  · exact hstored.outside a (.inr (houtLen.trans_le ha))

/-- Settles O34: the loop meets the end of the input or of the budget with the rest as its candidate, or it meets the last
code with OUT_MEM full. -/
theorem decLoopErrors : Obligations.DecLoopErrors := by
  intro s tr n codes rest h hp hd ht hl hend hn hcodes hin
  have henters := @exec_dec_enters s n hp hd hl (h.inLen_lt hl) (by omega) hn
  refine ⟨fun hroom hrest hinput hlt => ?_, fun hroom hrest hne hbudget => ?_, fun hfull hbudget => ?_⟩
  · obtain ⟨m, hm⟩ := Nat.exists_eq_add_of_lt hlt
    obtain ⟨u, hu, hstored, hrpos⟩ := decLoop_counted_rest (n := n) (m := m + 1) h hp ht hl hcodes hroom hend hin hrest
    have hstop : 8 * u.inLen.toNat ≤ u.rpos.toNat := by rw [hstored.inLen, hrpos]; exact hinput.ge
    exact henters (by rw [hm, Nat.add_assoc _ m, hu, decLoop_end hstop]) hstored (hrpos.trans hinput)
  · obtain ⟨u, hu, hstored, hrpos⟩ := decLoop_counted_rest (n := n) (m := 0) h hp ht hl hcodes hroom hend hin hrest
    exact henters (by rw [← hbudget]; exact hu.trans (by simp [decLoop, hne])) hstored (by omega)
  · rw [inStream_add] at hin
    obtain ⟨hinCodes, -⟩ := List.append_inj hin (inStream_length _ _ _)
    obtain ⟨m, hm⟩ := Nat.exists_eq_add_of_le hbudget
    obtain ⟨before, c, rfl⟩ := (List.eq_nil_or_concat' codes).resolve_left (by rintro rfl; simp at hfull)
    simp only [List.flatMap_append, List.flatMap_singleton, List.length_append, List.length_singleton,
      ← Nat.add_assoc] at hfull hend hinCodes hm ⊢
    have hroom : before.length = s.outCap.toNat := Nat.succ.inj hfull
    obtain ⟨u, hu, hstored, hrpos⟩ := decLoop_counted_full (n := n) (m := m) h hp ht hl
      (fun d hd => hcodes d (List.mem_append_left _ hd)) (hcodes c (by simp)) hroom (by omega) hinCodes
    exact henters (by rw [hm, hu]) hstored hrpos

/-! ## Other bits of IN_MEM -/

/-- The state with other contents of IN_MEM (20_memory.md R44). -/
def State.withInput (s : State) (m : Memory) : State := { s with inMem := m }

/-- The end of a command, with other contents of IN_MEM in the state it has reached. -/
def endWithInput {α : Type} (m : Memory) : EStateM.Result ErrorCode State α → EStateM.Result ErrorCode State α
  | .ok a t => .ok a (t.withInput m)
  | .error e t => .error e (t.withInput m)

section WithInput
variable {m : Memory}

theorem runCmd_withInput {c : Cmd Unit} {s t : State} (hc : c (s.withInput m) = endWithInput m (c s))
    (h : runCmd c s = .next t) : runCmd c (s.withInput m) = .next (t.withInput m) := by
  rcases runCmd_cases h with hok | ⟨e, u, herr, rfl⟩
  · exact runCmd_ok (by rw [hc, hok]; rfl)
  · exact runCmd_error (t := u.withInput m) (by rw [hc, herr]; rfl)

theorem bind_withInput {α β : Type} {c : Cmd α} {k : α → Cmd β} {s : State}
    (hc : c (s.withInput m) = endWithInput m (c s))
    (hk : ∀ a t, c s = .ok a t → k a (t.withInput m) = endWithInput m (k a t)) :
    (c >>= k) (s.withInput m) = endWithInput m ((c >>= k) s) := by
  cases h : c s with
  | ok a t => rw [h] at hc; rw [cmd_bind_ok hc, cmd_bind_ok h, hk a t h]
  | error e t => rw [h] at hc; rw [cmd_bind_error hc, cmd_bind_error h]; rfl

theorem storeByte_eq_ok {v : Byte} {s t : State} (h : storeByte v s = .ok () t) : t = s.putOut v := by
  rw [storeByte] at h
  split at h <;> cases h
  rfl

theorem storeByte_withInput (v : Byte) (s : State) : storeByte v (s.withInput m) = endWithInput m (storeByte v s) := by
  by_cases hfull : s.outLen = s.outCap
  · rw [storeByte_full v hfull, storeByte_full v (s := s.withInput m) hfull]; rfl
  · have hstore : storeByte v s = .ok () (s.putOut v) := if_neg hfull
    have hstore' : storeByte v (s.withInput m) = .ok () ((s.withInput m).putOut v) := if_neg hfull
    rw [hstore, hstore']; rfl

/-- DEC's loop depends on no bit after its budget (45_decoder.md R102). -/
theorem decLoop_withInput {n : Nat} {cand : BitString} {s : State} (hlt : 8 * s.inLen.toNat < 2 ^ 64)
    (hn : s.rpos.toNat + n ≤ 8 * s.inLen.toNat)
    (hbits : ∀ p, p < s.rpos.toNat + n → inBit (s.withInput m) p = inBit s p) :
    decLoop n cand (s.withInput m) = endWithInput m (decLoop n cand s) := by
  induction n generalizing cand s with
  | zero => by_cases hcand : cand = [] <;> simp [decLoop, hcand, endWithInput]
  | succ n ih =>
    have hread : s.rpos.toNat < 8 * s.inLen.toNat := by omega
    have hbit : inBit (s.withInput m) (s.withInput m).rpos.toNat = inBit s s.rpos.toNat := hbits _ (by
      change s.rpos.toNat < _; omega)
    have hrpos : (s.readTo (s.rpos.toNat + 1)).rpos.toNat = s.rpos.toNat + 1 := rpos_lt_of_le hlt hread
    have hn' : s.rpos.toNat + 1 + n ≤ 8 * s.inLen.toNat := by omega
    have hbits' : ∀ p, p < s.rpos.toNat + 1 + n → inBit (s.withInput m) p = inBit s p := fun p hp => hbits p (by omega)
    rw [← hrpos] at hn' hbits'
    cases hm : dmapFind s.dmap (cand ++ [inBit s s.rpos.toNat]) with
    | none =>
      rw [decLoop_none hread hm, decLoop_none (s := s.withInput m) hread (by rw [hbit]; exact hm), hbit]
      exact ih (s := s.readTo (s.rpos.toNat + 1)) hlt hn' hbits'
    | some v =>
      rw [decLoop_some hread hm, decLoop_some (s := s.withInput m) hread (by rw [hbit]; exact hm)]
      refine bind_withInput (storeByte_withInput v (s.readTo (s.rpos.toNat + 1))) fun _ t ht => ?_
      obtain rfl := storeByte_eq_ok ht
      exact ih (s := (s.readTo (s.rpos.toNat + 1)).putOut v) hlt hn' hbits'

end WithInput

/-- Settles O35: the two inputs hold the same count, and `decLoop` with it as its budget meets no other bit. -/
theorem decReadsOnlyItsBudget : Obligations.DecReadsOnlyItsBudget := by
  intro s t m n h hp hd hl hend hn hbits hdec
  have hlt := h.inLen_lt hl
  have hcount : s.rpos.toNat + 64 ≤ 8 * s.inLen.toNat := by omega
  have hn' : inStream (s.withInput m) s.rpos.toNat 64 = msbFirst n := hn ▸ List.map_congr_left fun k hk =>
    hbits _ (by have := List.mem_range.1 hk; omega)
  have hrpos : (s.counted n).rpos.toNat = s.rpos.toNat + 64 := counted_rpos hlt hcount
  rw [exec_dec_counted hp hd hl hlt hcount hn] at hdec
  refine (exec_dec_counted (s := s.withInput m) hp hd hl hlt hcount hn').trans (runCmd_withInput ?_ hdec)
  exact bind_withInput (decLoop_withInput hlt (by rw [hrpos]; exact hend) (by rw [hrpos]; exact hbits)) fun _ _ _ => rfl

/-! ## An empty payload, and the payload of a compression -/

theorem not_enters_of_next {i : Instr} {s s' t : State} {e : ErrorCode} (h : exec i s = .next t) (hp : t.phase ≠ .error) :
    ¬ ∃ u, exec i s = .next u ∧ EntersError e s' u := by
  rintro ⟨u, hu, henters⟩
  rw [h] at hu; cases hu
  exact hp henters.phase

/-- An ENC that ends in DONE has passed its checks (44_encoder.md R98). -/
theorem exec_enc_checks {s t : State} (hp : s.phase = .treeWritten) (henc : exec .enc s = .next t)
    (hdone : t.phase = .done) :
    s.inLen ≤ s.inCap ∧ s.inLen ≠ 0 ∧ ∀ i, i < s.inLen.toNat → codeLenOf s (inByte s i) ≠ 0 := by
  obtain ⟨hrange, hempty, hunmapped⟩ := encChecksInOrder s hp
  have hno {e} := not_enters_of_next (s' := s) (e := e) henc (by simp [hdone])
  have hl : s.inLen ≤ s.inCap := BitVec.not_lt.1 fun hgt => hno (hrange hgt)
  have h0 : s.inLen ≠ 0 := fun h0 => hno (hempty hl h0)
  exact ⟨hl, h0, fun i hi hz => hno (hunmapped hl h0 ⟨i, hi, hz⟩)⟩

/-- What an ENC that ends in DONE leaves: the whole stream, a count that is the payload's length, and no held bits
(44_encoder.md R98; 30_encoding.md R73). -/
theorem exec_enc_stream {s t : State} {tr : HuffTree} (h : Inv s) (hp : s.phase = .treeWritten) (ht : s.tree = some tr)
    (henc : exec .enc s = .next t) (hdone : t.phase = .done) :
    t.nBits.toNat = (payloadBits s).length ∧ t.wcnt = 0 ∧
      outStream t = serBits tr ++ msbFirst t.nBits ++ payloadBits s ++
        padBits (treeBits tr + 64 + (payloadBits s).length) := by
  obtain ⟨hl, h0, hm⟩ := exec_enc_checks hp henc hdone
  obtain ⟨hok, hfull⟩ := encWritesTheStream s tr (payloadBits s) h hp ht hl h0 hm (payloadBits_eq s)
  rcases Nat.lt_or_ge s.outCap.toNat ((treeBits tr + 64 + (payloadBits s).length + 7) / 8) with hlt | hge
  · exact absurd (hfull hlt) (not_enters_of_next henc (by simp [hdone]))
  · obtain ⟨u, hu, -, hnBits, hwcnt, -, hstream, -⟩ := hok hge
    rw [henc] at hu; cases hu
    exact ⟨hnBits, hwcnt, hstream⟩

/-- Settles O36: a budget of 0 ends the loop where it begins, and the first byte of a compression has a code. -/
theorem emptyPayloadAccepted : Obligations.EmptyPayloadAccepted := by
  refine ⟨fun s h hp hd hl hcount hn => ⟨?_, h.mapReady_outLen hp⟩, fun s t h hp henc hdone => ?_⟩
  · have hrpos : BitVec.ofNat 64 (s.rpos.toNat + 64) = s.rpos + 64 := by simp [BitVec.ofNat_add]
    rw [← hrpos]
    exact exec_dec_done hp hd hl (h.inLen_lt hl) hcount hn rfl
  · obtain ⟨-, ⟨tr, ⟨ht, -⟩, hcodes, -⟩, -⟩ := h.treeWritten hp
    obtain ⟨-, h0, hm⟩ := exec_enc_checks hp henc hdone
    obtain ⟨hnBits, -⟩ := exec_enc_stream h hp ht henc hdone
    have hpos : 0 < s.inLen.toNat := Nat.pos_of_ne_zero fun he => h0 (BitVec.eq_of_toNat_eq he)
    have hne : payloadBits s ≠ [] := by
      rw [payloadBits_eq, Ne, List.flatMap_eq_nil_iff]
      exact fun hnil => hm 0 hpos ((codeLenOf_eq_zero hcodes _).2 (hnil 0 (List.mem_range.2 hpos)))
    rw [hnBits]
    exact List.length_pos_of_ne_nil hne

/-! ## The walk of the tree -/

theorem cmd_bind_congr {α β : Type} {c c' : Cmd α} {k k' : α → Cmd β} {s : State} (hc : c s = c' s)
    (hk : ∀ a t, c s = .ok a t → k a t = k' a t) : (c >>= k) s = (c' >>= k') s := by
  cases h : c s with
  | ok a t => rw [cmd_bind_ok h, cmd_bind_ok (hc ▸ h), hk a t h]
  | error e t => rw [cmd_bind_error h, cmd_bind_error (hc ▸ h)]

/-- DEC's stream with another loop is the same if the loops are, where DMAP is that of the state DEC began in. -/
theorem decStream_eq_of_loop {s : State} {loop : Nat → Cmd Unit}
    (hloop : ∀ n u, u.dmap = s.dmap → decLoop n [] u = loop n u) :
    decStream s = (do
      let n ← readBits 64 .malformedStream
      modify (fun s : State => s.setNBits n)
      loop n.toNat
      modify State.finished : Cmd Unit) s := by
  refine cmd_bind_congr rfl fun n u hu => ?_
  have hdmap : u.dmap = s.dmap := (keeps_readBits (f := State.dmap) (fun _ => rfl) 64 _).ok hu
  rw [cmd_bind_ok (cmd_modify _ u), cmd_bind_ok (cmd_modify _ u)]
  exact cmd_bind_congr (hloop n.toNat (u.setNBits n) hdmap) fun _ _ _ => rfl

/-- Settles O37: the two commands differ in the loop alone, and the loops agree on the code map of TREE. -/
theorem decIsATreeWalk : Obligations.DecIsATreeWalk := by
  intro s tr h hp hd ht
  have hcodes := (h.mapReady_codes hp ht).1
  have hdec : dec s = decByWalk tr s := by
    rw [dec, decByWalk]
    refine if_congr Iff.rfl rfl ?_
    cases tr with
    | leaf v => exact decStream_eq_of_loop fun n u hu => decLoop_eq_decSingle (hu.trans hcodes) (.inl rfl)
    | node l r => exact decStream_eq_of_loop fun n u hu => decLoop_eq_decWalk (hu.trans hcodes) rfl
  rw [exec_dec_mapReady hp hd, runCmd, runCmd, hdec]

/-! ## The round trip -/

/-- An ENC that ends in DONE began in TREE_WRITTEN (30_encoding.md R69). -/
theorem exec_enc_phase {s t : State} (henc : exec .enc s = .next t) (hdone : t.phase = .done) :
    s.phase = .treeWritten := by
  by_contra hp
  by_cases he : s.phase = .error
  · rw [exec_error (by decide) he] at henc; cases henc
    rw [he] at hdone; cases hdone
  · exact not_enters_of_next henc (by simp [hdone]) (exec_enters_sequence rfl he (decide_eq_false hp))

/-- The payload of ENC as a sequence of codes, each with the input byte it stands for (44_encoder.md R98). -/
def payloadCodes (s : State) : List (BitString × Symbol) := (inputBytes s).map fun b => (codeOf s b, b)

theorem payloadCodes_bits (s : State) : (payloadCodes s).flatMap Prod.fst = payloadBits s := by
  rw [payloadCodes, List.flatMap_map, payloadBits]

theorem payloadCodes_length (s : State) : (payloadCodes s).length = s.inLen.toNat := by
  simp [payloadCodes, inputBytes]

theorem payloadCodes_symbol (s : State) {k : Nat} (hk : k < (payloadCodes s).length) :
    (payloadCodes s)[k].2 = inByte s k := by
  simp [payloadCodes, inputBytes]

theorem payloadCodes_mem {s : State} {tr : HuffTree} (hcodes : CodesOf tr s)
    (hm : ∀ i, i < s.inLen.toNat → codeLenOf s (inByte s i) ≠ 0) : ∀ c ∈ payloadCodes s, c ∈ leafCodes tr := by
  simp only [payloadCodes, inputBytes, List.map_map, List.mem_map, List.mem_range, Function.comp]
  rintro _ ⟨i, hi, rfl⟩
  have hne : codeOf s (inByte s i) ≠ [] := mt (codeLenOf_eq_zero hcodes _).2 (hm i hi)
  rw [hcodes.code] at hne ⊢
  exact lastCode_mem hne

/-- DSR, MAP and DEC in a fresh session, when the input begins with a tree, a count and as many bits of codes: the codes'
symbols are stored (43_tree_serializer.md R94; 42_code_map.md R87; 45_decoder.md R101). -/
theorem decompress_stream {s : State} {tr : HuffTree} {n : Reg} {codes : List (BitString × Symbol)} (h : Inv s)
    (hp : s.phase = .idle) (hl : s.inLen ≤ s.inCap) (hi : internalCount tr ≤ 255) (hcodes : ∀ c ∈ codes, c ∈ leafCodes tr)
    (hend : treeBits tr + 64 + n.toNat ≤ 8 * s.inLen.toNat)
    (hin : inStream s 0 (treeBits tr + 64 + n.toNat) = serBits tr ++ msbFirst n ++ codes.flatMap Prod.fst)
    (hroom : codes.length ≤ s.outCap.toNat) :
    ∃ t u v, exec .dsr s = .next t ∧ exec .map t = .next u ∧ exec .dec u = .next v ∧ v.phase = .done ∧
      v.outLen.toNat = codes.length ∧ ∀ k (hk : k < codes.length), outByte v k = codes[k].2 := by
  rw [inStream_add, inStream_add, Nat.zero_add, Nat.zero_add] at hin
  obtain ⟨hinHead, hinPayload⟩ := List.append_inj hin (by simp [inStream_length])
  obtain ⟨hinTree, hinCount⟩ := List.append_inj hinHead (by simp [inStream_length])
  have hdsr := exec_dsr_ok h hp hl hi (by omega) hinTree
  have hmap : exec .map ((s.readTo (treeBits tr)).treeRead tr) = _ := exec_map_ok rfl rfl
  have hinv := (h.exec hdsr).exec hmap
  have hframe := deriveMaps_frame tr ((s.readTo (treeBits tr)).treeRead tr)
  generalize deriveMaps tr ((s.readTo (treeBits tr)).treeRead tr) = u at hmap hinv hframe
  have hrpos : u.rpos.toNat = treeBits tr := by rw [hframe]; exact treeRead_rpos s hi
  have hinLen : u.inLen = s.inLen := by rw [hframe]; rfl
  have hstream (p k : Nat) : inStream u p k = inStream s p k := by rw [hframe]; rfl
  obtain ⟨v, hdec, -, -, houtLen, hbytes, hv, -⟩ := decDecodesThePayload u tr n codes hinv (by rw [hframe])
    (by rw [hframe]; rfl) (by rw [hframe]; rfl) (by rw [hframe]; exact hl) (by rw [hrpos, hinLen]; exact hend)
    (by rw [hrpos, hstream]; exact hinCount) hcodes (by rw [hrpos, hstream]; exact hinPayload)
    (by rw [hframe]; exact hroom)
  exact ⟨_, u, v, hdsr, hmap, hdec, congrArg State.phase hv, houtLen, hbytes⟩

/-- An input that is a copy of the bytes of a stream with no held bits holds its bits (20_memory.md R46). -/
theorem inStream_eq_of_bytes {c d : State} (hwcnt : c.wcnt = 0)
    (hbytes : ∀ i, i < c.outLen.toNat → inByte d i = outByte c i) : inStream d 0 (streamLen c) = outStream c := by
  refine inStream_eq_outStream fun p hp => ?_
  have hin : p / 8 < c.outLen.toNat := by
    simp only [streamLen, hwcnt] at hp
    simp at hp; omega
  rw [inBit, outBit, if_pos hin, hbytes _ hin]

/-- A copy of what an ENC that ends in DONE has left begins with the tree, the count and the payload (30_encoding.md R73). -/
theorem inStream_of_enc {c c' d : State} {tr : HuffTree} (h : Inv c) (hp : c.phase = .treeWritten)
    (ht : c.tree = some tr) (henc : exec .enc c = .next c') (hdone : c'.phase = .done) (hlen : d.inLen = c'.outLen)
    (hbytes : ∀ i, i < c'.outLen.toNat → inByte d i = outByte c' i) :
    treeBits tr + 64 + c'.nBits.toNat ≤ 8 * d.inLen.toNat ∧
      inStream d 0 (treeBits tr + 64 + c'.nBits.toNat) = serBits tr ++ msbFirst c'.nBits ++ payloadBits c := by
  obtain ⟨hnBits, hwcnt, hstream⟩ := exec_enc_stream h hp ht henc hdone
  have hbits := (inStream_eq_of_bytes hwcnt hbytes).trans hstream
  have hinput : 8 * d.inLen.toNat = streamLen c' := by rw [hlen, streamLen, hwcnt]; rfl
  have hstreamLen : streamLen c' = treeBits tr + 64 + c'.nBits.toNat +
      (padBits (treeBits tr + 64 + (payloadBits c).length)).length := by
    rw [← outStream_length, hstream, hnBits]; simp [Nat.add_assoc]
  rw [hstreamLen, inStream_add] at hbits
  obtain ⟨hbits, -⟩ := List.append_inj hbits (by simp [inStream_length, hnBits, Nat.add_assoc])
  exact ⟨by omega, hbits⟩

/-- Settles O38: ENC leaves a tree, a count and codes, and `decompress_stream` stores the bytes that the codes stand for. -/
theorem compressDecompressRoundTrip : Obligations.CompressDecompressRoundTrip := by
  intro c0 c1 c2 c3 c4 d h0 _ hbld hmap hser henc hdone hd hidle hlen hl hbytes hroom
  have hinv : Inv c3 := ((h0.exec hbld).exec hmap).exec hser
  have hp := exec_enc_phase henc hdone
  obtain ⟨-, ⟨tr, ⟨ht, hnodup, -⟩, hcodes, -⟩, -⟩ := hinv.treeWritten hp
  obtain ⟨-, -, hm⟩ := exec_enc_checks hp henc hdone
  have hkept : hostInputs c3 = hostInputs c0 :=
    calc hostInputs c3 = hostInputs c2 := commandView_hostInputs.exec hser
      _ = hostInputs c1 := commandView_hostInputs.exec hmap
      _ = hostInputs c0 := commandView_hostInputs.exec hbld
  obtain ⟨-, hinLen, hinMem, hinDraw, -⟩ := hostInputs_eq_iff.1 hkept
  obtain ⟨hend, hbits⟩ := inStream_of_enc hinv hp ht henc hdone hlen hbytes
  rw [← payloadCodes_bits] at hbits
  obtain ⟨d1, d2, d3, hdsr, hmap', hdec, hd3, houtLen, hout⟩ := decompress_stream hd hidle hl
    (internalCount_le_of_nodup hnodup) (payloadCodes_mem hcodes hm) hend hbits
    (by rw [payloadCodes_length, hinLen]; exact hroom)
  rw [payloadCodes_length, hinLen] at houtLen
  refine ⟨d1, d2, d3, hdsr, hmap', hdec, hd3, BitVec.eq_of_toNat_eq houtLen, fun i hi => ?_⟩
  have hi : i < (payloadCodes c3).length := by rwa [payloadCodes_length, hinLen]
  rw [hout i hi, payloadCodes_symbol, inByte, inByte, hinMem, hinDraw]

end Sys2Proof.Machine

/-! # Errors, and runs that never stop

How a command ends in ERROR, what leaves ERROR (60_exceptions.md R109 to R113), and that nothing but a broken host duty stops
the machine (60_exceptions.md R108; 70_reset_and_hazards.md R125). -/

namespace Sys2Proof.Machine

/-! ## The idle machine -/

/-- Settles O10: a step serves the list's head, and there is none. -/
theorem idleMachineHoldsItsState : Obligations.IdleMachineHoldsItsState := fun s hh => by rw [step, hh]

/-! ## Leaving ERROR -/

/-- In ERROR Dispatch ignores every word but CLR's, a word that is no command included (30_encoding.md R70, R71). -/
theorem issue_ignored {w : Word} {s : State} (hp : s.phase = .error) (hw : w ≠ encode .clr) : issue w s = .next s := by
  cases hd : decode w with
  | instr i =>
    have hi : i ≠ .clr := by
      rintro rfl
      exact hw (eq_encode_of_decode hd).2
    rw [issue_instr hd]
    exact exec_error hi hp
  | illegal r => exact (issue_illegal hd s).1 hp

/-- Settles O9: of the host's actions only the reset input and a command word touch PHASE and ECODE, and in ERROR every word
but CLR's is ignored. -/
theorem onlyClrAndResetLeaveError : Obligations.OnlyClrAndResetLeaveError := by
  refine ⟨fun s _ => ⟨clearSession s, rfl, rfl, rfl, rfl⟩, fun s t hp ht hleft => ?_⟩
  have hchange : ¬ (t.phase = s.phase ∧ t.ecode = s.ecode) := by rwa [hp, not_and_or]
  rcases step_cases ht with ⟨-, rfl⟩ | ⟨op, rest, hh, -, ⟨rfl, -⟩ | ⟨v, rfl, hi⟩ | ⟨-, -, hreg | ⟨i, b, -, -, rfl⟩⟩⟩
  · exact absurd ⟨rfl, rfl⟩ hchange
  · exact ⟨rest, .inl hh⟩
  · refine ⟨rest, .inr ⟨v, hh, ?_⟩⟩
    by_contra hv
    rw [issue_ignored (s := { s with host := rest }) hp hv] at hi
    cases hi
    exact hchange ⟨rfl, rfl⟩
  · exact absurd (by rw [hreg]; exact ⟨rfl, rfl⟩) hchange
  · exact absurd ⟨rfl, rfl⟩ hchange

/-! ## How a command ends in ERROR -/

theorem phaseAfter_ne_error (i : Instr) {p : Phase} (hp : p ≠ .error) : phaseAfter i p ≠ .error := by
  cases i with
  | rdl | rdc => exact hp
  | _ => exact nofun

section ErrorEnd
variable {i : Instr} {s t : State} (ht : exec i s = .next t) (he : t.phase = .error)
include ht he

theorem ne_clr_of_error : i ≠ .clr := by
  rintro rfl
  cases ht
  cases he

/-- The ways a command ends in ERROR: Dispatch turns it away, or it is legal and raises an error of its own
(60_exceptions.md R109, R112). -/
theorem exec_error_cases (hp : s.phase ≠ .error) :
    (i.wellFormed = false ∧ t = errorEntry .illegalCommand s) ∨
      (legalTable i s.phase s.dir = false ∧ t = errorEntry .sequence s) ∨
      (legalTable i s.phase s.dir = true ∧ ∃ e u, e ∈ ownErrors i ∧ t = errorEntry e u) := by
  rcases exec_cases ht with ⟨rfl, -⟩ | ⟨-, hp', -⟩ | ⟨-, -, hill | ⟨-, hseq⟩ | ⟨-, hl, hb⟩⟩
  · exact absurd rfl (ne_clr_of_error ht he)
  · exact absurd hp' hp
  · exact .inl hill
  · exact .inr (.inl hseq)
  · rcases body_end hl hb with ⟨hphase, -⟩ | hown
    · exact absurd (hphase.symm.trans he) (phaseAfter_ne_error i hp)
    · exact .inr (.inr ⟨hl, hown⟩)

/-- A legal command that ends in an error keeps DIR: BLD and DSR write it at their end only (41_tree_builder.md R83;
43_tree_serializer.md R94). -/
theorem exec_dir_of_error (h : Inv s) (hl : legalTable i s.phase s.dir = true) : t.dir = s.dir := by
  by_cases hbld : i = .bld
  · subst hbld
    have hidle : s.phase = .idle := of_decide_eq_true hl
    by_cases hs : ∃ sym, freqOf s sym ≠ 0
    · obtain ⟨tr, hok, -⟩ := exec_bld_ok hidle hs
      rw [hok] at ht; cases ht; cases he
    · simp only [not_exists, not_not] at hs
      rw [exec_bld_empty hidle hs] at ht; cases ht; rfl
  by_cases hdsr : i = .dsr
  · subst hdsr
    have hidle : s.phase = .idle := of_decide_eq_true hl
    by_cases hc : s.inCap < s.inLen
    · rw [exec_dsr_range hidle hc] at ht; cases ht; rfl
    rcases exec_dsr_cases h hidle (BitVec.not_lt.1 hc) with ⟨tr, hok, -⟩ | ⟨p, herr, -⟩
    · rw [hok] at ht; cases ht; cases he
    · rw [herr] at ht; cases ht; rfl
  exact exec_dir ht (ne_clr_of_error ht he) hbld hdsr

end ErrorEnd

/-- A command that raises an error of its own leaves what the error entry leaves, RPOS and N_BITS as it wrote them
(60_exceptions.md R110). -/
theorem exec_enters_own {i : Instr} {e : ErrorCode} {s u : State} (h : Inv s)
    (hl : legalTable i s.phase s.dir = true) (hown : e ∈ ownErrors i) (ht : exec i s = .next (errorEntry e u)) :
    EntersError e { s with rpos := u.rpos, nBits := u.nBits } (errorEntry e u) := by
  have hclr : i ≠ .clr := ne_clr_of_error ht rfl
  have hldf : ∀ sym, i ≠ .ldf sym := by rintro sym rfl; cases hown
  have hrdl : ∀ sym, i ≠ .rdl sym := by rintro sym rfl; cases hown
  have hrdc : ∀ sym w, i ≠ .rdc sym w := by rintro sym w rfl; cases hown
  obtain ⟨harg, hinLen, hinMem, hinDraw, hinCap, houtCap, hbusy, hhost, hhostData⟩ :=
    commandsKeepTheHostsInputs i s _ ht
  have hdir : (errorEntry e u).dir = s.dir := exec_dir_of_error ht rfl h hl
  have hresult : (errorEntry e u).result = s.result := exec_result ht hclr hrdl hrdc
  have hfreq : (errorEntry e u).freq = s.freq := exec_freq ht hclr hldf
  exact
    { ecode := rfl, phase := rfl, outLen := rfl, rpos := rfl, nBits := rfl
      dir := hdir, result := hresult, freq := hfreq
      arg := harg, inLen := hinLen, inMem := hinMem, inDraw := hinDraw, inCap := hinCap, outCap := houtCap
      busy := hbusy, host := hhost, hostData := hhostData }

/-- Settles O41: an error of Dispatch is entered from the state itself, and one of the command by `exec_enters_own`. -/
theorem errorEntryLeaves : Obligations.ErrorEntryLeaves := by
  intro i s t h hp ht he
  have hclr : i ≠ .clr := ne_clr_of_error ht he
  refine and_assoc.1 ⟨?_, exec_rpos ht hclr, exec_nBits ht hclr⟩
  rcases exec_error_cases ht he hp with ⟨-, rfl⟩ | ⟨-, rfl⟩ | ⟨hl, e, u, hown, rfl⟩
  · exact ⟨nofun, errorEntry_enters _ s⟩
  · exact ⟨nofun, errorEntry_enters _ s⟩
  · obtain ⟨-, -, hnone⟩ := ownErrors_codes hown
    exact ⟨hnone, exec_enters_own h hl hown ht⟩

/-- Settles O42: the cases of `exec_error_cases`, by the code each records. -/
theorem errorsAreTheCommandsOwn : Obligations.ErrorsAreTheCommandsOwn := by
  intro i s t _ hp ht he
  rcases exec_error_cases ht he hp with ⟨hw, rfl⟩ | ⟨hl, rfl⟩ | ⟨hl, e, u, hown, rfl⟩
  · exact .inr (.inl ⟨hw, rfl⟩)
  · exact .inl ⟨hl, rfl⟩
  · exact .inr (.inr ⟨hl, hown⟩)

/-! ## Every command completes -/

theorem exists_runCmd (c : Cmd Unit) (s : State) : ∃ t, runCmd c s = .next t := by
  cases h : c s with
  | ok a t => exact ⟨t, runCmd_ok h⟩
  | error e t => exact ⟨_, runCmd_error h⟩

/-- A legal command's body answers a next state: MAP and SER find a tree, by the invariant (10_state.md R19). -/
theorem Inv.exists_body {i : Instr} {s : State} (h : Inv s) (hl : legalTable i s.phase s.dir = true) :
    ∃ t, Machine.body i s = .next t := by
  cases i with
  | clr | ldf | rdl | rdc => exact ⟨_, rfl⟩
  | bld | enc | dsr | dec => exact exists_runCmd _ s
  | map =>
    obtain ⟨⟨tr, htr, -⟩, -⟩ := h.treeReady (of_decide_eq_true hl)
    exact ⟨Machine.deriveMaps tr s, by simp only [Machine.body, htr]⟩
  | ser =>
    obtain ⟨hp, -⟩ : s.phase = .mapReady ∧ s.dir = .compress := of_decide_eq_true hl
    obtain ⟨⟨tr, htr, -⟩, -⟩ := h.mapReady hp
    simp only [Machine.body, htr]
    exact exists_runCmd _ s

/-- Settles O46: Dispatch answers in each of its cases, and a legal command by `Inv.exists_body`. -/
theorem commandsAlwaysComplete : Obligations.CommandsAlwaysComplete := by
  intro i s h
  by_cases hclr : i = .clr
  · exact ⟨clearSession s, hclr ▸ rfl⟩
  by_cases hp : s.phase = .error
  · exact ⟨s, exec_error hclr hp⟩
  cases hw : i.wellFormed with
  | false => exact ⟨_, exec_illegal hw hp⟩
  | true =>
    cases hl : legalTable i s.phase s.dir with
    | false => exact ⟨_, exec_sequence hw hp hl⟩
    | true =>
      rw [exec_legal hw hp hl]
      exact h.exists_body hl

/-! ## A host that keeps its duties -/

/-- A state of the invariant in which no pending action of the host breaks a duty (70_reset_and_hazards.md R125). -/
structure KeepsDuties (s : State) : Prop where
  inv : Inv s
  duties : ∀ op ∈ s.host, brokenDuty op s = none

theorem Inv.exists_issue {s : State} (h : Inv s) (w : Word) : ∃ t, Machine.issue w s = .next t := by
  cases hw : decode w with
  | instr i =>
    rw [issue_instr hw]
    exact commandsAlwaysComplete i s h
  | illegal r =>
    obtain ⟨hin, hout⟩ := issue_illegal hw s
    by_cases hp : s.phase = .error
    · exact ⟨s, hin hp⟩
    · exact ⟨_, hout hp⟩

/-- An action that breaks no duty is served; of these only the write to CMD needs the invariant. -/
theorem Inv.exists_hostAct {s : State} (h : Inv s) (op : HostOp) : ∃ t, hostAct op s = .next t := by
  cases op with
  | regRead off width => rw [hostAct]; split <;> exact ⟨_, rfl⟩
  | regWrite off width v =>
    rw [hostAct]
    split
    next r _ =>
      cases r with
      | cmd => exact h.exists_issue _
      | _ => exact ⟨_, rfl⟩
    · exact ⟨s, rfl⟩
  | _ => exact ⟨_, rfl⟩

theorem hostInputs_issue {w : Word} {s t : State} (ht : issue w s = .next t) : hostInputs t = hostInputs s := by
  cases hw : decode w with
  | instr i => rw [issue_instr hw] at ht; exact commandView_hostInputs.exec ht
  | illegal r =>
    obtain ⟨hin, hout⟩ := issue_illegal hw s
    by_cases hp : s.phase = .error
    · rw [hin hp] at ht; cases ht; rfl
    · rw [hout hp] at ht; cases ht; exact commandView_hostInputs.errors _ s

/-- A step takes the action it serves from the host's list and keeps the capacities (10_state.md R33). -/
theorem step_host_caps {s t : State} (ht : step s = .next t) :
    t.host = s.host.tail ∧ t.inCap = s.inCap ∧ t.outCap = s.outCap := by
  rcases step_cases ht with ⟨hh, rfl⟩ | ⟨op, rest, hh, -, hact⟩
  · exact ⟨by rw [hh, List.tail_nil], rfl, rfl⟩
  rw [hh, List.tail_cons]
  rcases hact with ⟨-, rfl⟩ | ⟨v, -, hi⟩ | ⟨-, -, hreg | ⟨i, b, -, -, rfl⟩⟩
  · exact ⟨rfl, rfl, rfl⟩
  · obtain ⟨-, -, -, -, hinCap, houtCap, -, hhost, -⟩ := hostInputs_eq_iff.1 (hostInputs_issue hi)
    exact ⟨hhost, hinCap, houtCap⟩
  · rw [hreg]; exact ⟨rfl, rfl, rfl⟩
  · exact ⟨rfl, rfl, rfl⟩

theorem KeepsDuties.exists_step {s : State} (h : KeepsDuties s) : ∃ t, step s = .next t := by
  cases hh : s.host with
  | nil => exact ⟨s, idleMachineHoldsItsState s hh⟩
  | cons op rest =>
    have hduty : brokenDuty op { s with host := rest } = none :=
      (brokenDuty_congr rfl rfl rfl).trans (h.duties op (by simp [hh]))
    have hinv : Inv { s with host := rest } := h.inv.outside _ _ _ _ _ rest _ h.inv.inMem
    rw [step_host hh, hostStep, hduty]
    exact hinv.exists_hostAct op

theorem KeepsDuties.step {s t : State} (h : KeepsDuties s) (ht : step s = .next t) : KeepsDuties t where
  inv := stepKeepsTheInvariant s t h.inv ht
  duties op hop := by
    obtain ⟨hhost, hinCap, houtCap⟩ := step_host_caps ht
    have hbusy : t.busy = s.busy := (stepKeepsTheInvariant s t h.inv ht).busy.trans h.inv.busy.symm
    rw [brokenDuty_congr hbusy hinCap houtCap]
    exact h.duties op (List.mem_of_mem_tail (hhost ▸ hop))

theorem core_run_succ {s t : State} (ht : step s = .next t) (k : Nat) : core.run (k + 1) s = core.run k t := by
  have hstep : core.step s = .next t := ht
  simp only [Host.Core.run, hstep]

/-- A run of any length, by induction on its steps: the next state keeps the duties again. -/
theorem KeepsDuties.safe {s : State} (h : KeepsDuties s) : Safe s := by
  intro k
  induction k generalizing s with
  | zero => exact ⟨s, rfl⟩
  | succ k ih =>
    obtain ⟨t, ht⟩ := h.exists_step
    rw [core_run_succ ht]
    exact ih (h.step ht)

/-- Settles O49: the invariant and the kept duties are what `KeepsDuties.safe` needs. -/
theorem keptDutiesRunForever : Obligations.KeptDutiesRunForever := fun _ h hduties => KeepsDuties.safe ⟨h, hduties⟩

end Sys2Proof.Machine

/-! # The reset input and the host's duties -/

namespace Sys2Proof.Machine

/-- Settles O57: of the actions that `step_cases` lists, those that are neither reach no other field. -/
theorem hostKeepsInternalState : Obligations.HostKeepsInternalState := by
  intro s t op rest hh hreset hcmd ht
  rcases step_cases ht with ⟨hnil, -⟩ | ⟨op', rest', hh', -, hact⟩
  · cases hh.symm.trans hnil
  obtain ⟨rfl, rfl⟩ := List.cons.inj (hh.symm.trans hh')
  rcases hact with ⟨hop, -⟩ | ⟨v, hop, -⟩ | ⟨-, -, hreg | ⟨i, b, -, -, rfl⟩⟩
  · exact absurd hop hreset
  · exact absurd hop (hcmd v)
  · rw [hreg]
  · rfl

/-- Settles O55: `step_reset` asks nothing of the state. -/
theorem resetIsAlwaysServed : Obligations.ResetIsAlwaysServed :=
  fun s rest hh => ⟨hostReset { s with host := rest }, step_reset hh, rfl, rfl, rfl⟩

/-! ## Broken duties -/

/-- A host action that breaks a duty is refused under the duty's name (70_reset_and_hazards.md R125). -/
theorem step_refused {s : State} {op : HostOp} {rest : List HostOp} {r : Refusal} (hh : s.host = op :: rest)
    (hd : brokenDuty op s = some r) : step s = .refused r := by
  have hduty : brokenDuty op { s with host := rest } = some r := (brokenDuty_congr rfl rfl rfl).trans hd
  rw [step_host hh, hostStep, hduty]

theorem allowedWhileBusy_iff {op : HostOp} :
    allowedWhileBusy op = true ↔ op = .reset ∨ op = .regRead 0x08 .w32 := by
  cases op <;> simp [allowedWhileBusy]

theorem brokenDuty_busy {s : State} {op : HostOp} (hb : s.busy = true) (hop : allowedWhileBusy op = false) :
    brokenDuty op s = some .accessWhileBusy := by
  simp [brokenDuty, hb, hop]

/-- With BUSY = 0 the duty of a read of REG and of a write is the register's alone (10_state.md R24). -/
theorem brokenDuty_register {s : State} {op : HostOp} {off : BitVec 8} {width : Width} (hb : s.busy = false)
    (hop : op = .regRead off width ∨ ∃ v, op = .regWrite off width v) : brokenDuty op s = registerDuty off width := by
  rcases hop with rfl | ⟨v, rfl⟩
  · exact brokenDuty_regRead (.inl hb)
  · simp [brokenDuty, hb]

theorem brokenDuty_inIndex {s : State} {op : HostOp} {a : Nat} (hb : s.busy = false)
    (hop : op = .inRead a ∨ ∃ b, op = .inWrite a b) (ha : s.inCap.toNat ≤ a) : brokenDuty op s = some .inIndex := by
  rcases hop with rfl | ⟨b, rfl⟩ <;> simp [brokenDuty, hb, ha]

theorem brokenDuty_outIndex {s : State} {op : HostOp} {a : Nat} (hb : s.busy = false)
    (hop : op = .outRead a ∨ ∃ b, op = .outWrite a b) (ha : s.outCap.toNat ≤ a) :
    brokenDuty op s = some .outIndex := by
  rcases hop with rfl | ⟨b, rfl⟩ <;> simp [brokenDuty, hb, ha]

theorem registerDuty_misaligned {off : BitVec 8} (width : Width) (h8 : off.toNat % 8 ≠ 0) :
    registerDuty off width = some .registerMisaligned := by
  rw [registerDuty, if_pos h8]

theorem registerDuty_width {off : BitVec 8} {width : Width} {r : Register} (h8 : off.toNat % 8 = 0)
    (hr : registerAt off = some r) (hw : width ≠ registerWidth r) : registerDuty off width = some .registerWidth := by
  simp [registerDuty, h8, hr, hw]

/-- Every register from ARG to OUT_CAP is 64 bits wide (10_state.md R23). -/
theorem registerAt_wide {off : BitVec 8} (h8 : off.toNat % 8 = 0) (hlo : 0x10 ≤ off.toNat) (hhi : off.toNat ≤ 0x48) :
    ∃ r, registerAt off = some r ∧ registerWidth r = .w64 := by
  obtain ⟨k, hk⟩ := Nat.dvd_of_mod_eq_zero h8
  obtain rfl : off = BitVec.ofNat 8 (8 * k) := by rw [← hk, BitVec.ofNat_toNat, BitVec.setWidth_eq]
  have hklo : 2 ≤ k := by omega
  have hkhi : k ≤ 9 := by omega
  interval_cases k <;> exact ⟨_, rfl, rfl⟩

/-- Where no register is, an access of 8 or 16 bits breaks the duty too (10_state.md R24). -/
theorem registerDuty_unused_width {off : BitVec 8} {width : Width} (h50 : 0x50 ≤ off.toNat) (h8 : off.toNat % 8 = 0)
    (hw : width = .w8 ∨ width = .w16) : registerDuty off width = some .registerWidth := by
  rcases hw with rfl | rfl <;> simp [registerDuty, registerAt_unused h50, h8]

/-- Settles O56: in each clause the action's duty is computed, and `step_refused` names it. -/
theorem brokenDutiesAreRefused : Obligations.BrokenDutiesAreRefused := by
  intro s rest op hh
  refine ⟨fun hb hreset hstatus => step_refused hh (brokenDuty_busy hb ?_), fun hb =>
    ⟨fun off width hop => ?_, fun a hop ha => step_refused hh (brokenDuty_inIndex hb hop ha),
      fun a hop ha => step_refused hh (brokenDuty_outIndex hb hop ha)⟩⟩
  · rw [← Bool.not_eq_true, allowedWhileBusy_iff]
    exact not_or.2 ⟨hreset, hstatus⟩
  have hrefused : ∀ {r}, registerDuty off width = some r → step s = .refused r :=
    fun hd => step_refused hh ((brokenDuty_register hb hop).trans hd)
  refine ⟨fun h8 => hrefused (registerDuty_misaligned width h8), fun hoff hw => hrefused ?_,
    fun h8 hlo hhi hw => hrefused ?_, fun h8 h50 hw => hrefused (registerDuty_unused_width h50 h8 hw)⟩
  · rcases hoff with rfl | rfl
    · exact registerDuty_width rfl (r := .cmd) rfl hw
    · exact registerDuty_width rfl (r := .status) rfl hw
  · obtain ⟨r, hr, hwide⟩ := registerAt_wide h8 hlo hhi
    exact registerDuty_width h8 hr (hwide ▸ hw)

end Sys2Proof.Machine
